-- ==== Sys2Proof/Word.lean ====
section
/-! DEFINITION. The word types of the block (00_scope R5, R6, R10, R11). -/

namespace Sys2Proof

/-- A bus data word, a command word, ARG, ERR_INFO, a weight (00_scope R6). -/
abbrev Word := BitVec 32

/-- One element of SYM_IN, SYM_OUT or BYTES. -/
abbrev Byte := BitVec 8

/-- A symbol of the 128-symbol alphabet (00_scope R5). -/
abbrev Symbol := BitVec 7

/-- A node index as stored: 0..254, or 0xFF for NIL (00_scope R6). -/
abbrev NodeRef := BitVec 8

/-- A bit string in stream order, first bit first (00_scope R11). -/
abbrev Bits := List Bool

/-- NIL: no child, no root (00_scope R6, glossary). -/
abbrev nilRef : NodeRef := 0xFF#8

end Sys2Proof
end

