-- ==== Sys2Proof/Syntax.lean ====
section
/-! DEFINITION. The commands (30_encoding R84): one constructor per row of spec/opcode_table.json. -/

namespace Sys2Proof

/-- A command. The symbol operand of FT_APPEND is a plain number here, as the assembler meets it (30_encoding R89); WellFormed bounds it (log 16). -/
inductive Instr where
  | nop                    -- R100
  | sreset                 -- R101
  | clrerr                 -- R102
  | ftClear                -- R111
  | ftAppend (sym : Nat)   -- R112
  | tbInit                 -- R122
  | tbStep                 -- R123
  | tbBuild                -- R124
  | ctGen                  -- R140
  | pack                   -- R151
  | unpack                 -- R153
  | encBits                -- R171
  | decBits                -- R173
  | encode                 -- R174
  | decode                 -- R175
  deriving DecidableEq, Repr

end Sys2Proof
end

