-- ==== Sys2Proof/WellFormed.lean ====
section
/-! DEFINITION. Which commands the encoding can hold (30_encoding R82, R89). -/

namespace Sys2Proof

/-- "The assembler refuses a symbol above 127" (30_encoding R89); no other command has an operand (R83). -/
def Instr.wf : Instr → Bool
  | .ftAppend sym => decide (sym ≤ 127)
  | .nop | .sreset | .clrerr | .ftClear | .tbInit | .tbStep | .tbBuild | .ctGen | .pack | .unpack
  | .encBits | .decBits | .encode | .decode => true

/-- The check as a decidable proposition. -/
abbrev Instr.WellFormed (i : Instr) : Prop := i.wf = true

end Sys2Proof
end

