-- ==== Sys2Proof/Decode.lean ====
section
/-! DEFINITION. Decoding and encoding of command words (30_encoding R80 to R86). -/

namespace Sys2Proof

/-- Why a word is no command. Both reasons raise ILLEGAL_CMD. -/
inductive DecodeReject where
  | reservedOpcode   -- R85
  | mustBeZero       -- R86
  deriving DecidableEq, Repr

/-- OPCODE = w[31:24] (R81). -/
def opcodeField (w : Word) : BitVec 8 := w.extractLsb' 24 8

/-- Format N: w[23:0] must be 0 (R80, R86). -/
def formatN (w : Word) (i : Instr) : Except DecodeReject Instr :=
  if w.extractLsb' 0 24 = 0#24 then .ok i else .error .mustBeZero

/-- Format S: w[23:7] must be 0 and SYM = w[6:0] (R80, R82, R86). -/
def formatS (w : Word) (make : Nat → Instr) : Except DecodeReject Instr :=
  if w.extractLsb' 7 17 = 0#17 then .ok (make (w.extractLsb' 0 7).toNat) else .error .mustBeZero

/-- The opcode map of R84; every opcode not listed is reserved (R85). Total on every word. -/
def decode (w : Word) : Except DecodeReject Instr :=
  match (opcodeField w).toNat with
  | 0x00 => formatN w .nop
  | 0x01 => formatN w .sreset
  | 0x02 => formatN w .clrerr
  | 0x10 => formatN w .ftClear
  | 0x11 => formatS w .ftAppend
  | 0x20 => formatN w .tbInit
  | 0x21 => formatN w .tbStep
  | 0x22 => formatN w .tbBuild
  | 0x30 => formatN w .ctGen
  | 0x40 => formatN w .pack
  | 0x41 => formatN w .unpack
  | 0x50 => formatN w .encBits
  | 0x51 => formatN w .decBits
  | 0x52 => formatN w .encode
  | 0x53 => formatN w .decode
  | _    => .error .reservedOpcode

/-- The opcode column of R84. -/
def Instr.opcode : Instr → BitVec 8
  | .nop        => 0x00#8
  | .sreset     => 0x01#8
  | .clrerr     => 0x02#8
  | .ftClear    => 0x10#8
  | .ftAppend _ => 0x11#8
  | .tbInit     => 0x20#8
  | .tbStep     => 0x21#8
  | .tbBuild    => 0x22#8
  | .ctGen      => 0x30#8
  | .pack       => 0x40#8
  | .unpack     => 0x41#8
  | .encBits    => 0x50#8
  | .decBits    => 0x51#8
  | .encode     => 0x52#8
  | .decode     => 0x53#8

/-- Bits 23:0: the symbol in bits 6:0 for format S, else all 0 (R80). -/
def Instr.operandField : Instr → BitVec 24
  | .ftAppend sym => 0#17 ++ BitVec.ofNat 7 sym
  | .nop | .sreset | .clrerr | .ftClear | .tbInit | .tbStep | .tbBuild | .ctGen | .pack | .unpack
  | .encBits | .decBits | .encode | .decode => 0#24

/-- The command word (R80, R84): opcode in 31:24, operand below. -/
def encode (i : Instr) : Word := i.opcode ++ i.operandField

/-- What the decoder reads from the opcode table's numbering of a word. A command word is a plain 32-bit value with no byte order of its own (20_memory R63), so the numbering is the word's own; no command is longer than 32 bits (R80). -/
def decodeTableWord (nbits w : Nat) : Option Instr :=
  if nbits ≤ 32 then
    match decode (BitVec.ofNat 32 (w % 2 ^ nbits)) with
    | .ok i => some i
    | .error _ => none
  else none

end Sys2Proof
end

