-- ==== Sys2Proof/Config.lean ====
section
/-! DEFINITION. The implementation parameters (00_scope R7) and the values the spec leaves free. -/

namespace Sys2Proof

/-- The named parameters of 00_scope R7. Every statement about the machine holds for every well-formed choice; State.reset takes the defaults (log 2). -/
structure Params where
  base    : Nat   -- BASE, a byte address
  symCap  : Nat   -- SYM_CAP, in symbols
  bitCap  : Nat   -- BIT_CAP, in bits
  byteCap : Nat   -- BYTE_CAP, in bytes
  deriving DecidableEq, Repr

/-- The constraint column of 00_scope R7. -/
abbrev Params.wf (p : Params) : Prop :=
  p.base % 0x100000 = 0 ∧
  (p.symCap % 4 = 0 ∧ 4 ≤ p.symCap ∧ p.symCap ≤ 65536) ∧
  (p.bitCap % 32 = 0 ∧ 32 ≤ p.bitCap ∧ p.bitCap ≤ 524288) ∧
  (p.byteCap % 4 = 0 ∧ 4 ≤ p.byteCap ∧ p.byteCap ≤ 65536)

/-- The default column of 00_scope R7. -/
def Params.defaults : Params := ⟨0x00000000, 4096, 32768, 4100⟩

namespace Config

/-- Free: how many STATUS reads after a CMD write still find BUSY = 1 (70_reset R244, 93 I4; log 3). The argument is State.draws. -/
opaque busyPolls : Nat → Nat

/-- Free: STATUS bits 4:1 of a read that returns BUSY = 1 (70_reset R241, 93 I3; log 4). -/
opaque statusBits : Nat → BitVec 4

/-- Free: a never-written byte element (or a node's or code's byte field) read on the bus (20_memory R71, 93 I1; log 6). Arguments: State.draws and the lane. -/
opaque freeByte : Nat → Nat → BitVec 8

/-- Free: a never-written bit element (or one-bit field) read on the bus (20_memory R71; log 6). -/
opaque freeBit : Nat → Nat → Bool

/-- Free: a never-written node's symbol read on the bus (20_memory R71; log 6). -/
opaque freeSymbol : Nat → BitVec 7

/-- Free: a never-written weight read on the bus (20_memory R71; log 6). -/
opaque freeWord : Nat → BitVec 32

/-- Free: a never-written CODE field read on the bus (20_memory R71; log 6). -/
opaque freeCode : Nat → BitVec 128

end Config

end Sys2Proof
end

