-- ==== Sys2Proof/Machine/State.lean ====
section
/-! DEFINITION. The state of the block and of the host's run, as plain data (10_state R19 to R49, 00_scope R8, R9). -/

namespace Sys2Proof.Machine

/-- A memory as the elements written so far: pairs of index and element, indices strictly rising (Memory.wf in Ops.lean). An index that is not listed has never been written since hardware reset and has no value (20_memory R71; log 5). At Byte this is a list of Host.Cell. -/
abbrev Memory (α : Type) := List (Nat × α)

/-- TB_STATE (10_state R29); the encoding 3 never occurs, so it has no constructor. -/
inductive TbState where
  | idle
  | running
  | done
  deriving DecidableEq, Repr

/-- A Frequency Table entry (10_state R42). -/
structure FtEntry where
  sym    : Symbol
  weight : Word
  deriving DecidableEq, Repr

/-- A node-memory entry (10_state R43). -/
structure Node where
  valid  : Bool
  leaf   : Bool
  sym    : Symbol
  weight : Word
  left   : NodeRef
  right  : NodeRef
  deriving DecidableEq, Repr

/-- A code-table entry (10_state R44). CODE[j] is bit 127 - j of code: the first code bit is the most significant (20_memory R57; log 25). -/
structure CodeEntry where
  valid : Bool
  len   : BitVec 8
  code  : BitVec 128
  deriving DecidableEq, Repr

/-- The block's memories by name, for fault reports. -/
inductive MemName where
  | ft
  | node
  | code
  | symIn
  | symOut
  | bits
  | bytes
  deriving DecidableEq, Repr

/-- The error codes of 60_exceptions R201, in its order (0x01 to 0x11). -/
inductive ErrCode where
  | illegalCmd
  | ftFull
  | ftZeroWeight
  | ftDupSymbol
  | ftUnsorted
  | ftTotalOverflow
  | emptyAlphabet
  | tbNotRunning
  | noTree
  | noCodes
  | badSymbol
  | noCode
  | bitOverflow
  | byteOverflow
  | noMarker
  | decodeNil
  | symOverflow
  deriving DecidableEq, Repr

/-- What the host may do next (00_scope R8; 30_encoding R90; 70_reset R230). Addresses are bus byte addresses; size is the access size in bytes (20_memory R51; log 18, log 20). -/
inductive HostAction where
  | read (addr size : Nat)
  | write (addr size : Nat) (v : Word)
  | poll       -- read STATUS until a read returns BUSY = 0 (log 24)
  | hwReset    -- hardware reset (log 17)
  deriving DecidableEq, Repr

/-- Who answered an access and how (20_memory R52). -/
inductive BusStatus where
  | ok
  | busErr
  | elsewhere   -- the address is outside the block (20_memory R50; log 9)
  deriving DecidableEq, Repr

/-- One response: a read carries data, a write does not; a read answered BUSERR carries 0 (20_memory R52). -/
structure BusResponse where
  status : BusStatus
  data   : Option Word
  deriving DecidableEq, Repr

/-- Everything the spec gives the machine. INVENTORY.md lists each field with its rule and reset value. -/
structure State where
  cfg        : Params             -- R7, R41; never changes
  arg        : Word               -- R22
  busy       : Bool               -- R24
  busyPolls  : Nat                -- the model's own (log 3)
  errCode    : BitVec 8           -- R25
  errOp      : BitVec 8           -- R25
  errInfo    : Word               -- R26
  ftN        : Nat                -- R27
  tbState    : TbState            -- R29
  srcHead    : Nat                -- R30
  tgtHead    : Nat                -- R31
  nodeN      : Nat                -- R32
  root       : NodeRef            -- R33
  treeValid  : Bool               -- R34
  codesValid : Bool               -- R35
  decPartial : Bool               -- R36
  symInLen   : Nat                -- R37
  symOutLen  : Nat                -- R38
  bitLen     : Nat                -- R39
  byteLen    : Nat                -- R40
  ft         : Memory FtEntry     -- R42
  nodes      : Memory Node        -- R43
  codes      : Memory CodeEntry   -- R44
  symIn      : Memory Byte        -- R45
  symOut     : Memory Byte        -- R45
  bits       : Memory Bool        -- R46
  bytes      : Memory Byte        -- R47
  pending    : List HostAction    -- the run still to come (R9; log 1)
  shown      : List BusResponse   -- what the run has shown, latest first (R9)
  draws      : Nat                -- the model's own (log 7)
  deriving DecidableEq, Repr

/-- Why the machine stops. -/
inductive Fault where
  /-- Raised by a bus access other than a STATUS read while BUSY = 1 (70_reset R241, 93 I2). Safe: the spec leaves the effect open. -/
  | busyAccess
  /-- Raised by a command that reads an element never written since hardware reset (20_memory R71, 93 I1). Safe. -/
  | unwrittenRead (mem : MemName) (index : Nat)
  /-- Raised by TB_STEP or TB_BUILD when NODE_N names no node slot. No reachable state has it (10_state R48; log 12). Safe. -/
  | noSuchNode (index : Nat)
  /-- Raised by TB_BUILD when FT_N merges did not finish the build. Unreachable (42_tree_builder R127; log 12). Safe. -/
  | buildUnfinished
  /-- Raised by CT_GEN when a path is longer than 127 bits. Unreachable (43_code_table R143; log 12). Safe. -/
  | treeTooDeep
  deriving DecidableEq, Repr

/-- Why an instruction has no meaning. -/
inductive Refusal where
  /-- Raised by exec for a command that is not modelled yet. Safe. No arm uses it. -/
  | notModelled (mnemonic : String)
  deriving DecidableEq, Repr

/-- The block right after hardware reset with the given parameters (70_reset R230): memories list nothing. -/
def State.resetWith (p : Params) : State where
  cfg        := p
  arg        := 0#32
  busy       := false
  busyPolls  := 0
  errCode    := 0#8
  errOp      := 0#8
  errInfo    := 0#32
  ftN        := 0
  tbState    := .idle
  srcHead    := 0
  tgtHead    := 0
  nodeN      := 0
  root       := nilRef
  treeValid  := false
  codesValid := false
  decPartial := false
  symInLen   := 0
  symOutLen  := 0
  bitLen     := 0
  byteLen    := 0
  ft         := []
  nodes      := []
  codes      := []
  symIn      := []
  symOut     := []
  bits       := []
  bytes      := []
  pending    := []
  shown      := []
  draws      := 0

/-- The machine right after reset, with the default parameters (00_scope R7; log 2, log 7). -/
def State.reset : State := State.resetWith Params.defaults

end Sys2Proof.Machine
end

