-- ==== Sys2Proof/Machine/Ops.lean ====
section
/-! DEFINITION. The operations over memories and registers that the commands share: reading and writing elements, ending a command, entering an error and leaving it (60_exceptions R200 to R208). -/

namespace Sys2Proof.Machine

/-! ## Memories -/

/-- The canonical form: indices strictly rising. An unlisted index has no value, so no entry can repeat it. -/
abbrev Memory.wf {α : Type} (m : Memory α) : Prop := m.Pairwise (fun x y => x.1 < y.1)

/-- Every listed index is below n: the memory has n elements. -/
abbrev Memory.below {α : Type} (n : Nat) (m : Memory α) : Prop := ∀ x ∈ m, x.1 < n

/-- The element at index a, or none when it was never written. -/
def Memory.read {α : Type} : Memory α → Nat → Option α
  | [], _ => none
  | (b, v) :: m, a => if a = b then some v else Memory.read m a

/-- Write one element, keeping the canonical form. -/
def Memory.write {α : Type} : Memory α → Nat → α → Memory α
  | [], a, v => [(a, v)]
  | (b, w) :: m, a, v =>
    if a < b then (a, v) :: (b, w) :: m
    else if a = b then (a, v) :: m
    else (b, w) :: Memory.write m a v

/-- Elements a .. a+n-1 in order, or the first index among them that was never written. -/
def Memory.readRange {α : Type} (m : Memory α) : Nat → Nat → Except Nat (List α)
  | _, 0 => .ok []
  | a, n + 1 =>
    match Memory.read m a with
    | none => .error a
    | some v =>
      match Memory.readRange m (a + 1) n with
      | .ok vs => .ok (v :: vs)
      | .error i => .error i

/-- Write the elements vs at a, a+1, …; exactly those elements change (92 D29). -/
def Memory.writeList {α : Type} : Memory α → Nat → List α → Memory α
  | m, _, [] => m
  | m, a, v :: vs => Memory.writeList (Memory.write m a v) (a + 1) vs

/-- The memory whose elements 0 .. n-1 are given by f, and no other. -/
def Memory.tabulate {α : Type} (n : Nat) (f : Nat → α) : Memory α :=
  (List.range n).map (fun i => (i, f i))

/-! ## How a command's body ends -/

/-- The end of a command's body, before the all-or-nothing rule: finished, an error raised (00_scope R12), or a read the model stops on. -/
inductive Ending (α : Type) where
  | done (a : α)
  | raised (code : ErrCode) (info : Word)
  | stuck (f : Fault)
  deriving DecidableEq, Repr

/-- Statements run in order; a raise stops the command at that point (00_scope R12). -/
def Ending.bind {α β : Type} : Ending α → (α → Ending β) → Ending β
  | .done a, f => f a
  | .raised c i, _ => .raised c i
  | .stuck x, _ => .stuck x

/-- A number as an ERR_INFO value. -/
def info (n : Nat) : Word := BitVec.ofNat 32 n

/-- A command reads one element; a never-written one is a fault (20_memory R71). -/
def fetch {α : Type} (name : MemName) (m : Memory α) (a : Nat) : Ending α :=
  match Memory.read m a with
  | some v => .done v
  | none => .stuck (.unwrittenRead name a)

/-- A command reads elements 0 .. n-1. -/
def fetchRange {α : Type} (name : MemName) (m : Memory α) (n : Nat) : Ending (List α) :=
  match Memory.readRange m 0 n with
  | .ok vs => .done vs
  | .error i => .stuck (.unwrittenRead name i)

/-! ## Errors: the block's exceptions -/

/-- The code column of 60_exceptions R201. -/
def ErrCode.code : ErrCode → BitVec 8
  | .illegalCmd      => 0x01#8
  | .ftFull          => 0x02#8
  | .ftZeroWeight    => 0x03#8
  | .ftDupSymbol     => 0x04#8
  | .ftUnsorted      => 0x05#8
  | .ftTotalOverflow => 0x06#8
  | .emptyAlphabet   => 0x07#8
  | .tbNotRunning    => 0x08#8
  | .noTree          => 0x09#8
  | .noCodes         => 0x0A#8
  | .badSymbol       => 0x0B#8
  | .noCode          => 0x0C#8
  | .bitOverflow     => 0x0D#8
  | .byteOverflow    => 0x0E#8
  | .noMarker        => 0x0F#8
  | .decodeNil       => 0x10#8
  | .symOverflow     => 0x11#8

/-- Error entry, the block's trap (R202): ERR.CODE, ERR.OP and ERR_INFO are written and nothing else is. While an error is recorded the first one wins and nothing is written (R207; log 19). -/
def State.raiseError (s : State) (code : ErrCode) (op : BitVec 8) (inf : Word) : State :=
  if s.errCode = 0#8 then { s with errCode := code.code, errOp := op, errInfo := inf } else s

/-- The return from an error (R208, 40_control R102). -/
def State.clearError (s : State) : State := { s with errCode := 0#8, errOp := 0#8, errInfo := 0#32 }

/-- How a command with opcode op ends from the state s at its CMD write: all its effects, or only the recorded error (R200, R204), or a fault. -/
def settle (op : BitVec 8) (s : State) : Ending State → Host.Outcome State Fault Refusal
  | .done t => .next t
  | .raised c i => .next (s.raiseError c op i)
  | .stuck f => .fault f

/-! ## Register updates the commands share -/

/-- InvalidateTree (41_freq_table R110): memory contents stay. -/
def State.invalidateTree (s : State) : State :=
  { s with tbState := .idle, srcHead := 0, tgtHead := 0, nodeN := 0, root := nilRef,
           treeValid := false, codesValid := false }

/-- FT_N <- 0; InvalidateTree() (41_freq_table R111). -/
def State.clearTable (s : State) : State := { s.invalidateTree with ftN := 0 }

/-- FT[n] <- (sym, weight); FT_N <- n + 1; InvalidateTree() (41_freq_table R112). -/
def State.appendEntry (s : State) (e : FtEntry) : State :=
  { s.invalidateTree with ft := Memory.write s.ft s.ftN e, ftN := s.ftN + 1 }

/-- The registers and nodes of a finished single-symbol build (42_tree_builder R122 step 2). -/
def State.startSingle (s : State) (nodes : Memory Node) : State :=
  { s with nodes := nodes, nodeN := 2, srcHead := 1, tgtHead := 2, root := 1#8, tbState := .done,
           treeValid := true, codesValid := false }

/-- The registers and nodes of a build with its queues set up (42_tree_builder R122 step 1). -/
def State.startQueues (s : State) (nodes : Memory Node) : State :=
  { s with nodes := nodes, nodeN := s.ftN, srcHead := 0, tgtHead := s.ftN, root := nilRef, tbState := .running,
           treeValid := false, codesValid := false }

/-- The queue heads after a dequeue (42_tree_builder R120). -/
def State.moveHeads (s : State) (src tgt : Nat) : State := { s with srcHead := src, tgtHead := tgt }

/-- Enqueue a node onto the target queue (42_tree_builder R120, R123). -/
def State.enqueue (s : State) (nd : Node) : State :=
  { s with nodes := Memory.write s.nodes s.nodeN nd, nodeN := s.nodeN + 1 }

/-- Dequeue the last node as the root (42_tree_builder R123 step 4). -/
def State.finishBuild (s : State) : State :=
  { s with root := BitVec.ofNat 8 s.tgtHead, tgtHead := s.tgtHead + 1, tbState := .done, treeValid := true }

/-- The code table is replaced whole; CODES_VALID <- 1 (43_code_table R140). -/
def State.putCodes (s : State) (codes : Memory CodeEntry) : State := { s with codes := codes, codesValid := true }

/-- SRESET's assignments (40_control R101): every register, no memory. -/
def State.resetRegisters (s : State) : State :=
  { s with arg := 0#32, errCode := 0#8, errOp := 0#8, errInfo := 0#32, ftN := 0,
           tbState := .idle, srcHead := 0, tgtHead := 0, nodeN := 0, root := nilRef,
           treeValid := false, codesValid := false, decPartial := false,
           symInLen := 0, symOutLen := 0, bitLen := 0, byteLen := 0 }

/-- BITS[0..len(b)-1] <- b; BIT_LEN <- len(b) (44_bitstream R153, 45_encode_decode R171). -/
def State.putBits (s : State) (b : Bits) : State :=
  { s with bits := Memory.writeList s.bits 0 b, bitLen := b.length }

/-- BYTES[0..m-1] <- bs; BYTE_LEN <- m (44_bitstream R151). -/
def State.putBytes (s : State) (bs : List Byte) : State :=
  { s with bytes := Memory.writeList s.bytes 0 bs, byteLen := bs.length }

/-- SYM_OUT[0..n-1] <- out; SYM_OUT_LEN <- n; DEC_PARTIAL <- p (45_encode_decode R173). -/
def State.putSymbols (s : State) (out : List Byte) (p : Bool) : State :=
  { s with symOut := Memory.writeList s.symOut 0 out, symOutLen := out.length, decPartial := p }

/-- BUSY <- 1 at a CMD write, for an unspecified finite time (30_encoding R87, 10_state R24; log 3). -/
def State.beginCommand (s : State) : State :=
  { s with busy := true, busyPolls := Config.busyPolls s.draws }

/-- BUSY <- 0: a STATUS read finds the command finished (10_state R24). -/
def State.endBusy (s : State) : State := { s with busy := false }

/-- One more STATUS read has found BUSY = 1 (log 3). -/
def State.countPoll (s : State) : State := { s with busyPolls := s.busyPolls - 1 }

/-- The host sees a response (00_scope R9). -/
def State.respond (s : State) (r : BusResponse) : State := { s with shown := r :: s.shown }

/-- The host's next action leaves the list, and free values become fresh (log 7). -/
def State.takeAction (s : State) (rest : List HostAction) : State :=
  { s with pending := rest, draws := s.draws + 1 }

/-- An action that is not finished stays the host's next one (log 24). -/
def State.requeue (s : State) (a : HostAction) : State := { s with pending := a :: s.pending }

/-- A bus write to ARG (10_state R22). -/
def State.setArg (s : State) (v : Word) : State := { s with arg := v }

/-- A bus write to SYM_IN_LEN (20_memory R54). -/
def State.setSymInLen (s : State) (n : Nat) : State := { s with symInLen := n }

/-- A bus write to BIT_LEN (20_memory R54). -/
def State.setBitLen (s : State) (n : Nat) : State := { s with bitLen := n }

/-- A bus write to BYTE_LEN (20_memory R54). -/
def State.setByteLen (s : State) (n : Nat) : State := { s with byteLen := n }

/-- A bus write into SYM_IN (20_memory R58). -/
def State.setSymIn (s : State) (m : Memory Byte) : State := { s with symIn := m }

/-- A bus write into BITS (20_memory R60). -/
def State.setBits (s : State) (m : Memory Bool) : State := { s with bits := m }

/-- A bus write into BYTES (20_memory R61). -/
def State.setBytes (s : State) (m : Memory Byte) : State := { s with bytes := m }

/-- Hardware reset (70_reset R230): registers at their reset values and memories unspecified again. The run goes on (log 17). -/
def State.hardwareReset (s : State) : State :=
  { State.resetWith s.cfg with pending := s.pending, shown := s.shown, draws := s.draws }

end Sys2Proof.Machine
end

