-- ==== Sys2Proof/Machine/Operands.lean ====
section
/-! DEFINITION. Operands and data forms: the symbol operand, the table a command reads, bit strings and bytes, codes and their packing, the lane layout of a bus word (30_encoding R82, R83; 00_scope R11; 20_memory R55 to R61). -/

namespace Sys2Proof.Machine

/-! ## The command operands -/

/-- The SYM operand at its 7-bit width (30_encoding R82; log 16). -/
def symOperand (sym : Nat) : Symbol := BitVec.ofNat 7 sym

/-- A 7-bit symbol stored in an 8-bit buffer element (log 23). -/
def symByte (c : Symbol) : Byte := c.setWidth 8

/-- The Frequency Table FT[0..FT_N-1] as a command reads it (10_state R42). -/
def fetchTable (s : State) : Ending (List FtEntry) := fetchRange .ft s.ft s.ftN

/-- The sum of a table's weights, without wrap-around (10_state R28). -/
def totalWeight (table : List FtEntry) : Nat := (table.map (fun e => e.weight.toNat)).sum

/-- The index of the table's entry for a symbol, if any (41_freq_table R112; log 15). -/
def indexOfSymbol (c : Symbol) (table : List FtEntry) : Option Nat := table.findIdx? (fun e => e.sym == c)

/-- A node index as stored. -/
def nodeRef (i : Nat) : NodeRef := BitVec.ofNat 8 i

/-- "both children absent" (10_state R43, 43_code_table R140). -/
def Node.isLeaf (nd : Node) : Bool := nd.left == nilRef && nd.right == nilRef

/-- The child a bit selects: left for 0, right for 1 (45_encode_decode R172). -/
def Node.child (nd : Node) (b : Bool) : NodeRef := if b then nd.right else nd.left

/-! ## Bit strings and bytes -/

/-- Eight bits, the first the most significant (44_bitstream, Notation; 00_scope R11). -/
def byteOf (b7 b6 b5 b4 b3 b2 b1 b0 : Bool) : Byte := BitVec.ofBoolListBE [b7, b6, b5, b4, b3, b2, b1, b0]

/-- expand(v) = [v[7], …, v[0]] (00_scope R11). -/
def expand (v : Byte) : Bits :=
  [v.getMsbD 0, v.getMsbD 1, v.getMsbD 2, v.getMsbD 3, v.getMsbD 4, v.getMsbD 5, v.getMsbD 6, v.getMsbD 7]

/-- The bit string of a byte sequence (44_bitstream R152). -/
def expandAll (bs : List Byte) : Bits := bs.flatMap expand

/-- Group a bit string whose length is a multiple of 8 into bytes; a shorter tail cannot occur in Pack. -/
def groupBytes : Bits → List Byte
  | b7 :: b6 :: b5 :: b4 :: b3 :: b2 :: b1 :: b0 :: rest => byteOf b7 b6 b5 b4 b3 b2 b1 b0 :: groupBytes rest
  | _ => []

/-- pad = 8 - (L mod 8) (44_bitstream R150). -/
def padding (length : Nat) : Nat := 8 - length % 8

/-- Pack (44_bitstream R150). -/
def packBits (b : Bits) : List Byte :=
  groupBytes (List.replicate (padding b.length - 1) false ++ [true] ++ b)

/-- The number of bytes Pack makes: floor(L/8) + 1 (44_bitstream R150). -/
def packedLength (length : Nat) : Nat := length / 8 + 1

/-- The number of leading zero bits of a byte (44_bitstream R152, R153). -/
def leadingZeros (v : Byte) : Nat := ((expand v).takeWhile (fun b => !b)).length

/-- Unpack (44_bitstream R152); none is NO_MARKER. -/
def unpackBytes : List Byte → Option Bits
  | [] => none
  | v :: vs => if v = 0x00#8 then none else some ((expandAll (v :: vs)).drop (leadingZeros v + 1))

/-- L = 8m - k - 1, the length of what Unpack returns (44_bitstream R153). -/
def unpackedLength (m : Nat) (first : Byte) : Nat := 8 * m - leadingZeros first - 1

/-! ## Codes -/

/-- A path as CODE: path ++ zeros(128 - len) (43_code_table R140), first bit most significant (log 25). -/
def codeOfPath (p : Bits) : BitVec 128 :=
  (BitVec.ofBoolListBE (p ++ List.replicate (128 - p.length) false)).setWidth 128

/-- The code table entry a leaf at path p gets (43_code_table R140). -/
def entryOfPath (p : Bits) : CodeEntry := ⟨true, BitVec.ofNat 8 p.length, codeOfPath p⟩

/-- An absent entry (43_code_table R140). -/
def absentEntry : CodeEntry := ⟨false, 0#8, 0#128⟩

/-- CODE[0 .. LEN-1] (10_state R44). -/
def CodeEntry.bits (e : CodeEntry) : Bits := (List.range e.len.toNat).map (fun j => e.code.getMsbD j)

/-! ## Lanes of a bus word -/

/-- Four bytes in big-endian lane order (20_memory R58). -/
def wordOfBytes (b0 b1 b2 b3 : Byte) : Word := b0 ++ b1 ++ b2 ++ b3

/-- The byte written to lane i: v[31-8i : 24-8i] (20_memory R58). -/
def laneByte (v : Word) (i : Nat) : Byte := v.extractLsb' (24 - 8 * i) 8

/-- All four lanes of a word, first element first. -/
def lanes (v : Word) : List Byte := [laneByte v 0, laneByte v 1, laneByte v 2, laneByte v 3]

/-- Thirty-two bits, the first at bit 31 (20_memory R60). -/
def wordOfBits (b : Nat → Bool) : Word := (BitVec.ofBoolListBE ((List.range 32).map b)).setWidth 32

/-- The bits of a word, bit 31 first (20_memory R60). -/
def bitsOfWord (v : Word) : Bits := (List.range 32).map (fun r => v.getMsbD r)

/-- Word 0 of a table entry: the symbol (20_memory R55). -/
def FtEntry.symWord (e : FtEntry) : Word := e.sym.setWidth 32

/-- Word 1 of a node slot: VALID 31, LEAF 30, 0 in 29:23, SYM 22:16, LEFT 15:8, RIGHT 7:0 (20_memory R56). -/
def Node.linkWord (nd : Node) : Word :=
  BitVec.ofBool nd.valid ++ BitVec.ofBool nd.leaf ++ 0#7 ++ nd.sym ++ nd.left ++ nd.right

/-- Word q of a code entry: VALID and LEN at q = 0, code bits at 1..4, zero at 5..7 (20_memory R57). -/
def CodeEntry.busWord (e : CodeEntry) (q : Nat) : Word :=
  if q = 0 then BitVec.ofBool e.valid ++ 0#23 ++ e.len
  else if q ≤ 4 then e.code.extractLsb' (128 - 32 * q) 32
  else 0#32

end Sys2Proof.Machine
end

