-- ==== Sys2Proof/Machine/CodeTable.lean ====
section
/-! DEFINITION. The code-table generator (43_code_table R140, R141). -/

namespace Sys2Proof.Machine

/-- visit(i, p) of R140: the leaves below node i with their paths, left edge 0, right edge 1, an absent child skipped. The first argument bounds the depth (log 12). -/
def visit (nodes : Memory Node) : Nat → NodeRef → Bits → Ending (List (Symbol × Bits))
  | 0, _, _ => .stuck .treeTooDeep
  | k + 1, i, p =>
    (fetch .node nodes i.toNat).bind fun nd =>
      if nd.isLeaf then .done [(nd.sym, p)]
      else
        (if nd.left = nilRef then .done [] else visit nodes k nd.left (p ++ [false])).bind fun ls =>
        (if nd.right = nilRef then .done [] else visit nodes k nd.right (p ++ [true])).bind fun rs =>
          .done (ls ++ rs)

/-- The whole tree's leaves from ROOT with the empty path; a path of at most 127 bits (10_state R44). -/
def leafPaths (nodes : Memory Node) (root : NodeRef) : Ending (List (Symbol × Bits)) := visit nodes 128 root []

/-- CT with every entry absent, then one entry for each leaf (R140). -/
def codeTableOf (leaves : List (Symbol × Bits)) : Memory CodeEntry :=
  leaves.foldl (fun ct l => Memory.write ct l.1.toNat (entryOfPath l.2)) (Memory.tabulate 128 fun _ => absentEntry)

/-- CT_GEN's body (R140). -/
def ctGenBody (s : State) : Ending State :=
  if s.treeValid then
    (leafPaths s.nodes s.root).bind fun leaves => .done (s.putCodes (codeTableOf leaves))
  else .raised .noTree (info 0)

/-- CT_GEN (R140). -/
def execCtGen (s : State) : Host.Outcome State Fault Refusal := settle Instr.ctGen.opcode s (ctGenBody s)

end Sys2Proof.Machine
end

