-- ==== Sys2Proof/Machine/Control.lean ====
section
/-! DEFINITION. The control commands (40_control R100 to R102). -/

namespace Sys2Proof.Machine

/-- NOP (R100): nothing. -/
def execNop (s : State) : Host.Outcome State Fault Refusal := .next s

/-- SRESET (R101): every register at its reset value, memories kept. -/
def execSreset (s : State) : Host.Outcome State Fault Refusal := .next s.resetRegisters

/-- CLRERR (R102): the return from an error. -/
def execClrerr (s : State) : Host.Outcome State Fault Refusal := .next s.clearError

end Sys2Proof.Machine
end

