-- ==== Sys2Proof/Machine/Bitstream.lean ====
section
/-! DEFINITION. The bit-stream packer (44_bitstream R150 to R153). -/

namespace Sys2Proof.Machine

/-- PACK's body (R151). -/
def packBody (s : State) : Ending State :=
  if packedLength s.bitLen > s.cfg.byteCap then .raised .byteOverflow (info (packedLength s.bitLen))
  else (fetchRange .bits s.bits s.bitLen).bind fun b => .done (s.putBytes (packBits b))

/-- The unpacked bit string with the checks of R153 in order: only BYTES[0] is read before the marker and length checks (log 22). -/
def unpackedBits (s : State) : Ending Bits :=
  if s.byteLen = 0 then .raised .noMarker (info 0)
  else
    (fetch .bytes s.bytes 0).bind fun first =>
      if first = 0x00#8 then .raised .noMarker (info 0)
      else if unpackedLength s.byteLen first > s.cfg.bitCap then
        .raised .bitOverflow (info (unpackedLength s.byteLen first))
      else
        (fetchRange .bytes s.bytes s.byteLen).bind fun bs =>
          match unpackBytes bs with
          | some b => .done b
          | none => .raised .noMarker (info 0)

/-- UNPACK's body (R153). -/
def unpackBody (s : State) : Ending State := (unpackedBits s).bind fun b => .done (s.putBits b)

/-- PACK (R151). -/
def execPack (s : State) : Host.Outcome State Fault Refusal := settle Instr.pack.opcode s (packBody s)

/-- UNPACK (R153). -/
def execUnpack (s : State) : Host.Outcome State Fault Refusal := settle Instr.unpack.opcode s (unpackBody s)

end Sys2Proof.Machine
end

