-- ==== Sys2Proof/Machine/EncodeDecode.lean ====
section
/-! DEFINITION. The encoder and the decoder (45_encode_decode R170 to R175). -/

namespace Sys2Proof.Machine

/-- EncodeBits from SYM_IN index j on, with left symbols still to encode and out already produced (R170). -/
def encodeFrom (s : State) : Nat → Nat → Bits → Ending Bits
  | 0, _, out => .done out
  | left + 1, j, out =>
    (fetch .symIn s.symIn j).bind fun c =>
      if 0x80#8 ≤ c then .raised .badSymbol (info j)
      else
        (fetch .code s.codes c.toNat).bind fun e =>
          if e.valid then
            if (out ++ e.bits).length > s.cfg.bitCap then .raised .bitOverflow (info j)
            else encodeFrom s left (j + 1) (out ++ e.bits)
          else .raised .noCode (info j)

/-- EncodeBits (R170). -/
def encodeBits (s : State) : Ending Bits := encodeFrom s s.symInLen 0 []

/-- ENC_BITS's body (R171). -/
def encBitsBody (s : State) : Ending State :=
  if s.codesValid then (encodeBits s).bind fun b => .done (s.putBits b)
  else .raised .noCodes (info 0)

/-- ENCODE's body (R174). -/
def encodeBody (s : State) : Ending State :=
  if s.codesValid then
    (encodeBits s).bind fun b =>
      if packedLength b.length > s.cfg.byteCap then .raised .byteOverflow (info (packedLength b.length))
      else .done ((s.putBits b).putBytes (packBits b))
  else .raised .noCodes (info 0)

/-- WalkBits from BITS index j on, with left bits still to consume, at node, out already emitted (R172). -/
def walkFrom (s : State) : Nat → Nat → NodeRef → List Byte → Ending (List Byte × Bool)
  | 0, _, node, out => .done (out, node != s.root)
  | left + 1, j, node, out =>
    (fetch .bits s.bits j).bind fun b =>
    (fetch .node s.nodes node.toNat).bind fun nd =>
      if nd.child b = nilRef then .raised .decodeNil (info j)
      else
        (fetch .node s.nodes (nd.child b).toNat).bind fun cd =>
          if cd.isLeaf then
            if out.length = s.cfg.symCap then .raised .symOverflow (info j)
            else walkFrom s left (j + 1) s.root (out ++ [symByte cd.sym])
          else walkFrom s left (j + 1) (nd.child b) out

/-- WalkBits (R172). -/
def walkBits (s : State) : Ending (List Byte × Bool) := walkFrom s s.bitLen 0 s.root []

/-- DEC_BITS's body (R173). -/
def decBitsBody (s : State) : Ending State :=
  if s.treeValid then (walkBits s).bind fun r => .done (s.putSymbols r.1 r.2)
  else .raised .noTree (info 0)

/-- DECODE's body (R175): the unpack half writes BITS, then the walk runs on them. DESIGN CHOICE: without a tree it raises NO_TREE, as R175 says, though 70_reset R231 lists DECODE among the commands useful right after reset (log 27). -/
def decodeBody (s : State) : Ending State :=
  (unpackedBits s).bind fun b =>
    if s.treeValid then
      (walkBits (s.putBits b)).bind fun r => .done ((s.putBits b).putSymbols r.1 r.2)
    else .raised .noTree (info 0)

/-- ENC_BITS (R171). -/
def execEncBits (s : State) : Host.Outcome State Fault Refusal := settle Instr.encBits.opcode s (encBitsBody s)

/-- DEC_BITS (R173). -/
def execDecBits (s : State) : Host.Outcome State Fault Refusal := settle Instr.decBits.opcode s (decBitsBody s)

/-- ENCODE (R174); ERR.OP is 0x52 whichever half fails. -/
def execEncode (s : State) : Host.Outcome State Fault Refusal := settle Instr.encode.opcode s (encodeBody s)

/-- DECODE (R175); ERR.OP is 0x53 whichever half fails. -/
def execDecode (s : State) : Host.Outcome State Fault Refusal := settle Instr.decode.opcode s (decodeBody s)

end Sys2Proof.Machine
end

