-- ==== Sys2Proof/Machine/FreqTable.lean ====
section
/-! DEFINITION. The Frequency Table commands (41_freq_table R110 to R112). -/

namespace Sys2Proof.Machine

/-- FT_CLEAR (R111). -/
def execFtClear (s : State) : Host.Outcome State Fault Refusal := .next s.clearTable

/-- The checks of R112 that read the table, in order, then the append. -/
def appendChecked (s : State) (e : FtEntry) (table : List FtEntry) : Ending State :=
  match indexOfSymbol e.sym table with
  | some i => .raised .ftDupSymbol (info i)
  | none =>
    if (table.getLast?.any fun l => decide (e.weight < l.weight)) then .raised .ftUnsorted (info s.ftN)
    else if totalWeight table + e.weight.toNat > 0xFFFFFFFF then .raised .ftTotalOverflow (info s.ftN)
    else .done (s.appendEntry e)

/-- FT_APPEND's body (R112): the first failing check is the one reported (60_exceptions R206). -/
def ftAppendBody (sym : Nat) (s : State) : Ending State :=
  if s.ftN = 128 then .raised .ftFull (info 128)
  else if s.arg = 0#32 then .raised .ftZeroWeight (info s.ftN)
  else (fetchTable s).bind (appendChecked s ⟨symOperand sym, s.arg⟩)

/-- FT_APPEND sym (R112). -/
def execFtAppend (sym : Nat) (s : State) : Host.Outcome State Fault Refusal :=
  settle (Instr.ftAppend sym).opcode s (ftAppendBody sym s)

end Sys2Proof.Machine
end

