-- ==== Sys2Proof/Machine/Flags.lean ====
section
/-! DEFINITION. The status and count registers that are computed: STATUS, ERR, FT_TOTAL, the queue lengths, the error gate (10_state R20 to R36, 42_tree_builder R120, 60_exceptions R205). -/

namespace Sys2Proof.Machine

/-- ID (10_state R20). -/
def idWord : Word := 0x48554631#32

/-- The STATUS layout: BUSY 0, ERR 1, TREE_VALID 2, CODES_VALID 3, DEC_PARTIAL 4, 31:5 zero (10_state R23). -/
def statusOf (decPartial codesValid treeValid err busy : Bool) : Word :=
  0#27 ++ BitVec.ofBool decPartial ++ BitVec.ofBool codesValid ++ BitVec.ofBool treeValid ++
    BitVec.ofBool err ++ BitVec.ofBool busy

/-- STATUS.ERR: 1 when ERR.CODE ≠ 0 (10_state R23, R25). -/
def State.errFlag (s : State) : Bool := s.errCode != 0#8

/-- STATUS as a read returns it when BUSY = 0 has been reached (10_state R23). -/
def State.statusWord (s : State) : Word :=
  statusOf s.decPartial s.codesValid s.treeValid s.errFlag s.busy

/-- STATUS as a read returns it while BUSY = 1: bits 4:1 are free (70_reset R241; log 4). -/
def State.busyStatusWord (s : State) : Word := 0#27 ++ Config.statusBits s.draws ++ 1#1

/-- ERR: CODE in 7:0, OP in 15:8 (10_state R25). -/
def State.errWord (s : State) : Word := 0#16 ++ s.errOp ++ s.errCode

/-- TB_STATE's encoding (10_state R29). -/
def TbState.code : TbState → Word
  | .idle    => 0#32
  | .running => 1#32
  | .done    => 2#32

/-- The table FT[0..FT_N-1] (10_state R42). -/
def State.table (s : State) : List FtEntry := (List.range s.ftN).filterMap (Memory.read s.ft)

/-- FT_TOTAL: the sum of the weights of FT[0..FT_N-1] (10_state R28). -/
def State.ftTotal (s : State) : Nat := totalWeight s.table

/-- srcLen() (42_tree_builder R120). -/
def State.srcLen (s : State) : Nat := s.ftN - s.srcHead

/-- tgtLen() (42_tree_builder R120). -/
def State.tgtLen (s : State) : Nat := s.nodeN - s.tgtHead

/-- The opcodes the gate lets through: NOP, SRESET and CLRERR (60_exceptions R205). -/
def ungated (op : BitVec 8) : Bool := op == 0x00#8 || op == 0x01#8 || op == 0x02#8

/-- The gate of 60_exceptions R205: an error is recorded and the opcode is not one of the three. -/
def State.gated (s : State) (op : BitVec 8) : Bool := s.errFlag && !ungated op

end Sys2Proof.Machine
end

