-- ==== Sys2Proof/Machine/TreeBuilder.lean ====
section
/-! DEFINITION. The tree builder: the two-queue merge (42_tree_builder R120 to R124). -/

namespace Sys2Proof.Machine

/-- A cleared node slot (R122). -/
def blankNode : Node := ⟨false, false, 0#7, 0#32, 0#8, 0#8⟩

/-- The leaf of a table entry (R122 step 1). -/
def leafNode (e : FtEntry) : Node := ⟨true, true, e.sym, e.weight, nilRef, nilRef⟩

/-- The root of a single-symbol tree: LEFT = 0, RIGHT = NIL (R122 step 2). -/
def wrapperNode (weight : Word) : Node := ⟨true, false, 0#7, weight, 0#8, nilRef⟩

/-- An internal node over the first- and second-extracted nodes (R123; log 14). -/
def mergedNode (a b : Nat) (wa wb : Word) : Node := ⟨true, false, 0#7, wa + wb, nodeRef a, nodeRef b⟩

/-- Node memory after TB_INIT's two loops: the leaves in table order, every other slot cleared (R122). -/
def initialNodes (table : List FtEntry) : Memory Node :=
  Memory.tabulate 255 fun i => ((table[i]?).map leafNode).getD blankNode

/-- TB_INIT from a non-empty table (R122 steps 1 and 2). -/
def State.startBuild (s : State) (first : FtEntry) (rest : List FtEntry) : State :=
  if s.ftN = 1 then s.startSingle (Memory.write (initialNodes (first :: rest)) 1 (wrapperNode first.weight))
  else s.startQueues (initialNodes (first :: rest))

/-- TB_INIT's body (R122). -/
def tbInitBody (s : State) : Ending State :=
  (fetchTable s).bind fun table =>
    match table with
    | [] => .raised .emptyAlphabet (info 0)
    | first :: rest => .done (s.startBuild first rest)

/-- Whether extract() takes from the source queue: source wins ties, the other queue serves when one is empty (R121). -/
def takesSource (s : State) : Ending Bool :=
  if s.srcLen = 0 then .done false
  else if s.tgtLen = 0 then .done true
  else
    (fetch .node s.nodes s.srcHead).bind fun a =>
    (fetch .node s.nodes s.tgtHead).bind fun b => .done (decide (a.weight ≤ b.weight))

/-- extract() (R121): the index of the lighter front, and the queues without it. -/
def extract (s : State) : Ending (Nat × State) :=
  (takesSource s).bind fun fromSource =>
    if fromSource then .done (s.srcHead, s.moveHeads (s.srcHead + 1) s.tgtHead)
    else .done (s.tgtHead, s.moveHeads s.srcHead (s.tgtHead + 1))

/-- R123's last lines: when source is empty and target holds one node, that node is the root. -/
def State.finishIfLast (s : State) : State :=
  if s.srcLen = 0 ∧ s.tgtLen = 1 then s.finishBuild else s

/-- NODE[NODE_N] <- nd, enqueued, and the finish test (R123); node memory has slots 0 to 254 (log 12). -/
def State.addMerged (s : State) (nd : Node) : Ending State :=
  if s.nodeN ≤ 254 then .done (s.enqueue nd).finishIfLast else .stuck (.noSuchNode s.nodeN)

/-- One merge (R123). -/
def mergeOnce (s : State) : Ending State :=
  (extract s).bind fun x =>
  (extract x.2).bind fun y =>
  (fetch .node y.2.nodes x.1).bind fun na =>
  (fetch .node y.2.nodes y.1).bind fun nb =>
    y.2.addMerged (mergedNode x.1 y.1 na.weight nb.weight)

/-- TB_STEP's body (R123). -/
def tbStepBody (s : State) : Ending State :=
  if s.tbState = .running then mergeOnce s else .raised .tbNotRunning s.tbState.code

/-- "while TB_STATE = RUNNING: TB_STEP body" (R124), at most k times; R127 bounds the loop by FT_N - 1 (log 12). -/
def buildLoop : Nat → State → Ending State
  | 0, s => if s.tbState = .running then .stuck .buildUnfinished else .done s
  | k + 1, s => if s.tbState = .running then (tbStepBody s).bind (buildLoop k) else .done s

/-- TB_BUILD's body (R124). -/
def tbBuildBody (s : State) : Ending State := (tbInitBody s).bind (buildLoop s.ftN)

/-- TB_INIT (R122). -/
def execTbInit (s : State) : Host.Outcome State Fault Refusal := settle Instr.tbInit.opcode s (tbInitBody s)

/-- TB_STEP (R123). -/
def execTbStep (s : State) : Host.Outcome State Fault Refusal := settle Instr.tbStep.opcode s (tbStepBody s)

/-- TB_BUILD (R124). -/
def execTbBuild (s : State) : Host.Outcome State Fault Refusal := settle Instr.tbBuild.opcode s (tbBuildBody s)

end Sys2Proof.Machine
end

