-- ==== Sys2Proof/Machine/Dispatch.lean ====
section
/-! DEFINITION. One arm per command (30_encoding R84). -/

namespace Sys2Proof.Machine

def exec (i : Instr) (s : State) : Host.Outcome State Fault Refusal :=
  match i with
  | .nop => Sys2Proof.Machine.execNop s
  | .sreset => Sys2Proof.Machine.execSreset s
  | .clrerr => Sys2Proof.Machine.execClrerr s
  | .ftClear => Sys2Proof.Machine.execFtClear s
  | .ftAppend sym => Sys2Proof.Machine.execFtAppend sym s
  | .tbInit => Sys2Proof.Machine.execTbInit s
  | .tbStep => Sys2Proof.Machine.execTbStep s
  | .tbBuild => Sys2Proof.Machine.execTbBuild s
  | .ctGen => Sys2Proof.Machine.execCtGen s
  | .pack => Sys2Proof.Machine.execPack s
  | .unpack => Sys2Proof.Machine.execUnpack s
  | .encBits => Sys2Proof.Machine.execEncBits s
  | .decBits => Sys2Proof.Machine.execDecBits s
  | .encode => Sys2Proof.Machine.execEncode s
  | .decode => Sys2Proof.Machine.execDecode s

end Sys2Proof.Machine
end

