-- ==== Sys2Proof/Machine/Bus.lean ====
section
/-! DEFINITION. The host bus: address map, reads, writes, command issue, the BUSY protocol (20_memory R50 to R71, 30_encoding R87, 70_reset R240, R241). -/

namespace Sys2Proof.Machine

/-- The registers of the map, in offset order (20_memory R53). -/
inductive Reg where
  | id
  | cmd
  | arg
  | status
  | err
  | errInfo
  | ftN
  | ftTotal
  | tbState
  | tbSrcHead
  | tbTgtHead
  | nodeN
  | root
  | symInLen
  | symOutLen
  | bitLen
  | byteLen
  | capSym
  | capBit
  | capByte
  deriving DecidableEq, Repr

/-- What a mapped offset names (20_memory R53, R55 to R61). For a window: the entry and the word in it, or the word index. -/
inductive Location where
  | reg (r : Reg)
  | ftWord (i q : Nat)
  | nodeWord (i q : Nat)
  | codeWord (sym q : Nat)
  | symIn (k : Nat)
  | symOut (k : Nat)
  | bits (k : Nat)
  | bytes (k : Nat)
  deriving DecidableEq, Repr

/-- The offset column of the register map (20_memory R53). -/
def Reg.offset : Reg → Nat
  | .id        => 0x000
  | .cmd       => 0x004
  | .arg       => 0x008
  | .status    => 0x00C
  | .err       => 0x010
  | .errInfo   => 0x014
  | .ftN       => 0x018
  | .ftTotal   => 0x01C
  | .tbState   => 0x020
  | .tbSrcHead => 0x024
  | .tbTgtHead => 0x028
  | .nodeN     => 0x02C
  | .root      => 0x030
  | .symInLen  => 0x034
  | .symOutLen => 0x038
  | .bitLen    => 0x03C
  | .byteLen   => 0x040
  | .capSym    => 0x044
  | .capBit    => 0x048
  | .capByte   => 0x04C

/-- All registers. -/
def allRegs : List Reg :=
  [.id, .cmd, .arg, .status, .err, .errInfo, .ftN, .ftTotal, .tbState, .tbSrcHead, .tbTgtHead, .nodeN, .root,
   .symInLen, .symOutLen, .bitLen, .byteLen, .capSym, .capBit, .capByte]

/-- The register at an offset, if any (20_memory R53). -/
def regAt (a : Nat) : Option Reg := allRegs.find? (fun r => r.offset == a)

/-- The address map for an offset that is a multiple of 4 (20_memory R53, R55 to R61); none is unmapped. -/
def locate (p : Params) (a : Nat) : Option Location :=
  if a < 0x1000 then (regAt a).map .reg
  else if a < 0x1400 then some (.ftWord ((a - 0x1000) / 8) ((a - 0x1000) / 4 % 2))
  else if a < 0x2000 then none
  else if a < 0x2800 then some (.nodeWord ((a - 0x2000) / 8) ((a - 0x2000) / 4 % 2))
  else if a < 0x3000 then none
  else if a < 0x4000 then some (.codeWord ((a - 0x3000) / 32) ((a - 0x3000) / 4 % 8))
  else if a < 0x10000 then none
  else if a < 0x20000 then if a - 0x10000 < p.symCap then some (.symIn ((a - 0x10000) / 4)) else none
  else if a < 0x30000 then if a - 0x20000 < p.symCap then some (.symOut ((a - 0x20000) / 4)) else none
  else if a < 0x40000 then if a - 0x30000 < p.bitCap / 8 then some (.bits ((a - 0x30000) / 4)) else none
  else if a < 0x50000 then if a - 0x40000 < p.byteCap then some (.bytes ((a - 0x40000) / 4)) else none
  else none

/-- The offset of a bus byte address, if it reaches the block (20_memory R50). -/
def offsetOf (p : Params) (addr : Nat) : Option Nat :=
  if p.base ≤ addr ∧ addr - p.base < 0x100000 then some (addr - p.base) else none

/-- A whole aligned word (20_memory R51). -/
def wordAligned (offset size : Nat) : Bool := size == 4 && offset % 4 == 0

/-! ## Reads -/

/-- A register's value, zero-extended (20_memory R53); CMD is write-only (10_state R21). -/
def State.readReg (s : State) : Reg → Option Word
  | .id        => some idWord
  | .cmd       => none
  | .arg       => some s.arg
  | .status    => some s.statusWord
  | .err       => some s.errWord
  | .errInfo   => some s.errInfo
  | .ftN       => some (BitVec.ofNat 32 s.ftN)
  | .ftTotal   => some (BitVec.ofNat 32 s.ftTotal)
  | .tbState   => some s.tbState.code
  | .tbSrcHead => some (BitVec.ofNat 32 s.srcHead)
  | .tbTgtHead => some (BitVec.ofNat 32 s.tgtHead)
  | .nodeN     => some (BitVec.ofNat 32 s.nodeN)
  | .root      => some (s.root.setWidth 32)
  | .symInLen  => some (BitVec.ofNat 32 s.symInLen)
  | .symOutLen => some (BitVec.ofNat 32 s.symOutLen)
  | .bitLen    => some (BitVec.ofNat 32 s.bitLen)
  | .byteLen   => some (BitVec.ofNat 32 s.byteLen)
  | .capSym    => some (BitVec.ofNat 32 s.cfg.symCap)
  | .capBit    => some (BitVec.ofNat 32 s.cfg.bitCap)
  | .capByte   => some (BitVec.ofNat 32 s.cfg.byteCap)

/-- An unspecified node's fields (20_memory R71; log 6). -/
def freeNode (draw : Nat) : Node :=
  ⟨Config.freeBit draw 0, Config.freeBit draw 1, Config.freeSymbol draw, Config.freeWord draw,
   Config.freeByte draw 0, Config.freeByte draw 1⟩

/-- An unspecified code entry's fields (20_memory R71; log 6). -/
def freeCodeEntry (draw : Nat) : CodeEntry := ⟨Config.freeBit draw 0, Config.freeByte draw 0, Config.freeCode draw⟩

/-- A table entry that no run leaves unwritten below FT_N (log 8). -/
def freeFtEntry (draw : Nat) : FtEntry := ⟨Config.freeSymbol draw, Config.freeWord draw⟩

/-- Lane i of word k of a byte buffer; a never-written element is free (20_memory R71). -/
def State.byteLane (s : State) (m : Memory Byte) (k i : Nat) : Byte :=
  (Memory.read m (4 * k + i)).getD (Config.freeByte s.draws i)

/-- Word k of a byte buffer (20_memory R58, R59, R61). -/
def State.readByteWord (s : State) (m : Memory Byte) (k : Nat) : Word :=
  wordOfBytes (s.byteLane m k 0) (s.byteLane m k 1) (s.byteLane m k 2) (s.byteLane m k 3)

/-- Word k of BITS (20_memory R60). -/
def State.readBitWord (s : State) (k : Nat) : Word :=
  wordOfBits fun r => (Memory.read s.bits (32 * k + r)).getD (Config.freeBit s.draws r)

/-- The FT window (20_memory R55). -/
def State.readFtWord (s : State) (i q : Nat) : Word :=
  if i < s.ftN then
    let e := (Memory.read s.ft i).getD (freeFtEntry s.draws)
    if q = 0 then e.symWord else e.weight
  else 0#32

/-- The NODE window; slot 255 reads 0 (20_memory R56). -/
def State.readNodeWord (s : State) (i q : Nat) : Word :=
  if i ≤ 254 then
    let nd := (Memory.read s.nodes i).getD (freeNode s.draws)
    if q = 0 then nd.weight else nd.linkWord
  else 0#32

/-- The CT window (20_memory R57). -/
def State.readCodeWord (s : State) (sym q : Nat) : Word :=
  ((Memory.read s.codes sym).getD (freeCodeEntry s.draws)).busWord q

/-- The value a read of a location returns; none is BUSERR (20_memory R52, R53). -/
def State.readLocation (s : State) : Location → Option Word
  | .reg r          => s.readReg r
  | .ftWord i q     => some (s.readFtWord i q)
  | .nodeWord i q   => some (s.readNodeWord i q)
  | .codeWord sym q => some (s.readCodeWord sym q)
  | .symIn k        => some (s.readByteWord s.symIn k)
  | .symOut k       => some (s.readByteWord s.symOut k)
  | .bits k         => some (s.readBitWord k)
  | .bytes k        => some (s.readByteWord s.bytes k)

/-- A read answered OK. -/
def readOk (v : Word) : BusResponse := ⟨.ok, some v⟩

/-- A read answered BUSERR returns 0 (20_memory R52). -/
def readErr : BusResponse := ⟨.busErr, some 0#32⟩

/-- A write answered OK. -/
def writeOk : BusResponse := ⟨.ok, none⟩

/-- A write answered BUSERR (20_memory R52). -/
def writeErr : BusResponse := ⟨.busErr, none⟩

/-- An access that reaches no part of the block (20_memory R50; log 9). -/
def notHere : BusResponse := ⟨.elsewhere, none⟩

/-- The response to a read when BUSY = 0 (20_memory R50 to R53). -/
def State.readResponse (s : State) (addr size : Nat) : BusResponse :=
  match offsetOf s.cfg addr with
  | none => notHere
  | some a =>
    if wordAligned a size then
      match (locate s.cfg a).bind s.readLocation with
      | some v => readOk v
      | none => readErr
    else readErr

/-! ## Writes -/

/-- A length register stores v when it is in range (20_memory R54). -/
def State.writeReg (s : State) (v : Word) : Reg → Option State
  | .arg      => some (s.setArg v)
  | .symInLen => if v.toNat ≤ s.cfg.symCap then some (s.setSymInLen v.toNat) else none
  | .bitLen   => if v.toNat ≤ s.cfg.bitCap then some (s.setBitLen v.toNat) else none
  | .byteLen  => if v.toNat ≤ s.cfg.byteCap then some (s.setByteLen v.toNat) else none
  | .id | .cmd | .status | .err | .errInfo | .ftN | .ftTotal | .tbState | .tbSrcHead | .tbTgtHead | .nodeN
  | .root | .symOutLen | .capSym | .capBit | .capByte => none

/-- The state after a write to a location other than CMD; none is BUSERR (20_memory R52, R58, R60, R61). -/
def State.writeLocation (s : State) (v : Word) : Location → Option State
  | .reg r   => s.writeReg v r
  | .symIn k => some (s.setSymIn (Memory.writeList s.symIn (4 * k) (lanes v)))
  | .bits k  => some (s.setBits (Memory.writeList s.bits (32 * k) (bitsOfWord v)))
  | .bytes k => some (s.setBytes (Memory.writeList s.bytes (4 * k) (lanes v)))
  | .ftWord _ _ | .nodeWord _ _ | .codeWord _ _ | .symOut _ => none

/-- Command issue (30_encoding R87): BUSY rises, the gate, the legality check, then the command. -/
def issue (w : Word) (s : State) : Host.Outcome State Fault Refusal :=
  if s.gated (opcodeField w) then .next s.beginCommand
  else
    match decode w with
    | .error _ => .next (s.beginCommand.raiseError .illegalCmd (opcodeField w) w)
    | .ok i => exec i s.beginCommand

/-- A write at an aligned offset when BUSY = 0 (20_memory R52, 10_state R21). -/
def writeAt (s : State) (a : Nat) (v : Word) : Host.Outcome State Fault Refusal :=
  match locate s.cfg a with
  | some (.reg .cmd) => issue v (s.respond writeOk)
  | some l =>
    match s.writeLocation v l with
    | some t => .next (t.respond writeOk)
    | none => .next (s.respond writeErr)
  | none => .next (s.respond writeErr)

/-- A write when BUSY = 0 (20_memory R50 to R52). -/
def busWrite (s : State) (addr size : Nat) (v : Word) : Host.Outcome State Fault Refusal :=
  match offsetOf s.cfg addr with
  | none => .next (s.respond notHere)
  | some a => if wordAligned a size then writeAt s a v else .next (s.respond writeErr)

/-! ## The BUSY protocol -/

/-- The bus address of a register. -/
def regAddr (p : Params) (r : Reg) : Nat := p.base + r.offset

/-- A read of STATUS (70_reset R240, R241): while the command runs it returns BUSY = 1; the first read that finds it finished returns BUSY = 0 (log 3). -/
def State.readStatus (s : State) : State :=
  if s.busy then
    if s.busyPolls = 0 then s.endBusy.respond (readOk s.endBusy.statusWord)
    else s.countPoll.respond (readOk s.busyStatusWord)
  else s.respond (readOk s.statusWord)

/-- A host read. While BUSY = 1 only a STATUS read is allowed; anything else is a fault (70_reset R240, R241, 93 I2; log 10). -/
def hostRead (s : State) (addr size : Nat) : Host.Outcome State Fault Refusal :=
  if s.busy then
    if addr = regAddr s.cfg .status ∧ size = 4 then .next s.readStatus else .fault .busyAccess
  else .next (s.respond (s.readResponse addr size))

/-- A host write. While BUSY = 1 it is a fault (70_reset R241). -/
def hostWrite (s : State) (addr size : Nat) (v : Word) : Host.Outcome State Fault Refusal :=
  if s.busy then .fault .busyAccess else busWrite s addr size v

/-- POLL (30_encoding R90): one STATUS read; again if it returned BUSY = 1 (log 24). -/
def hostPoll (s : State) : State :=
  if s.readStatus.busy then s.readStatus.requeue .poll else s.readStatus

/-- One host action (00_scope R8). -/
def act (s : State) : HostAction → Host.Outcome State Fault Refusal
  | .read addr size    => hostRead s addr size
  | .write addr size v => hostWrite s addr size v
  | .poll              => .next (hostPoll s)
  | .hwReset           => .next s.hardwareReset

end Sys2Proof.Machine
end

