-- ==== Sys2Proof/Machine/Step.lean ====
section
/-! DEFINITION. One step: the host's next action (00_scope R8, R9). -/

namespace Sys2Proof.Machine

/-- The host's next action; with none left the block is idle and keeps all state (60_exceptions R217, 70_reset R233; log 11). -/
def step (s : State) : Host.Outcome State Fault Refusal :=
  match s.pending with
  | [] => .next s
  | a :: rest => act (s.takeAction rest) a

/-- s with a write of the command word to CMD as the host's next action, and no earlier command still running (log 1). -/
def State.withFetchWord (s : State) (nbits w : Nat) : State :=
  { s with pending := .write (regAddr s.cfg .cmd) 4 (BitVec.ofNat 32 (w % 2 ^ nbits)) :: s.pending, busy := false }

end Sys2Proof.Machine
end

