-- ==== Sys2Proof/Machine/HostNotation.lean ====
section
/-! DEFINITION. Host programs: the notation of 30_encoding R90, the reference analyzer of 41_freq_table R115, the job sequences of 70_reset R235 and R236. -/

namespace Sys2Proof.Machine

/-- The windows of the address map (20_memory R53). -/
inductive Window where
  | ft
  | node
  | code
  | symIn
  | symOut
  | bits
  | bytes
  deriving DecidableEq, Repr

/-- A window's first offset (20_memory R53). -/
def Window.offset : Window → Nat
  | .ft     => 0x01000
  | .node   => 0x02000
  | .code   => 0x03000
  | .symIn  => 0x10000
  | .symOut => 0x20000
  | .bits   => 0x30000
  | .bytes  => 0x40000

/-- A line of a host program (30_encoding R90). -/
inductive HostStmt where
  | wr (r : Reg) (v : Word)
  | wrWindow (w : Window) (off : Nat) (v : Word)
  | rd (r : Reg)
  | rdWindow (w : Window) (off : Nat)
  | poll
  | exec (i : Instr)
  | append (sym : Nat) (weight : Word)
  | check
  deriving DecidableEq, Repr

/-- BusRead of a word (00_scope R12). -/
def readAction (p : Params) (off : Nat) : HostAction := .read (p.base + off) 4

/-- BusWrite of a word (00_scope R12). -/
def writeAction (p : Params) (off : Nat) (v : Word) : HostAction := .write (p.base + off) 4 v

/-- EXEC: the CMD write and the poll (30_encoding R90). -/
def execActions (p : Params) (i : Instr) : List HostAction := [writeAction p Reg.cmd.offset (encode i), .poll]

/-- The expansions of 30_encoding R90. -/
def HostStmt.expand (p : Params) : HostStmt → List HostAction
  | .wr r v             => [writeAction p r.offset v]
  | .wrWindow w off v   => [writeAction p (w.offset + off) v]
  | .rd r               => [readAction p r.offset]
  | .rdWindow w off     => [readAction p (w.offset + off)]
  | .poll               => [.poll]
  | .exec i             => execActions p i
  | .append sym weight  => writeAction p Reg.arg.offset weight :: execActions p (.ftAppend sym)
  | .check              => [readAction p Reg.err.offset]

/-- A straight-line host program as the actions it performs. -/
def hostProgram (p : Params) (prog : List HostStmt) : List HostAction := prog.flatMap (HostStmt.expand p)

/-- The reference analyzer: each symbol that occurs with its count, by count and then by symbol (41_freq_table R115). -/
def freqTable (text : List Symbol) : List (Symbol × Nat) :=
  List.insertionSort (fun x y => x.2 ≤ y.2)
    (((List.range 128).map fun c => (symOperand c, text.count (symOperand c))).filter fun x => 0 < x.2)

/-- One APPEND per table entry, in order (70_reset R235 step 2). -/
def appendAll (table : List (Symbol × Nat)) : List HostStmt :=
  table.map fun x => .append x.1.toNat (BitVec.ofNat 32 x.2)

/-- Four bytes to a word, first at bits 31:24; a last word is filled with zeros (70_reset R235 step 5). -/
def wordsOfBytes : List Byte → List Word
  | b0 :: b1 :: b2 :: b3 :: rest => wordOfBytes b0 b1 b2 b3 :: wordsOfBytes rest
  | [b0, b1, b2] => [wordOfBytes b0 b1 b2 0#8]
  | [b0, b1] => [wordOfBytes b0 b1 0#8 0#8]
  | [b0] => [wordOfBytes b0 0#8 0#8 0#8]
  | [] => []

/-- Writes of consecutive words of a window. -/
def fillWindow (w : Window) (bs : List Byte) : List HostStmt :=
  (wordsOfBytes bs).zipIdx.map fun x => .wrWindow w (4 * x.2) x.1

/-- Reads of the words that hold the first n elements of a byte buffer. -/
def readWindow (w : Window) (n : Nat) : List HostStmt := (List.range ((n + 3) / 4)).map fun k => .rdWindow w (4 * k)

/-- The value the host's latest read returned. -/
def latestValue (seen : List BusResponse) : Nat := ((seen.head?.bind BusResponse.data).map BitVec.toNat).getD 0

/-- The n bytes that the latest reads of a byte buffer returned, byte 4k at bits 31:24 of word k (20_memory R58, R61). -/
def bytesRead (n : Nat) (seen : List BusResponse) : List Byte :=
  (((seen.take ((n + 3) / 4)).reverse.map fun r => r.data.getD 0#32).flatMap lanes).take n

/-- A step of a job done by one command, or by the commands it is made of. -/
inductive Route where
  | whole
  | parts
  deriving DecidableEq, Repr

/-- 70_reset R235 step 3 for a table of n entries: TB_BUILD, or TB_INIT and TB_STEPs until TB_STATE reads 2, which the (n-1)-th makes it (42_tree_builder R127; log 26). -/
def buildTree (n : Nat) : Route → List HostStmt
  | .whole => [.exec .tbBuild]
  | .parts => [.exec .tbInit, .rd .tbState] ++ (List.replicate (n - 1) [.exec .tbStep, .rd .tbState]).flatten

/-- 70_reset R235 step 6. -/
def encodeText : Route → List HostStmt
  | .whole => [.exec .encode]
  | .parts => [.exec .encBits, .exec .pack]

/-- 70_reset R236 step 3. -/
def decodeBytes : Route → List HostStmt
  | .whole => [.exec .decode]
  | .parts => [.exec .unpack, .exec .decBits]

/-- The compression job up to its read of BYTE_LEN (70_reset R235 steps 2 to 7). The table is any the host computed in step 1, for example freqTable text. Every EXEC's poll ends with a STATUS read that shows STATUS.ERR. -/
def compressionJob (build enc : Route) (table : List (Symbol × Nat)) (text : List Symbol) : List HostStmt :=
  .exec .ftClear :: appendAll table ++ buildTree table.length build ++ [.exec .ctGen] ++
    fillWindow .symIn (text.map symByte) ++ [.wr .symInLen (BitVec.ofNat 32 text.length)] ++ encodeText enc ++
    [.check, .rd .byteLen]

/-- What the host does next: it has just read BYTE_LEN and reads that many bytes (70_reset R235 step 7; log 26). -/
def compressionReadback (seen : List BusResponse) : List HostStmt := readWindow .bytes (latestValue seen)

/-- Where the decompression job's tree comes from (70_reset R236 step 1): the one on the instance, with TREE_VALID = 1, or the same table loaded again. -/
inductive TreeSource where
  | kept
  | rebuilt (table : List (Symbol × Nat))
  deriving DecidableEq, Repr

/-- 70_reset R236 step 1, 45_encode_decode R177. -/
def setUpTree : TreeSource → List HostStmt
  | .kept => []
  | .rebuilt table => .exec .ftClear :: appendAll table ++ [.exec .tbBuild]

/-- The decompression job up to its read of SYM_OUT_LEN (70_reset R236). -/
def decompressionJob (tree : TreeSource) (dec : Route) (file : List Byte) : List HostStmt :=
  setUpTree tree ++ fillWindow .bytes file ++ [.wr .byteLen (BitVec.ofNat 32 file.length)] ++ decodeBytes dec ++
    [.check, .rd .symOutLen]

/-- What the host does next: it has just read SYM_OUT_LEN, reads that many symbols, and STATUS for DEC_PARTIAL (70_reset R236 step 4; log 26). -/
def decompressionReadback (seen : List BusResponse) : List HostStmt :=
  readWindow .symOut (latestValue seen) ++ [.rd .status]

end Sys2Proof.Machine
end

