-- ==== Sys2Proof/Safety.lean ====
section
/-! DEFINITION. What the spec says of every reachable state (10_state R48, 41_freq_table R113, 42_tree_builder R125 to R129), in the terms the statements use. -/

namespace Sys2Proof.Machine

/-! ## The Frequency Table -/

/-- What an accepted Frequency Table satisfies (41_freq_table R113). -/
abbrev Conforming (table : List FtEntry) : Prop :=
  (∀ e ∈ table, e.weight ≠ 0#32) ∧
  table.Pairwise (fun x y => x.weight ≤ y.weight) ∧
  (table.map FtEntry.sym).Nodup ∧
  totalWeight table ≤ 0xFFFFFFFF

/-- FT[0..FT_N-1] holds the given table. -/
abbrev TableHeld (s : State) (table : List FtEntry) : Prop := Memory.readRange s.ft 0 s.ftN = .ok table

/-- FT[0..FT_N-1] is written and conforms (41_freq_table R113). -/
abbrev TableForm (s : State) : Prop := TableHeld s s.table ∧ Conforming s.table

/-! ## Memories and length registers -/

/-- Every memory is in canonical form and within its size (10_state R42 to R47). -/
abbrev MemoryForm (s : State) : Prop :=
  (Memory.wf s.ft ∧ Memory.below 128 s.ft) ∧
  (Memory.wf s.nodes ∧ Memory.below 255 s.nodes) ∧
  (Memory.wf s.codes ∧ Memory.below 128 s.codes) ∧
  (Memory.wf s.symIn ∧ Memory.below s.cfg.symCap s.symIn) ∧
  (Memory.wf s.symOut ∧ Memory.below s.cfg.symCap s.symOut) ∧
  (Memory.wf s.bits ∧ Memory.below s.cfg.bitCap s.bits) ∧
  (Memory.wf s.bytes ∧ Memory.below s.cfg.byteCap s.bytes)

/-- The ranges of the count and length registers (10_state R27, R37 to R40). -/
abbrev LengthForm (s : State) : Prop :=
  s.ftN ≤ 128 ∧ s.symInLen ≤ s.cfg.symCap ∧ s.symOutLen ≤ s.cfg.symCap ∧
  s.bitLen ≤ s.cfg.bitCap ∧ s.byteLen ≤ s.cfg.byteCap

/-- ERR.CODE = 0 exactly when ERR.OP = 0 and ERR_INFO = 0 (10_state R48); codes above 0x11 are never written (60_exceptions R201). -/
abbrev ErrorForm (s : State) : Prop :=
  (s.errCode = 0#8 ↔ s.errOp = 0#8 ∧ s.errInfo = 0#32) ∧ s.errCode.toNat ≤ 0x11

/-! ## The tree builder -/

/-- The builder's registers (10_state R33 to R35, R48). The balance clause says that each merge takes two nodes and makes one (42_tree_builder R127). -/
abbrev BuilderForm (s : State) : Prop :=
  s.srcHead ≤ s.ftN ∧
  (s.tbState = .idle → s.srcHead = 0 ∧ s.tgtHead = 0 ∧ s.nodeN = 0 ∧ s.root = nilRef) ∧
  (s.tbState ≠ .idle → 1 ≤ s.ftN ∧ s.ftN ≤ s.tgtHead ∧ s.tgtHead ≤ s.nodeN ∧
    (2 ≤ s.ftN → s.nodeN ≤ 2 * s.ftN - 1) ∧ (s.ftN = 1 → s.nodeN = 2)) ∧
  (s.tbState = .running → 2 ≤ s.srcLen + s.tgtLen ∧ s.root = nilRef ∧
    s.srcHead + s.tgtHead + s.ftN = 2 * s.nodeN) ∧
  (s.tbState = .done → s.srcHead = s.ftN ∧ s.tgtHead = s.nodeN ∧ s.root = nodeRef (s.nodeN - 1) ∧
    (2 ≤ s.ftN → s.nodeN = 2 * s.ftN - 1)) ∧
  (s.treeValid = true ↔ s.tbState = .done) ∧
  (s.codesValid = true → s.treeValid = true)

/-- A node's weight as a number; 0 for a slot never written. -/
def State.nodeWeight (s : State) (i : Nat) : Nat := ((Memory.read s.nodes i).map fun nd => nd.weight.toNat).getD 0

/-- The node indices in the two queues, source first (42_tree_builder R120). -/
def State.queued (s : State) : List Nat := List.range' s.srcHead s.srcLen ++ List.range' s.tgtHead s.tgtLen

/-- How many internal nodes have been extracted and given a parent; the root is dequeued without one (42_tree_builder R123). -/
def State.adoptedInternal (s : State) : Nat := (if s.tbState = .done then s.nodeN - 1 else s.tgtHead) - s.ftN

/-- The children an internal node names, NIL left out. -/
def Node.children (nd : Node) : List Nat := ([nd.left, nd.right].filter fun r => r != nilRef).map BitVec.toNat

/-- The children of all internal nodes, in merge order. -/
def State.childIndices (s : State) : List Nat :=
  (List.range' s.ftN (s.nodeN - s.ftN)).flatMap fun i => ((Memory.read s.nodes i).map Node.children).getD []

/-- An internal node as the builder makes it: children made before it, its weight their exact sum, two children unless the table has one entry (10_state R43, 42_tree_builder R125, R126, R129). -/
def State.internalAt (s : State) (i : Nat) : Bool :=
  (Memory.read s.nodes i).any fun nd =>
    nd.valid && !nd.leaf && nd.sym == 0#7 && decide (nd.left.toNat < i) &&
    (if s.ftN = 1 then nd.right == nilRef else decide (nd.right.toNat < i)) &&
    nd.weight.toNat == (nd.children.map s.nodeWeight).sum

/-- Node memory during and after a build: the leaves in table order, then the internal nodes, then cleared slots; every extracted node has exactly one parent, and each queue gave its nodes out in FIFO order (42_tree_builder R120, R122, R123, R125). -/
abbrev TreeForm (s : State) : Prop :=
  s.tbState ≠ .idle →
    (∀ i < s.ftN, Memory.read s.nodes i = (s.table[i]?).map leafNode) ∧
    (∀ i < s.nodeN, s.ftN ≤ i → s.internalAt i = true) ∧
    (∀ i < 255, s.nodeN ≤ i → Memory.read s.nodes i = some blankNode) ∧
    s.childIndices.filter (fun i => decide (i < s.ftN)) = List.range' 0 s.srcHead ∧
    s.childIndices.filter (fun i => decide (s.ftN ≤ i)) = List.range' s.ftN s.adoptedInternal

/-- The weights in the queues: they add up to FT_TOTAL, and the root's is FT_TOTAL when the build is done (42_tree_builder R125, R129). -/
abbrev WeightForm (s : State) : Prop :=
  (s.tbState = .running → (s.queued.map s.nodeWeight).sum = s.ftTotal) ∧
  (s.tbState = .done → s.nodeWeight s.root.toNat = s.ftTotal)

/-- The target queue is sorted, and no queued node is lighter than half the last merge, which keeps it so (42_tree_builder R128). -/
abbrev QueueForm (s : State) : Prop :=
  s.tbState = .running →
    (List.range' s.tgtHead s.tgtLen).Pairwise (fun i j => s.nodeWeight i ≤ s.nodeWeight j) ∧
    (s.ftN < s.nodeN → ∀ i ∈ s.queued, s.nodeWeight (s.nodeN - 1) ≤ 2 * s.nodeWeight i)

/-! ## Codes and output -/

/-- The code table on hand is the one CT_GEN derives from the tree on hand (10_state R35, 43_code_table R140). -/
abbrev CodesForm (s : State) : Prop :=
  s.codesValid = true → (leafPaths s.nodes s.root).bind (fun l => .done (codeTableOf l)) = .done s.codes

/-- SYM_OUT[0..SYM_OUT_LEN-1] has been written (10_state R38). -/
abbrev OutputForm (s : State) : Prop := ∀ i < s.symOutLen, (Memory.read s.symOut i).isSome = true

/-! ## Words for the statements -/

/-- Commands one after the other, each from the state the one before left, with no poll between them: what the host sees of a run of EXECs (30_encoding R90). -/
def runCommands : List Instr → State → Host.Outcome State Fault Refusal
  | [], s => .next s
  | i :: is, s =>
    match exec i s with
    | .next t => runCommands is t
    | .fault f => .fault f
    | .refused r => .refused r

/-- Load a table: for each pair the weight goes to ARG, then FT_APPEND (30_encoding R90 APPEND). -/
def loadTable : List (Symbol × Nat) → State → Host.Outcome State Fault Refusal
  | [], s => .next s
  | x :: xs, s =>
    match exec (.ftAppend x.1.toNat) { s with arg := BitVec.ofNat 32 x.2 } with
    | .next t => loadTable xs t
    | .fault f => .fault f
    | .refused r => .refused r

/-- extract() as 42_tree_builder R121 words it: the front of the source queue unless it is empty or the target's front is lighter; x is the index taken, src and tgt the heads afterwards. -/
abbrev Extracts (s : State) (x src tgt : Nat) : Prop :=
  if 0 < s.srcLen ∧ (s.tgtLen = 0 ∨ s.nodeWeight s.srcHead ≤ s.nodeWeight s.tgtHead) then
    x = s.srcHead ∧ src = s.srcHead + 1 ∧ tgt = s.tgtHead
  else x = s.tgtHead ∧ src = s.srcHead ∧ tgt = s.tgtHead + 1

/-- The node a bit string leads to, left for 0 and right for 1 (43_code_table R140, 45_encode_decode R172). -/
def follow (nodes : Memory Node) : NodeRef → Bits → Option Node
  | i, [] => Memory.read nodes i.toNat
  | i, b :: p =>
    match Memory.read nodes i.toNat with
    | some nd =>
      if nd.child b = nilRef then none else follow nodes (nd.child b) p
    | none => none

/-- The bit string leads from the root to the leaf of a symbol. -/
abbrev LeadsTo (s : State) (p : Bits) (c : Symbol) : Prop :=
  p ≠ [] ∧ (follow s.nodes s.root p).any (fun nd => nd.isLeaf && nd.sym == c) = true

/-- The bit string leads from the root to a node that is no leaf. -/
abbrev LeadsInside (s : State) (p : Bits) : Prop := (follow s.nodes s.root p).any (fun nd => !nd.isLeaf) = true

/-- The code bits of a SYM_IN byte; empty when it has none. -/
def State.codeBits (s : State) (c : Byte) : Bits := ((Memory.read s.codes c.toNat).map CodeEntry.bits).getD []

/-- The concatenated codes of a symbol stream (45_encode_decode R170). -/
def State.codeStream (s : State) (cs : List Byte) : Bits := cs.flatMap s.codeBits

/-- Every byte is a symbol with a code (45_encode_decode R170). -/
abbrev Encodable (s : State) (cs : List Byte) : Prop :=
  ∀ c ∈ cs, c < 0x80#8 ∧ (Memory.read s.codes c.toNat).any CodeEntry.valid = true

/-- The state a command sees when the host writes its word to CMD: the write is answered OK and BUSY has risen (30_encoding R87). -/
def State.atCommand (s : State) (rest : List HostAction) : State := ((s.takeAction rest).respond writeOk).beginCommand

/-- The bus write of a word to CMD. -/
def cmdWrite (p : Params) (w : Word) : HostAction := .write (regAddr p .cmd) 4 w

/-- The reserved opcodes (30_encoding R85). -/
abbrev ReservedOpcode (op : Nat) : Prop :=
  (0x03 ≤ op ∧ op ≤ 0x0F) ∨ (0x12 ≤ op ∧ op ≤ 0x1F) ∨ (0x23 ≤ op ∧ op ≤ 0x2F) ∨
  (0x31 ≤ op ∧ op ≤ 0x3F) ∨ (0x42 ≤ op ∧ op ≤ 0x4F) ∨ (0x54 ≤ op ∧ op ≤ 0xFF)

/-! ## The whole invariant -/

/-- What holds between host actions in every state reachable from reset. -/
structure Inv (s : State) : Prop where
  params  : s.cfg.wf
  lengths : LengthForm s
  memory  : MemoryForm s
  errors  : ErrorForm s
  table   : TableForm s
  builder : BuilderForm s
  tree    : TreeForm s
  weights : WeightForm s
  queues  : QueueForm s
  codes   : CodesForm s
  output  : OutputForm s

/-- The faults a host can cause by breaking its own obligations: an access other than a STATUS read during BUSY (70_reset R240), or a length register above an element never written (20_memory R71), which the fault names. -/
abbrev HostMistake (s : State) (f : Fault) : Prop :=
  (f = .busyAccess ∧ s.busy = true ∧ s.pending.head? ≠ some (.read (regAddr s.cfg .status) 4)) ∨
  ∃ i, (f = .unwrittenRead .symIn i ∧ i < s.symInLen ∧ Memory.read s.symIn i = none) ∨
    (f = .unwrittenRead .bits i ∧ i < s.bitLen ∧ Memory.read s.bits i = none) ∨
    (f = .unwrittenRead .bytes i ∧ i < s.byteLen ∧ Memory.read s.bytes i = none)

end Sys2Proof.Machine
end

