-- ==== Sys2Proof/Certificates/Slice0/Obligations.lean ====
section
/-! DEFINITION. The statements for the provers. -/

open Sys2Proof Sys2Proof.Machine

/-! ## Encoding and issue -/

/-- 30_encoding R80 to R86: a word decodes to a command exactly when it is that command's encoding. -/
def Obligations.DecodeInvertsEncode : Prop :=
  ∀ (w : Word) (i : Instr), decode w = .ok i ↔ i.WellFormed ∧ w = encode i

/-- 30_encoding R84: the full command words, and every other opcode is no command. -/
def Obligations.OpcodeMapWords : Prop :=
  (decode 0x00000000#32 = .ok .nop ∧ decode 0x01000000#32 = .ok .sreset ∧ decode 0x02000000#32 = .ok .clrerr ∧
   decode 0x10000000#32 = .ok .ftClear ∧ decode 0x20000000#32 = .ok .tbInit ∧ decode 0x21000000#32 = .ok .tbStep ∧
   decode 0x22000000#32 = .ok .tbBuild ∧ decode 0x30000000#32 = .ok .ctGen ∧ decode 0x40000000#32 = .ok .pack ∧
   decode 0x41000000#32 = .ok .unpack ∧ decode 0x50000000#32 = .ok .encBits ∧ decode 0x51000000#32 = .ok .decBits ∧
   decode 0x52000000#32 = .ok .encode ∧ decode 0x53000000#32 = .ok .decode) ∧
  (∀ sym : Nat, sym ≤ 127 → decode (0x11000000#32 ||| BitVec.ofNat 32 sym) = .ok (.ftAppend sym)) ∧
  (∀ w : Word, (w >>> 24).toNat ∉ [0x00, 0x01, 0x02, 0x10, 0x11, 0x20, 0x21, 0x22, 0x30, 0x40, 0x41, 0x50, 0x51, 0x52, 0x53] →
    decode w = .error .reservedOpcode)

/-- 30_encoding R87: a CMD write whose word decodes to i, not held by the gate, runs i on the state with BUSY risen. -/
def Obligations.CmdWriteRunsDecodedCommand : Prop :=
  ∀ (s : State) (w : Word) (rest : List HostAction) (i : Instr),
    s.pending = cmdWrite s.cfg w :: rest → s.busy = false → decode w = .ok i →
    (s.errCode = 0#8 ∨ i = .nop ∨ i = .sreset ∨ i = .clrerr) →
    step s = exec i (s.atCommand rest)

/-- 30_encoding R85: a reserved opcode raises ILLEGAL_CMD (code 1) with ERR_INFO the whole word and has no other effect. -/
def Obligations.ReservedOpcodeIsIllegal : Prop :=
  ∀ (s : State) (w : Word) (rest : List HostAction),
    s.pending = cmdWrite s.cfg w :: rest → s.busy = false → s.errCode = 0#8 → ReservedOpcode (w >>> 24).toNat →
    step s = .next { s.atCommand rest with errCode := 0x01#8, errOp := w.extractLsb' 24 8, errInfo := w }

/-- 30_encoding R86: a command of the table with a must-be-0 bit set is illegal in the same way. -/
def Obligations.MustBeZeroBitIsIllegal : Prop :=
  ∀ (s : State) (w : Word) (rest : List HostAction),
    s.pending = cmdWrite s.cfg w :: rest → s.busy = false → s.errCode = 0#8 →
    (((w >>> 24).toNat ∈ [0x00, 0x01, 0x02, 0x10, 0x20, 0x21, 0x22, 0x30, 0x40, 0x41, 0x50, 0x51, 0x52, 0x53] ∧
        w.extractLsb' 0 24 ≠ 0#24) ∨
      ((w >>> 24).toNat = 0x11 ∧ w.extractLsb' 7 17 ≠ 0#17)) →
    step s = .next { s.atCommand rest with errCode := 0x01#8, errOp := w.extractLsb' 24 8, errInfo := w }

/-! ## Errors -/

/-- 60_exceptions R204 (and R202's three registers): a command that raises an error changes nothing else. -/
def Obligations.ErrorsAreAllOrNothing : Prop :=
  ∀ (i : Instr) (s t : State), exec i s = .next t → s.errCode = 0#8 → t.errCode ≠ 0#8 →
    ∃ (c : ErrCode) (w : Word), t = { s with errCode := c.code, errOp := i.opcode, errInfo := w }

/-- 60_exceptions R205: with an error recorded, a CMD write of any other opcode only makes BUSY rise; register and window accesses are not held. -/
def Obligations.ErrorGateIgnoresCommands : Prop :=
  (∀ (s : State) (w : Word) (rest : List HostAction),
    s.pending = cmdWrite s.cfg w :: rest → s.busy = false → s.errCode ≠ 0#8 → (w >>> 24).toNat ∉ [0x00, 0x01, 0x02] →
    step s = .next (s.atCommand rest)) ∧
  (∀ (s : State) (addr size : Nat), (s.readResponse addr size).status = (s.clearError.readResponse addr size).status) ∧
  (∀ (s : State) (l : Location) (v : Word),
    (s.writeLocation v l).map State.clearError = s.clearError.writeLocation v l)

/-- 60_exceptions R207: a recorded error is kept by every step but a hardware reset and a CMD write of SRESET or CLRERR; an illegal word then has no effect. -/
def Obligations.FirstErrorIsKept : Prop :=
  (∀ (s t : State) (a : HostAction) (rest : List HostAction),
    s.pending = a :: rest → s.errCode ≠ 0#8 → step s = .next t → a ≠ .hwReset →
    a ≠ cmdWrite s.cfg 0x01000000#32 → a ≠ cmdWrite s.cfg 0x02000000#32 →
    t.errCode = s.errCode ∧ t.errOp = s.errOp ∧ t.errInfo = s.errInfo) ∧
  (∀ (s : State) (w : Word) (rest : List HostAction) (r : DecodeReject),
    s.pending = cmdWrite s.cfg w :: rest → s.busy = false → s.errCode ≠ 0#8 → decode w = .error r →
    step s = .next (s.atCommand rest))

/-! ## The bus -/

/-- 20_memory R53 with the register rules of 10_state: what each register offset reads. -/
def Obligations.RegisterMapReads : Prop :=
  ∀ (s : State) (v : Nat → BusResponse), (∀ a, v a = s.readResponse (s.cfg.base + a) 4) →
    v 0x000 = readOk 0x48554631#32 ∧ v 0x004 = ⟨.busErr, some 0#32⟩ ∧ v 0x008 = readOk s.arg ∧
    (∃ x : Word, v 0x00C = readOk x ∧ x.getLsbD 0 = s.busy ∧ x.getLsbD 1 = decide (s.errCode ≠ 0#8) ∧
      x.getLsbD 2 = s.treeValid ∧ x.getLsbD 3 = s.codesValid ∧ x.getLsbD 4 = s.decPartial ∧ x >>> 5 = 0#32) ∧
    (∃ x : Word, v 0x010 = readOk x ∧ x.extractLsb' 0 8 = s.errCode ∧ x.extractLsb' 8 8 = s.errOp ∧ x >>> 16 = 0#32) ∧
    v 0x014 = readOk s.errInfo ∧ v 0x018 = readOk (BitVec.ofNat 32 s.ftN) ∧
    v 0x01C = readOk (BitVec.ofNat 32 s.ftTotal) ∧
    v 0x020 = readOk (match s.tbState with | .idle => 0#32 | .running => 1#32 | .done => 2#32) ∧
    v 0x024 = readOk (BitVec.ofNat 32 s.srcHead) ∧ v 0x028 = readOk (BitVec.ofNat 32 s.tgtHead) ∧
    v 0x02C = readOk (BitVec.ofNat 32 s.nodeN) ∧ v 0x030 = readOk (BitVec.ofNat 32 s.root.toNat) ∧
    v 0x034 = readOk (BitVec.ofNat 32 s.symInLen) ∧ v 0x038 = readOk (BitVec.ofNat 32 s.symOutLen) ∧
    v 0x03C = readOk (BitVec.ofNat 32 s.bitLen) ∧ v 0x040 = readOk (BitVec.ofNat 32 s.byteLen) ∧
    v 0x044 = readOk (BitVec.ofNat 32 s.cfg.symCap) ∧ v 0x048 = readOk (BitVec.ofNat 32 s.cfg.bitCap) ∧
    v 0x04C = readOk (BitVec.ofNat 32 s.cfg.byteCap)

/-- 20_memory R52: the accesses to the block that answer BUSERR, and that such an access changes no state (60_exceptions R209). -/
def Obligations.BusErrorChangesNothing : Prop :=
  (∀ (s : State) (a size : Nat) (rest : List HostAction), a < 0x100000 →
    s.pending = .read (s.cfg.base + a) size :: rest → s.busy = false →
    (size ≠ 4 ∨ a % 4 ≠ 0 ∨ locate s.cfg a = none ∨ a = 0x004) →
    step s = .next ((s.takeAction rest).respond ⟨.busErr, some 0#32⟩)) ∧
  (∀ (s : State) (a size : Nat) (v : Word) (rest : List HostAction), a < 0x100000 →
    s.pending = .write (s.cfg.base + a) size v :: rest → s.busy = false →
    (size ≠ 4 ∨ a % 4 ≠ 0 ∨ locate s.cfg a = none ∨
      a ∈ [0x000, 0x00C, 0x010, 0x014, 0x018, 0x01C, 0x020, 0x024, 0x028, 0x02C, 0x030, 0x038, 0x044, 0x048, 0x04C] ∨
      (0x1000 ≤ a ∧ a < 0x4000) ∨ (0x20000 ≤ a ∧ a < 0x30000) ∨
      (a = 0x034 ∧ s.cfg.symCap < v.toNat) ∨ (a = 0x03C ∧ s.cfg.bitCap < v.toNat) ∨ (a = 0x040 ∧ s.cfg.byteCap < v.toNat)) →
    step s = .next ((s.takeAction rest).respond ⟨.busErr, none⟩))

/-- 20_memory R53: which offsets the map leaves out. -/
def Obligations.UnmappedOffsets : Prop :=
  ∀ (p : Params) (a : Nat), p.wf → a % 4 = 0 →
    (locate p a = none ↔
      ¬ (a < 0x050 ∨ (0x1000 ≤ a ∧ a < 0x1400) ∨ (0x2000 ≤ a ∧ a < 0x2800) ∨ (0x3000 ≤ a ∧ a < 0x4000) ∨
        (0x10000 ≤ a ∧ a < 0x10000 + p.symCap) ∨ (0x20000 ≤ a ∧ a < 0x20000 + p.symCap) ∨
        (0x30000 ≤ a ∧ a < 0x30000 + p.bitCap / 8) ∨ (0x40000 ≤ a ∧ a < 0x40000 + p.byteCap)))

/-- 20_memory R54: a length register stores an in-range value and keeps its own on any other. ARG stores every value (10_state R22). Nothing else changes. -/
def Obligations.LengthRegisterWrites : Prop :=
  ∀ (s : State) (v : Word) (rest : List HostAction), s.busy = false →
    (s.pending = .write (s.cfg.base + 0x034) 4 v :: rest →
      step s = .next (if v.toNat ≤ s.cfg.symCap then { (s.takeAction rest).respond writeOk with symInLen := v.toNat }
        else (s.takeAction rest).respond writeErr)) ∧
    (s.pending = .write (s.cfg.base + 0x03C) 4 v :: rest →
      step s = .next (if v.toNat ≤ s.cfg.bitCap then { (s.takeAction rest).respond writeOk with bitLen := v.toNat }
        else (s.takeAction rest).respond writeErr)) ∧
    (s.pending = .write (s.cfg.base + 0x040) 4 v :: rest →
      step s = .next (if v.toNat ≤ s.cfg.byteCap then { (s.takeAction rest).respond writeOk with byteLen := v.toNat }
        else (s.takeAction rest).respond writeErr)) ∧
    (s.pending = .write (s.cfg.base + 0x008) 4 v :: rest →
      step s = .next { (s.takeAction rest).respond writeOk with arg := v })

/-- 20_memory R58, R60, R61: a window write sets exactly the four bytes, or thirty-two bits, of its word, first element at the top, and the word reads back; nothing else changes. -/
def Obligations.WindowWriteReadsBack : Prop :=
  ∀ (s : State) (k : Nat) (v : Word) (rest : List HostAction), s.cfg.wf → s.busy = false →
    (4 * k < s.cfg.symCap → s.pending = .write (s.cfg.base + 0x10000 + 4 * k) 4 v :: rest →
      ∃ t : State, step s = .next t ∧ t = { (s.takeAction rest).respond writeOk with symIn := t.symIn } ∧
        (∀ i < 4, Memory.read t.symIn (4 * k + i) = some ((v >>> (24 - 8 * i)).setWidth 8)) ∧
        (∀ i, (i < 4 * k ∨ 4 * k + 4 ≤ i) → Memory.read t.symIn i = Memory.read s.symIn i) ∧
        t.readResponse (s.cfg.base + 0x10000 + 4 * k) 4 = readOk v) ∧
    (32 * k < s.cfg.bitCap → s.pending = .write (s.cfg.base + 0x30000 + 4 * k) 4 v :: rest →
      ∃ t : State, step s = .next t ∧ t = { (s.takeAction rest).respond writeOk with bits := t.bits } ∧
        (∀ r < 32, Memory.read t.bits (32 * k + r) = some (v.getLsbD (31 - r))) ∧
        (∀ r, (r < 32 * k ∨ 32 * k + 32 ≤ r) → Memory.read t.bits r = Memory.read s.bits r) ∧
        t.readResponse (s.cfg.base + 0x30000 + 4 * k) 4 = readOk v) ∧
    (4 * k < s.cfg.byteCap → s.pending = .write (s.cfg.base + 0x40000 + 4 * k) 4 v :: rest →
      ∃ t : State, step s = .next t ∧ t = { (s.takeAction rest).respond writeOk with bytes := t.bytes } ∧
        (∀ i < 4, Memory.read t.bytes (4 * k + i) = some ((v >>> (24 - 8 * i)).setWidth 8)) ∧
        (∀ i, (i < 4 * k ∨ 4 * k + 4 ≤ i) → Memory.read t.bytes i = Memory.read s.bytes i) ∧
        t.readResponse (s.cfg.base + 0x40000 + 4 * k) 4 = readOk v)

/-- 20_memory R55, R56, R57, R59: the read-only windows' layout for written elements, each element on its own (R71), and the words and bits that read 0 whatever was written. -/
def Obligations.TableWindowLayout : Prop :=
  ∀ (s : State),
    (∀ (i : Nat) (e : FtEntry), i < 128 → Memory.read s.ft i = some e → i < s.ftN →
      s.readResponse (s.cfg.base + 0x1000 + 8 * i) 4 = readOk (e.sym.setWidth 32) ∧
      s.readResponse (s.cfg.base + 0x1000 + 8 * i + 4) 4 = readOk e.weight) ∧
    (∀ i : Nat, i < 128 → s.ftN ≤ i →
      s.readResponse (s.cfg.base + 0x1000 + 8 * i) 4 = readOk 0#32 ∧
      s.readResponse (s.cfg.base + 0x1000 + 8 * i + 4) 4 = readOk 0#32) ∧
    (∀ (i : Nat) (nd : Node), i ≤ 254 → Memory.read s.nodes i = some nd →
      s.readResponse (s.cfg.base + 0x2000 + 8 * i) 4 = readOk nd.weight ∧
      ∃ x : Word, s.readResponse (s.cfg.base + 0x2000 + 8 * i + 4) 4 = readOk x ∧
        x.getLsbD 31 = nd.valid ∧ x.getLsbD 30 = nd.leaf ∧ x.extractLsb' 23 7 = 0#7 ∧ x.extractLsb' 16 7 = nd.sym ∧
        x.extractLsb' 8 8 = nd.left ∧ x.extractLsb' 0 8 = nd.right) ∧
    (s.readResponse (s.cfg.base + 0x27F8) 4 = readOk 0#32 ∧ s.readResponse (s.cfg.base + 0x27FC) 4 = readOk 0#32) ∧
    (∀ (c : Nat) (e : CodeEntry), c < 128 → Memory.read s.codes c = some e →
      (∃ x : Word, s.readResponse (s.cfg.base + 0x3000 + 32 * c) 4 = readOk x ∧
        x.getLsbD 31 = e.valid ∧ x.extractLsb' 8 23 = 0#23 ∧ x.extractLsb' 0 8 = e.len) ∧
      (∀ q, 1 ≤ q → q ≤ 4 → ∃ x : Word, s.readResponse (s.cfg.base + 0x3000 + 32 * c + 4 * q) 4 = readOk x ∧
        ∀ r < 32, x.getLsbD (31 - r) = e.code.getMsbD (32 * (q - 1) + r))) ∧
    (∀ c q : Nat, c < 128 → 5 ≤ q → q ≤ 7 → s.readResponse (s.cfg.base + 0x3000 + 32 * c + 4 * q) 4 = readOk 0#32) ∧
    (∀ c : Nat, c < 128 → ∃ x : Word, s.readResponse (s.cfg.base + 0x3000 + 32 * c) 4 = readOk x ∧ x.extractLsb' 8 23 = 0#23) ∧
    (∀ i : Nat, i ≤ 254 → ∃ x : Word, s.readResponse (s.cfg.base + 0x2000 + 8 * i + 4) 4 = readOk x ∧ x.extractLsb' 23 7 = 0#7) ∧
    (∀ k : Nat, s.cfg.wf → 4 * k < s.cfg.symCap → ∃ x : Word, s.readResponse (s.cfg.base + 0x20000 + 4 * k) 4 = readOk x ∧
      ∀ (i : Nat) (b : Byte), i < 4 → Memory.read s.symOut (4 * k + i) = some b → x.extractLsb' (24 - 8 * i) 8 = b)

/-- 20_memory R61: BITS word k and BYTES word k are the same word when the bytes are the stream's expansion. -/
def Obligations.BitsWordEqualsBytesWord : Prop :=
  ∀ (s : State) (k : Nat) (bs : List Byte), Memory.readRange s.bytes (4 * k) 4 = .ok bs →
    Memory.readRange s.bits (32 * k) 32 = .ok (expandAll bs) → s.readBitWord k = s.readByteWord s.bytes k

/-- 20_memory R64: a read shows the host the addressed location's value (readResponse) and changes nothing but the record of what it has seen. -/
def Obligations.BusReadsHaveNoSideEffect : Prop :=
  ∀ (s : State) (addr size : Nat) (rest : List HostAction), s.pending = .read addr size :: rest → s.busy = false →
    step s = .next ((s.takeAction rest).respond ((s.takeAction rest).readResponse addr size))

/-- 70_reset R240, R241: while BUSY = 1 a STATUS read shows BUSY = 1 with bits 31:5 zero, or is the one that finds the command finished and shows the whole STATUS of 10_state R23; any other access is a fault. The count of polls is the model's (log 3). -/
def Obligations.BusyProtocol : Prop :=
  (∀ (s : State) (rest : List HostAction), s.busy = true → s.pending = .read (regAddr s.cfg .status) 4 :: rest →
    (s.busyPolls ≠ 0 → ∃ x : Word, x.getLsbD 0 = true ∧ x >>> 5 = 0#32 ∧
      step s = .next ({ s.takeAction rest with busyPolls := s.busyPolls - 1 }.respond (readOk x))) ∧
    (s.busyPolls = 0 → ∃ x : Word, x.getLsbD 0 = false ∧ x.getLsbD 1 = decide (s.errCode ≠ 0#8) ∧
      x.getLsbD 2 = s.treeValid ∧ x.getLsbD 3 = s.codesValid ∧ x.getLsbD 4 = s.decPartial ∧ x >>> 5 = 0#32 ∧
      step s = .next ({ s.takeAction rest with busy := false }.respond (readOk x)))) ∧
  (∀ (s : State) (addr size : Nat) (rest : List HostAction), s.busy = true → s.pending = .read addr size :: rest →
    ¬ (addr = regAddr s.cfg .status ∧ size = 4) → step s = .fault .busyAccess) ∧
  (∀ (s : State) (addr size : Nat) (v : Word) (rest : List HostAction), s.busy = true →
    s.pending = .write addr size v :: rest → step s = .fault .busyAccess)

/-- 30_encoding R90, 70_reset R244: POLL ends after a finite number of STATUS reads, with BUSY = 0 and the block otherwise as the command left it, whatever the free duration is. -/
def Obligations.PollTerminates : Prop :=
  ∀ (s : State) (rest : List HostAction), s.pending = .poll :: rest →
    ∃ (n : Nat) (t : State), Sys2Proof.core.run n s = .next t ∧ t.busy = false ∧ t.pending = rest ∧
      t = { s with busy := false, busyPolls := t.busyPolls, pending := rest, shown := t.shown, draws := t.draws } ∧
      ∃ (x : Word) (seen : List BusResponse), t.shown = readOk x :: (seen ++ s.shown) ∧ x.getLsbD 0 = false

/-! ## Reset and control -/

/-- 70_reset R230: the register values after hardware reset, whatever the state before; memories hold nothing written. -/
def Obligations.HardwareResetValues : Prop :=
  ∀ (s : State) (rest : List HostAction), s.pending = .hwReset :: rest →
    ∃ t : State, step s = .next t ∧ t.cfg = s.cfg ∧ t.arg = 0#32 ∧ t.busy = false ∧ t.errCode = 0#8 ∧ t.errOp = 0#8 ∧
      t.errInfo = 0#32 ∧ t.ftN = 0 ∧ t.ftTotal = 0 ∧ t.tbState = .idle ∧ t.srcHead = 0 ∧ t.tgtHead = 0 ∧ t.nodeN = 0 ∧
      t.root = 0xFF#8 ∧ t.treeValid = false ∧ t.codesValid = false ∧ t.decPartial = false ∧ t.statusWord = 0#32 ∧
      t.symInLen = 0 ∧ t.symOutLen = 0 ∧ t.bitLen = 0 ∧ t.byteLen = 0 ∧
      (∀ i q, t.readFtWord i q = 0#32) ∧
      (∀ i, Memory.read t.nodes i = none ∧ Memory.read t.codes i = none ∧ Memory.read t.symIn i = none ∧
        Memory.read t.symOut i = none ∧ Memory.read t.bits i = none ∧ Memory.read t.bytes i = none)

/-- 70_reset R231: the errors the commands raise right after reset, and PACK of the empty string. DECODE with BYTES written is left to DecodeErrorOrder (log 27). -/
def Obligations.CommandsAfterReset : Prop :=
  ∀ (p : Params), p.wf →
    exec .tbBuild (State.resetWith p) = .next { State.resetWith p with errCode := 0x07#8, errOp := 0x22#8, errInfo := 0#32 } ∧
    exec .tbInit (State.resetWith p) = .next { State.resetWith p with errCode := 0x07#8, errOp := 0x20#8, errInfo := 0#32 } ∧
    exec .tbStep (State.resetWith p) = .next { State.resetWith p with errCode := 0x08#8, errOp := 0x21#8, errInfo := 0#32 } ∧
    exec .ctGen (State.resetWith p) = .next { State.resetWith p with errCode := 0x09#8, errOp := 0x30#8, errInfo := 0#32 } ∧
    exec .decBits (State.resetWith p) = .next { State.resetWith p with errCode := 0x09#8, errOp := 0x51#8, errInfo := 0#32 } ∧
    exec .encBits (State.resetWith p) = .next { State.resetWith p with errCode := 0x0A#8, errOp := 0x50#8, errInfo := 0#32 } ∧
    exec .encode (State.resetWith p) = .next { State.resetWith p with errCode := 0x0A#8, errOp := 0x52#8, errInfo := 0#32 } ∧
    exec .pack (State.resetWith p) = .next { State.resetWith p with bytes := [(0, 0x01#8)], byteLen := 1 }

/-- 40_control R100, R101, R102 and 41_freq_table R111: what NOP, SRESET, CLRERR and FT_CLEAR leave; every memory is kept. -/
def Obligations.ControlCommandResults : Prop :=
  ∀ s : State,
    exec .nop s = .next s ∧
    exec .clrerr s = .next { s with errCode := 0#8, errOp := 0#8, errInfo := 0#32 } ∧
    exec .ftClear s = .next { s with
      ftN := 0, tbState := .idle, srcHead := 0, tgtHead := 0, nodeN := 0, root := 0xFF#8, treeValid := false, codesValid := false } ∧
    exec .sreset s = .next { State.resetWith s.cfg with
      busy := s.busy, busyPolls := s.busyPolls, ft := s.ft, nodes := s.nodes, codes := s.codes, symIn := s.symIn, symOut := s.symOut,
      bits := s.bits, bytes := s.bytes, pending := s.pending, shown := s.shown, draws := s.draws }

/-! ## The Frequency Table -/

/-- 41_freq_table R112: an accepted FT_APPEND. -/
def Obligations.FtAppendAccepts : Prop :=
  ∀ (s : State) (sym : Nat) (table : List FtEntry), TableHeld s table → s.ftN ≠ 128 → s.arg ≠ 0#32 →
    (∀ e ∈ table, e.sym ≠ BitVec.ofNat 7 sym) → (∀ e, table.getLast? = some e → e.weight ≤ s.arg) →
    totalWeight table + s.arg.toNat ≤ 0xFFFFFFFF →
    ∃ t : State, exec (.ftAppend sym) s = .next t ∧
      t = { s with ft := t.ft, ftN := s.ftN + 1, tbState := .idle, srcHead := 0, tgtHead := 0, nodeN := 0, root := 0xFF#8,
                   treeValid := false, codesValid := false } ∧
      TableHeld t (table ++ [⟨BitVec.ofNat 7 sym, s.arg⟩]) ∧
      (∀ i, i ≠ s.ftN → Memory.read t.ft i = Memory.read s.ft i)

/-- 41_freq_table R112, 60_exceptions R206: FT_APPEND's five checks in order, each with its code and ERR_INFO. -/
def Obligations.FtAppendCheckOrder : Prop :=
  ∀ (s : State) (sym : Nat) (table : List FtEntry), TableHeld s table → s.errCode = 0#8 →
    (s.ftN = 128 →
      exec (.ftAppend sym) s = .next { s with errCode := 0x02#8, errOp := 0x11#8, errInfo := 128#32 }) ∧
    (s.ftN ≠ 128 → s.arg = 0#32 →
      exec (.ftAppend sym) s = .next { s with errCode := 0x03#8, errOp := 0x11#8, errInfo := BitVec.ofNat 32 s.ftN }) ∧
    (∀ (i : Nat) (e : FtEntry), s.ftN ≠ 128 → s.arg ≠ 0#32 → table[i]? = some e → e.sym = BitVec.ofNat 7 sym →
      (∀ j < i, ∀ d, table[j]? = some d → d.sym ≠ BitVec.ofNat 7 sym) →
      exec (.ftAppend sym) s = .next { s with errCode := 0x04#8, errOp := 0x11#8, errInfo := BitVec.ofNat 32 i }) ∧
    (∀ e : FtEntry, s.ftN ≠ 128 → s.arg ≠ 0#32 → (∀ d ∈ table, d.sym ≠ BitVec.ofNat 7 sym) → table.getLast? = some e →
      s.arg < e.weight →
      exec (.ftAppend sym) s = .next { s with errCode := 0x05#8, errOp := 0x11#8, errInfo := BitVec.ofNat 32 s.ftN }) ∧
    (s.ftN ≠ 128 → s.arg ≠ 0#32 → (∀ d ∈ table, d.sym ≠ BitVec.ofNat 7 sym) →
      (∀ e, table.getLast? = some e → e.weight ≤ s.arg) → 0xFFFFFFFF < totalWeight table + s.arg.toNat →
      exec (.ftAppend sym) s = .next { s with errCode := 0x06#8, errOp := 0x11#8, errInfo := BitVec.ofNat 32 s.ftN })

/-- 41_freq_table R113: the table conforms after reset and every step keeps it so, from any state. -/
def Obligations.StepKeepsTableConforming : Prop :=
  (∀ p : Params, (State.resetWith p).ftN ≤ 128 ∧ TableForm (State.resetWith p)) ∧
  (∀ s t : State, s.ftN ≤ 128 → TableForm s → step s = .next t →
    t.ftN ≤ 128 ∧ TableForm t ∧
      (∀ e ∈ t.table, 1 ≤ e.weight.toNat) ∧ t.table.Pairwise (fun x y => x.weight.toNat ≤ y.weight.toNat) ∧
      t.table.Pairwise (fun x y => x.sym ≠ y.sym) ∧
      t.ftTotal = (t.table.map fun e => e.weight.toNat).sum ∧ t.ftTotal ≤ 2 ^ 32 - 1)

/-- 41_freq_table R115: FT_APPEND accepts the reference analyzer's table, entry by entry in its order. -/
def Obligations.ReferenceTableIsAccepted : Prop :=
  ∀ (s : State) (text : List Symbol), s.ftN = 0 → s.errCode = 0#8 → text.length ≤ 0xFFFFFFFF →
    ∃ t : State, loadTable (freqTable text) s = .next t ∧ t.errCode = 0#8 ∧
      TableHeld t ((freqTable text).map fun x => ⟨x.1, BitVec.ofNat 32 x.2⟩) ∧ t.ftTotal = text.length

/-! ## The tree builder -/

/-- 42_tree_builder R122: TB_INIT in all three cases. -/
def Obligations.TbInitResult : Prop :=
  ∀ (s : State) (table : List FtEntry), TableHeld s table → s.ftN ≤ 128 →
    (s.ftN = 0 → s.errCode = 0#8 → exec .tbInit s = .next { s with errCode := 0x07#8, errOp := 0x20#8, errInfo := 0#32 }) ∧
    (∀ e, s.ftN = 1 → table = [e] → ∃ t : State, exec .tbInit s = .next t ∧
      t = { s with nodes := t.nodes, nodeN := 2, srcHead := 1, tgtHead := 2, root := 1#8, tbState := .done,
                   treeValid := true, codesValid := false } ∧
      Memory.read t.nodes 0 = some ⟨true, true, e.sym, e.weight, 0xFF#8, 0xFF#8⟩ ∧
      Memory.read t.nodes 1 = some ⟨true, false, 0#7, e.weight, 0#8, 0xFF#8⟩ ∧
      (∀ i, 2 ≤ i → i < 255 → Memory.read t.nodes i = some ⟨false, false, 0#7, 0#32, 0#8, 0#8⟩)) ∧
    (2 ≤ s.ftN → ∃ t : State, exec .tbInit s = .next t ∧
      t = { s with nodes := t.nodes, nodeN := s.ftN, srcHead := 0, tgtHead := s.ftN, root := 0xFF#8, tbState := .running,
                   treeValid := false, codesValid := false } ∧
      (∀ i e, table[i]? = some e → Memory.read t.nodes i = some ⟨true, true, e.sym, e.weight, 0xFF#8, 0xFF#8⟩) ∧
      (∀ i, s.ftN ≤ i → i < 255 → Memory.read t.nodes i = some ⟨false, false, 0#7, 0#32, 0#8, 0#8⟩))

/-- 42_tree_builder R123: one merge of the two extracted nodes, the finish when it was the last, and the error when no build runs. -/
def Obligations.TbStepResult : Prop :=
  (∀ s : State, s.tbState ≠ .running → s.errCode = 0#8 →
    exec .tbStep s = .next { s with
      errCode := 0x08#8, errOp := 0x21#8
      errInfo := match s.tbState with | .idle => 0#32 | .running => 1#32 | .done => 2#32 }) ∧
  (∀ (s : State) (a b src₁ tgt₁ src₂ tgt₂ : Nat) (na nb : Node),
    s.tbState = .running → s.tgtHead ≤ s.nodeN → s.nodeN ≤ 254 → 2 ≤ s.srcLen + s.tgtLen →
    (∀ i < s.nodeN, (Memory.read s.nodes i).isSome = true) → s.ftN ≤ s.nodeN →
    Extracts s a src₁ tgt₁ → Extracts { s with srcHead := src₁, tgtHead := tgt₁ } b src₂ tgt₂ →
    Memory.read s.nodes a = some na → Memory.read s.nodes b = some nb →
    ∃ t : State, exec .tbStep s = .next t ∧
      Memory.read t.nodes s.nodeN = some ⟨true, false, 0#7, na.weight + nb.weight, BitVec.ofNat 8 a, BitVec.ofNat 8 b⟩ ∧
      (∀ i, i ≠ s.nodeN → Memory.read t.nodes i = Memory.read s.nodes i) ∧
      (src₂ = s.ftN ∧ tgt₂ = s.nodeN →
        t = { s with nodes := t.nodes, nodeN := s.nodeN + 1, srcHead := src₂, tgtHead := s.nodeN + 1,
                     root := BitVec.ofNat 8 s.nodeN, tbState := .done, treeValid := true }) ∧
      (¬ (src₂ = s.ftN ∧ tgt₂ = s.nodeN) → s.srcHead ≤ s.ftN →
        t = { s with nodes := t.nodes, nodeN := s.nodeN + 1, srcHead := src₂, tgtHead := tgt₂ }))

/-- 42_tree_builder R128: between merges both queues are sorted, so extract(), as the machine runs it, takes a node of least weight, and the source front when it has that weight. -/
def Obligations.ExtractTakesLeastWeight : Prop :=
  ∀ (s : State) (x src tgt : Nat), Inv s → s.tbState = .running → Extracts s x src tgt →
    (List.range' s.srcHead s.srcLen).Pairwise (fun i j => s.nodeWeight i ≤ s.nodeWeight j) ∧
    (List.range' s.tgtHead s.tgtLen).Pairwise (fun i j => s.nodeWeight i ≤ s.nodeWeight j) ∧
    x ∈ s.queued ∧ (∀ i ∈ s.queued, s.nodeWeight x ≤ s.nodeWeight i) ∧
    (0 < s.srcLen → (∀ i ∈ s.queued, s.nodeWeight s.srcHead ≤ s.nodeWeight i) → x = s.srcHead) ∧
    (¬ (0 < s.srcLen ∧ ∀ i ∈ s.queued, s.nodeWeight s.srcHead ≤ s.nodeWeight i) → x = s.tgtHead) ∧
    extract s = .done (x, s.moveHeads src tgt)

/-- 42_tree_builder R131: extract(), as the machine runs it, takes what a priority queue with insertion-order tie-break takes (a node's index is its place in insertion order), and leaves what that queue keeps. -/
def Obligations.ExtractIsPriorityQueueMinimum : Prop :=
  ∀ (s : State) (x src tgt : Nat), Inv s → s.tbState = .running → Extracts s x src tgt →
    x ∈ s.queued ∧
    (∀ i ∈ s.queued, s.nodeWeight x < s.nodeWeight i ∨ (s.nodeWeight x = s.nodeWeight i ∧ x ≤ i)) ∧
    State.queued { s with srcHead := src, tgtHead := tgt } = s.queued.erase x ∧
    extract s = .done (x, { s with srcHead := src, tgtHead := tgt })

/-- 42_tree_builder R124, R125: TB_BUILD from a conforming table completes, with the tree's shape, and changes nothing else. -/
def Obligations.TbBuildMakesTheTree : Prop :=
  ∀ s : State, TableForm s → 1 ≤ s.ftN → s.ftN ≤ 128 →
    ∃ t : State, exec .tbBuild s = .next t ∧
      t = { s with nodes := t.nodes, nodeN := t.nodeN, srcHead := s.ftN, tgtHead := t.nodeN, root := t.root, tbState := .done,
                   treeValid := true, codesValid := false } ∧
      (s.ftN = 1 → t.nodeN = 2 ∧ t.root = 1#8) ∧
      (2 ≤ s.ftN → t.nodeN = 2 * s.ftN - 1 ∧ t.root = BitVec.ofNat 8 (2 * s.ftN - 2)) ∧
      t.nodeWeight t.root.toNat = s.ftTotal ∧ TreeForm t ∧
      (∀ e ∈ s.table, ∃ p : Bits, LeadsTo t p e.sym)

/-- 42_tree_builder R124, R127: TB_BUILD equals TB_INIT and then exactly FT_N - 1 TB_STEPs, of which only the last finishes. -/
def Obligations.TbBuildEqualsInitAndSteps : Prop :=
  ∀ s : State, TableForm s → 1 ≤ s.ftN → s.ftN ≤ 128 →
    exec .tbBuild s = runCommands (.tbInit :: List.replicate (s.ftN - 1) .tbStep) s ∧
    (∀ k, k < s.ftN - 1 → ∃ t : State, runCommands (.tbInit :: List.replicate k .tbStep) s = .next t ∧
      t.tbState = .running ∧ t.srcLen + t.tgtLen = s.ftN - k)

/-- 42_tree_builder R130: the tree is a function of the table alone, and so is the code table CT_GEN makes from it. -/
def Obligations.TreeDependsOnTableOnly : Prop :=
  ∀ (s s' t t' : State) (table : List FtEntry), table ≠ [] → TableHeld s table → TableHeld s' table →
    exec .tbBuild s = .next t → exec .tbBuild s' = .next t' →
    t.nodes = t'.nodes ∧ t.root = t'.root ∧ t.nodeN = t'.nodeN ∧ t.srcHead = t'.srcHead ∧ t.tgtHead = t'.tgtHead ∧
    (∀ u u' : State, exec .ctGen t = .next u → exec .ctGen t' = .next u' → u.codes = u'.codes)

/-! ## The code table -/

/-- 43_code_table R140, R141, R143: CT_GEN completes on every complete tree; an entry is valid exactly for the table's symbols, its code leads to the symbol's leaf, and its length is in range; without a tree it raises NO_TREE. -/
def Obligations.CtGenMakesTheCodes : Prop :=
  (∀ s : State, s.treeValid = false → s.errCode = 0#8 →
    exec .ctGen s = .next { s with errCode := 0x09#8, errOp := 0x30#8, errInfo := 0#32 }) ∧
  (∀ s : State, Inv s → s.treeValid = true →
    ∃ t : State, exec .ctGen s = .next t ∧ t = { s with codes := t.codes, codesValid := true } ∧
      ∀ c : Symbol, ∃ e : CodeEntry, Memory.read t.codes c.toNat = some e ∧
        (e.valid = true ↔ ∃ d ∈ s.table, d.sym = c) ∧
        (e.valid = true → LeadsTo s e.bits c ∧ 1 ≤ e.len.toNat ∧ e.len.toNat ≤ 127 ∧
          (∀ j, e.len.toNat ≤ j → e.code.getMsbD j = false) ∧
          (s.ftN = 1 → e.bits = [false]) ∧ (2 ≤ s.ftN → e.len.toNat ≤ s.ftN - 1)) ∧
        (e.valid = false → e = ⟨false, 0#8, 0#128⟩))

/-- 43_code_table R142: no valid code is a prefix of another symbol's. -/
def Obligations.CodesArePrefixFree : Prop :=
  ∀ (s : State) (c d : Symbol) (e f : CodeEntry), Inv s → s.codesValid = true → c ≠ d →
    Memory.read s.codes c.toNat = some e → Memory.read s.codes d.toNat = some f → e.valid = true → f.valid = true →
    ¬ e.bits <+: f.bits

/-- 43_code_table R144: a strictly heavier symbol has no longer code. -/
def Obligations.HeavierSymbolsHaveNoLongerCodes : Prop :=
  ∀ (s : State) (x y : FtEntry) (e f : CodeEntry), Inv s → s.codesValid = true → x ∈ s.table → y ∈ s.table →
    y.weight < x.weight → Memory.read s.codes x.sym.toNat = some e → Memory.read s.codes y.sym.toNat = some f →
    e.len.toNat ≤ f.len.toNat

/-! ## The bit-stream packer -/

/-- 44_bitstream R150: Pack is pad - 1 zeros, a one, then the bits, in floor(L/8) + 1 bytes, most significant bit first. -/
def Obligations.PackLayout : Prop :=
  ∀ b : Bits, (packBits b).length = b.length / 8 + 1 ∧
    expandAll (packBits b) = List.replicate (8 - b.length % 8 - 1) false ++ [true] ++ b

/-- 44_bitstream R155: a length that is a multiple of 8 gets a whole padding byte 0x01. -/
def Obligations.ByteBoundaryPadding : Prop :=
  ∀ b : Bits, b.length % 8 = 0 →
    ∃ bs : List Byte, packBits b = 0x01#8 :: bs ∧ bs.length = b.length / 8 ∧ expandAll bs = b

/-- 44_bitstream R156: Pack is one-to-one, its image is the non-empty byte sequences with a non-zero first byte, and Unpack inverts it there and fails elsewhere. -/
def Obligations.PackImage : Prop :=
  (∀ b c : Bits, packBits b = packBits c → b = c) ∧
  (∀ bs : List Byte, (∃ b, packBits b = bs) ↔ ∃ v vs, bs = v :: vs ∧ v ≠ 0x00#8) ∧
  (∀ (bs : List Byte) (b : Bits), unpackBytes bs = some b ↔ packBits b = bs)

/-- 44_bitstream R151: PACK's result and its one error. -/
def Obligations.PackResult : Prop :=
  (∀ (s : State) (b : Bits), Memory.readRange s.bits 0 s.bitLen = .ok b → s.bitLen / 8 + 1 ≤ s.cfg.byteCap →
    ∃ t : State, exec .pack s = .next t ∧ t = { s with bytes := t.bytes, byteLen := s.bitLen / 8 + 1 } ∧
      Memory.readRange t.bytes 0 t.byteLen = .ok (packBits b) ∧
      (∀ i, s.bitLen / 8 + 1 ≤ i → Memory.read t.bytes i = Memory.read s.bytes i)) ∧
  (∀ s : State, s.cfg.byteCap < s.bitLen / 8 + 1 → s.errCode = 0#8 →
    exec .pack s = .next { s with errCode := 0x0E#8, errOp := 0x40#8, errInfo := BitVec.ofNat 32 (s.bitLen / 8 + 1) })

/-- 44_bitstream R153: UNPACK's result and its errors, in order. -/
def Obligations.UnpackResult : Prop :=
  (∀ (s : State) (bs : List Byte) (b : Bits), Memory.readRange s.bytes 0 s.byteLen = .ok bs → unpackBytes bs = some b →
    b.length ≤ s.cfg.bitCap →
    ∃ t : State, exec .unpack s = .next t ∧ t = { s with bits := t.bits, bitLen := b.length } ∧
      Memory.readRange t.bits 0 t.bitLen = .ok b ∧
      (∀ i, b.length ≤ i → Memory.read t.bits i = Memory.read s.bits i)) ∧
  (∀ s : State, s.errCode = 0#8 → s.byteLen = 0 ∨ Memory.read s.bytes 0 = some 0x00#8 →
    exec .unpack s = .next { s with errCode := 0x0F#8, errOp := 0x41#8, errInfo := 0#32 }) ∧
  (∀ (s : State) (v : Byte) (k : Nat), s.errCode = 0#8 → s.byteLen ≠ 0 → Memory.read s.bytes 0 = some v → k < 8 →
    v.getLsbD (7 - k) = true → (∀ j < k, v.getLsbD (7 - j) = false) → s.cfg.bitCap < 8 * s.byteLen - k - 1 →
    exec .unpack s = .next { s with errCode := 0x0D#8, errOp := 0x41#8, errInfo := BitVec.ofNat 32 (8 * s.byteLen - k - 1) })

/-- 44_bitstream R154: Unpack inverts Pack, and PACK then UNPACK leaves BIT_LEN and the bit string as they were. -/
def Obligations.PaddingDescribesItself : Prop :=
  (∀ b : Bits, unpackBytes (packBits b) = some b) ∧
  (∀ (s : State) (b : Bits), Memory.readRange s.bits 0 s.bitLen = .ok b → s.bitLen ≤ s.cfg.bitCap →
    s.bitLen / 8 + 1 ≤ s.cfg.byteCap →
    ∃ t : State, runCommands [.pack, .unpack] s = .next t ∧ t.errCode = s.errCode ∧ t.bitLen = s.bitLen ∧
      Memory.readRange t.bits 0 t.bitLen = .ok b ∧ ∀ i, Memory.read t.bits i = Memory.read s.bits i)

/-! ## The encoder and the decoder -/

/-- 45_encode_decode R170, R171: ENC_BITS puts the concatenated codes in BITS. -/
def Obligations.EncBitsResult : Prop :=
  ∀ (s : State) (cs : List Byte), s.codesValid = true → Memory.readRange s.symIn 0 s.symInLen = .ok cs → Encodable s cs →
    (s.codeStream cs).length ≤ s.cfg.bitCap →
    ∃ t : State, exec .encBits s = .next t ∧ t = { s with bits := t.bits, bitLen := (s.codeStream cs).length } ∧
      Memory.readRange t.bits 0 t.bitLen = .ok (s.codeStream cs) ∧
      (∀ i, (s.codeStream cs).length ≤ i → Memory.read t.bits i = Memory.read s.bits i)

/-- 45_encode_decode R170, R171, R174, 60_exceptions R206: the errors of ENC_BITS and ENCODE: NO_CODES first, then the first failing check of the lowest symbol index j. -/
def Obligations.EncodingErrors : Prop :=
  ∀ (i : Instr) (s : State), i = .encBits ∨ i = .encode → s.errCode = 0#8 →
    (s.codesValid = false → exec i s = .next { s with errCode := 0x0A#8, errOp := i.opcode, errInfo := 0#32 }) ∧
    (∀ (j : Nat) (cs : List Byte) (c : Byte), s.codesValid = true → j < s.symInLen → Memory.readRange s.symIn 0 j = .ok cs →
      Encodable s cs → (s.codeStream cs).length ≤ s.cfg.bitCap → Memory.read s.symIn j = some c →
      (0x80#8 ≤ c → exec i s = .next { s with errCode := 0x0B#8, errOp := i.opcode, errInfo := BitVec.ofNat 32 j }) ∧
      (∀ e, c < 0x80#8 → Memory.read s.codes c.toNat = some e → e.valid = false →
        exec i s = .next { s with errCode := 0x0C#8, errOp := i.opcode, errInfo := BitVec.ofNat 32 j }) ∧
      (∀ e, c < 0x80#8 → Memory.read s.codes c.toNat = some e → e.valid = true →
        s.cfg.bitCap < (s.codeStream cs).length + e.len.toNat →
        exec i s = .next { s with errCode := 0x0D#8, errOp := i.opcode, errInfo := BitVec.ofNat 32 j }))

/-- 45_encode_decode R174: ENCODE is ENC_BITS and then PACK in one atomic command; when the bytes do not fit it writes neither half. -/
def Obligations.EncodeIsEncBitsThenPack : Prop :=
  ∀ (s : State) (cs : List Byte), s.codesValid = true → Memory.readRange s.symIn 0 s.symInLen = .ok cs → Encodable s cs →
    (s.codeStream cs).length ≤ s.cfg.bitCap →
    ((s.codeStream cs).length / 8 + 1 ≤ s.cfg.byteCap →
      ∃ t : State, exec .encode s = .next t ∧ runCommands [.encBits, .pack] s = .next t ∧
        t = { s with bits := t.bits, bitLen := (s.codeStream cs).length, bytes := t.bytes,
                     byteLen := (s.codeStream cs).length / 8 + 1 } ∧
        Memory.readRange t.bits 0 t.bitLen = .ok (s.codeStream cs) ∧
        Memory.readRange t.bytes 0 t.byteLen = .ok (packBits (s.codeStream cs))) ∧
    (s.cfg.byteCap < (s.codeStream cs).length / 8 + 1 → s.errCode = 0#8 →
      exec .encode s = .next { s with
        errCode := 0x0E#8, errOp := 0x52#8
        errInfo := BitVec.ofNat 32 ((s.codeStream cs).length / 8 + 1) })

/-- 45_encode_decode R172, R173: DEC_BITS on a bit string made of leaf paths and a rest that stops inside the tree. That a SYM_OUT byte is the symbol zero-extended is the model's reading (log 23). -/
def Obligations.DecBitsResult : Prop :=
  ∀ (s : State) (out : List (Symbol × Bits)) (tail : Bits), Inv s → s.treeValid = true →
    Memory.readRange s.bits 0 s.bitLen = .ok (out.flatMap Prod.snd ++ tail) →
    (∀ x ∈ out, LeadsTo s x.2 x.1) → LeadsInside s tail → out.length ≤ s.cfg.symCap →
    ∃ t : State, exec .decBits s = .next t ∧
      t = { s with symOut := t.symOut, symOutLen := out.length, decPartial := decide (tail ≠ []) } ∧
      Memory.readRange t.symOut 0 t.symOutLen = .ok (out.map fun x => x.1.setWidth 8) ∧
      (∀ i, out.length ≤ i → Memory.read t.symOut i = Memory.read s.symOut i)

/-- 45_encode_decode R172, 42_tree_builder R125: with a tree of two or more symbols every bit string that SYM_OUT can hold decodes without error. -/
def Obligations.DecBitsCompletesOnAnyBits : Prop :=
  ∀ (s : State) (b : Bits), Inv s → s.treeValid = true → 2 ≤ s.ftN → Memory.readRange s.bits 0 s.bitLen = .ok b →
    s.bitLen ≤ s.cfg.symCap →
    ∃ t : State, exec .decBits s = .next t ∧ t.errCode = s.errCode ∧ t.symOutLen ≤ s.bitLen ∧
      t = { s with symOut := t.symOut, symOutLen := t.symOutLen, decPartial := t.decPartial }

/-- 45_encode_decode R172, R173: DEC_BITS's errors: no tree, a step to an absent child at bit j, one symbol too many at bit j. -/
def Obligations.DecBitsErrors : Prop :=
  (∀ s : State, s.treeValid = false → s.errCode = 0#8 →
    exec .decBits s = .next { s with errCode := 0x09#8, errOp := 0x51#8, errInfo := 0#32 }) ∧
  (∀ (s : State) (j : Nat) (rest : Bits), Inv s → s.treeValid = true → s.errCode = 0#8 → s.ftN = 1 → j ≤ s.cfg.symCap →
    Memory.readRange s.bits 0 s.bitLen = .ok (List.replicate j false ++ [true] ++ rest) →
    exec .decBits s = .next { s with errCode := 0x10#8, errOp := 0x51#8, errInfo := BitVec.ofNat 32 j }) ∧
  (∀ (s : State) (out : List (Symbol × Bits)) (p rest : Bits) (c : Symbol), Inv s → s.treeValid = true → s.errCode = 0#8 →
    Memory.readRange s.bits 0 s.bitLen = .ok (out.flatMap Prod.snd ++ p ++ rest) → (∀ x ∈ out, LeadsTo s x.2 x.1) →
    LeadsTo s p c → out.length = s.cfg.symCap →
    exec .decBits s = .next { s with
      errCode := 0x11#8, errOp := 0x51#8
      errInfo := BitVec.ofNat 32 ((out.flatMap Prod.snd).length + p.length - 1) })

/-- 45_encode_decode R175: DECODE's result on a packed bit string that the tree decodes, equal to UNPACK and then DEC_BITS. That a SYM_OUT byte is the symbol zero-extended is the model's reading (log 23). -/
def Obligations.DecodeIsUnpackThenDecBits : Prop :=
  ∀ (s : State) (bs : List Byte) (out : List (Symbol × Bits)) (tail : Bits), Inv s → s.treeValid = true →
    Memory.readRange s.bytes 0 s.byteLen = .ok bs → packBits (out.flatMap Prod.snd ++ tail) = bs →
    (out.flatMap Prod.snd ++ tail).length ≤ s.cfg.bitCap →
    (∀ x ∈ out, LeadsTo s x.2 x.1) → LeadsInside s tail → out.length ≤ s.cfg.symCap →
    ∃ t : State, exec .decode s = .next t ∧ runCommands [.unpack, .decBits] s = .next t ∧
      t = { s with bits := t.bits, bitLen := (out.flatMap Prod.snd ++ tail).length, symOut := t.symOut,
                   symOutLen := out.length, decPartial := decide (tail ≠ []) } ∧
      Memory.readRange t.bits 0 t.bitLen = .ok (out.flatMap Prod.snd ++ tail) ∧
      Memory.readRange t.symOut 0 t.symOutLen = .ok (out.map fun x => x.1.setWidth 8)

/-- 45_encode_decode R175, 60_exceptions R206: DECODE's errors are those of its halves, in that order, with ERR.OP = 0x53 and nothing else changed. That this holds with no tree, against 70_reset R231's list, is the model's choice (log 27). -/
def Obligations.DecodeErrorOrder : Prop :=
  ∀ s : State, s.errCode = 0#8 →
    (∀ u : State, exec .unpack s = .next u → u.errCode ≠ 0#8 →
      exec .decode s = .next { s with errCode := u.errCode, errOp := 0x53#8, errInfo := u.errInfo }) ∧
    (∀ u v : State, exec .unpack s = .next u → u.errCode = 0#8 → exec .decBits u = .next v → v.errCode ≠ 0#8 →
      exec .decode s = .next { s with errCode := v.errCode, errOp := 0x53#8, errInfo := v.errInfo })

/-- 45_encode_decode R176: build the tree and the codes from the counts of a stream S, ENCODE S, then DECODE: if ENCODE succeeds, DECODE does and gives S back; ENCODE fails only for want of room. -/
def Obligations.EncodeDecodeRoundTrip : Prop :=
  ∀ (s : State) (text : List Symbol), Inv s → s.errCode = 0#8 → text ≠ [] →
    s.symInLen = text.length → Memory.readRange s.symIn 0 s.symInLen = .ok (text.map fun c => c.setWidth 8) →
    (∀ c ∈ text, ∃ e ∈ s.table, e.sym = c) → (∀ e ∈ s.table, e.weight.toNat = text.count e.sym) →
    ∃ t u : State, runCommands [.tbBuild, .ctGen] s = .next t ∧ t.errCode = 0#8 ∧ exec .encode t = .next u ∧
      (u.errCode = 0#8 → ∃ v : State, exec .decode u = .next v ∧ v.errCode = 0#8 ∧
        Memory.readRange v.symOut 0 v.symOutLen = .ok (text.map fun c => c.setWidth 8) ∧ v.decPartial = false) ∧
      (u.errCode ≠ 0#8 → u.errCode = 0x0D#8 ∨ u.errCode = 0x0E#8)

/-! ## Frames and whole-machine rules -/

/-- What each command leaves alone, register by register and memory by memory: every field is unchanged but for the commands named beside it; the error registers change only when the command raises an error, which changes nothing else; SYM_OUT, BITS and BYTES change only below the new length (10_state R22 to R47, 92 D29). -/
def Obligations.CommandFrames : Prop :=
  ∀ (i : Instr) (s t : State), exec i s = .next t →
    (t.cfg = s.cfg ∧ t.symIn = s.symIn ∧ t.busy = s.busy ∧ t.busyPolls = s.busyPolls ∧ t.pending = s.pending ∧
      t.shown = s.shown ∧ t.draws = s.draws) ∧
    (i ≠ .sreset → t.arg = s.arg ∧ t.symInLen = s.symInLen) ∧
    (i ≠ .sreset → i ≠ .clrerr →
      (t.errCode = s.errCode ∧ t.errOp = s.errOp ∧ t.errInfo = s.errInfo) ∨
      t = { s with errCode := t.errCode, errOp := t.errOp, errInfo := t.errInfo }) ∧
    (i ∉ [.sreset, .ftClear] → (∀ sym, i ≠ .ftAppend sym) → t.ftN = s.ftN) ∧
    (i ∉ [.sreset, .ftClear, .tbInit, .tbStep, .tbBuild] → (∀ sym, i ≠ .ftAppend sym) →
      t.tbState = s.tbState ∧ t.srcHead = s.srcHead ∧ t.tgtHead = s.tgtHead ∧ t.nodeN = s.nodeN ∧ t.root = s.root ∧
      t.treeValid = s.treeValid) ∧
    (i ∉ [.sreset, .ftClear, .tbInit, .tbBuild, .ctGen] → (∀ sym, i ≠ .ftAppend sym) → t.codesValid = s.codesValid) ∧
    (i ∉ [.sreset, .decBits, .decode] → t.symOutLen = s.symOutLen) ∧
    (i ∉ [.sreset, .encBits, .encode, .unpack, .decode] → t.bitLen = s.bitLen) ∧
    (i ∉ [.sreset, .pack, .encode] → t.byteLen = s.byteLen) ∧
    ((∀ sym, i ≠ .ftAppend sym) → t.ft = s.ft) ∧
    (∀ a, a ≠ s.ftN → Memory.read t.ft a = Memory.read s.ft a) ∧
    (i ∉ [.tbInit, .tbStep, .tbBuild] → t.nodes = s.nodes) ∧
    (i ≠ .ctGen → t.codes = s.codes) ∧
    (i ∉ [.decBits, .decode] → t.symOut = s.symOut ∧ (i ≠ .sreset → t.decPartial = s.decPartial)) ∧
    (∀ a, t.symOutLen ≤ a → Memory.read t.symOut a = Memory.read s.symOut a) ∧
    (i ∉ [.encBits, .encode, .unpack, .decode] → t.bits = s.bits) ∧
    (∀ a, t.bitLen ≤ a → Memory.read t.bits a = Memory.read s.bits a) ∧
    (i ∉ [.pack, .encode] → t.bytes = s.bytes) ∧
    (∀ a, t.byteLen ≤ a → Memory.read t.bytes a = Memory.read s.bytes a)

/-- 00_scope R7, 10_state R41: the parameters, and so ID and the CAP registers, never change. -/
def Obligations.ParametersNeverChange : Prop :=
  ∀ s t : State, step s = .next t → t.cfg = s.cfg

/-- 70_reset R245: a complete tree stays in node memory until FT_CLEAR, FT_APPEND, TB_INIT, TB_BUILD, SRESET or hardware reset. -/
def Obligations.TreePersists : Prop :=
  ∀ (s t : State) (a : HostAction) (rest : List HostAction), BuilderForm s → s.treeValid = true → s.pending = a :: rest →
    step s = .next t → a ≠ .hwReset →
    (∀ i : Instr, i.WellFormed → a = cmdWrite s.cfg (encode i) →
      i ≠ .ftClear ∧ (∀ sym, i ≠ .ftAppend sym) ∧ i ≠ .tbInit ∧ i ≠ .tbBuild ∧ i ≠ .sreset) →
    t.treeValid = true ∧ t.nodes = s.nodes ∧ t.root = s.root

/-- Every memory stays in canonical form and within its size, under weaker premises than the whole invariant. -/
def Obligations.StepKeepsMemoryForm : Prop :=
  ∀ s t : State, s.cfg.wf → s.ftN ≤ 128 → MemoryForm s → step s = .next t → t.ftN ≤ 128 ∧ MemoryForm t

/-- 70_reset R230, 10_state R48: the reset state satisfies the invariant, for every choice of the parameters. -/
def Obligations.ResetSatisfiesInv : Prop :=
  Params.defaults.wf ∧ ∀ p : Params, p.wf → Inv (State.resetWith p)

/-- 10_state R48, 41_freq_table R113, 42_tree_builder R125 to R129: every step keeps the invariant, from every state that has it. -/
def Obligations.StepKeepsInv : Prop :=
  ∀ s t : State, Inv s → step s = .next t → Inv t

/-- 70_reset R230, 93 I1, I2: from a state with the invariant the machine stops only by a host's mistake, never inside the block. -/
def Obligations.OnlyHostMistakesFault : Prop :=
  ∀ (s : State) (f : Fault), Inv s → step s = .fault f → HostMistake s f
end

