-- ==== Sys2Proof/Laws/Bits.lean ====
section
/-! SUPPORT. Bytes, bit strings and codes: the conversions undo each other. -/

namespace Sys2Proof.Machine

/-! ## Bytes -/

@[simp] theorem expand_length (v : Byte) : (expand v).length = 8 := rfl

@[simp] theorem byteOf_expand (v : Byte) :
    byteOf (v.getMsbD 0) (v.getMsbD 1) (v.getMsbD 2) (v.getMsbD 3) (v.getMsbD 4) (v.getMsbD 5) (v.getMsbD 6) (v.getMsbD 7) = v := by
  revert v; decide +kernel

@[simp] theorem expand_byteOf (b7 b6 b5 b4 b3 b2 b1 b0 : Bool) :
    expand (byteOf b7 b6 b5 b4 b3 b2 b1 b0) = [b7, b6, b5, b4, b3, b2, b1, b0] := by
  revert b7 b6 b5 b4 b3 b2 b1 b0; decide +kernel

@[simp] theorem expandAll_nil : expandAll [] = [] := rfl

@[simp] theorem expandAll_cons (v : Byte) (vs : List Byte) : expandAll (v :: vs) = expand v ++ expandAll vs := rfl

theorem expandAll_length (bs : List Byte) : (expandAll bs).length = 8 * bs.length := by
  induction bs with
  | nil => rfl
  | cons v vs ih => simp [ih]; omega

/-- Grouping the expansion of bytes gives the bytes back. -/
theorem groupBytes_expandAll (bs : List Byte) : groupBytes (expandAll bs) = bs := by
  induction bs with
  | nil => rfl
  | cons v vs ih => simp [expand, groupBytes, ih]

/-- A bit string whose length is a multiple of 8 is the expansion of some bytes. -/
theorem exists_expandAll (n : Nat) (b : Bits) (h : b.length = 8 * n) : ∃ bs, b = expandAll bs ∧ bs.length = n := by
  induction n generalizing b with
  | zero => exact ⟨[], by simpa using h, rfl⟩
  | succ n ih =>
    match b, h with
    | b7 :: b6 :: b5 :: b4 :: b3 :: b2 :: b1 :: b0 :: rest, h =>
      obtain ⟨bs, hbs, hl⟩ := ih rest (by simp at h; omega)
      exact ⟨byteOf b7 b6 b5 b4 b3 b2 b1 b0 :: bs, by simp [hbs], by simp [hl]⟩

/-- Expanding the groups of a bit string whose length is a multiple of 8 gives it back. -/
theorem expandAll_groupBytes {n : Nat} {b : Bits} (h : b.length = 8 * n) : expandAll (groupBytes b) = b := by
  obtain ⟨bs, rfl, _⟩ := exists_expandAll n b h
  rw [groupBytes_expandAll]

theorem groupBytes_length {n : Nat} {b : Bits} (h : b.length = 8 * n) : (groupBytes b).length = n := by
  obtain ⟨bs, rfl, hl⟩ := exists_expandAll n b h
  rw [groupBytes_expandAll, hl]

theorem expandAll_injective {bs cs : List Byte} (h : expandAll bs = expandAll cs) : bs = cs := by
  rw [← groupBytes_expandAll bs, h, groupBytes_expandAll]

theorem leadingZeros_le (v : Byte) : leadingZeros v ≤ 8 := by revert v; decide +kernel

/-- A non-zero byte is its leading zeros, a one, and the rest. -/
theorem expand_of_ne_zero {v : Byte} (h : v ≠ 0x00#8) :
    leadingZeros v < 8 ∧
      expand v = List.replicate (leadingZeros v) false ++ [true] ++ (expand v).drop (leadingZeros v + 1) := by
  revert h; revert v; decide +kernel

/-! ## Padding -/

theorem padding_pos (n : Nat) : 1 ≤ padding n ∧ padding n ≤ 8 := by unfold padding; omega

theorem padded_length (n : Nat) : padding n - 1 + 1 + n = 8 * packedLength n := by
  unfold padding packedLength; omega

/-! ## Codes -/

@[simp] theorem CodeEntry.bits_length (e : CodeEntry) : e.bits.length = e.len.toNat := by simp [CodeEntry.bits]

theorem CodeEntry.bits_getElem? (e : CodeEntry) (j : Nat) :
    e.bits[j]? = if j < e.len.toNat then some (e.code.getMsbD j) else none := by
  by_cases h : j < e.len.toNat
  · simp [CodeEntry.bits, h]
  · simp [CodeEntry.bits, h]

/-- CODE holds the path and then zeros. -/
theorem codeOfPath_getMsbD {p : Bits} (h : p.length ≤ 128) (j : Nat) : (codeOfPath p).getMsbD j = p.getD j false := by
  have hl : (p ++ List.replicate (128 - p.length) false).length = 128 := by simp; omega
  unfold codeOfPath
  rw [BitVec.getMsbD_setWidth, BitVec.getMsbD_ofBoolListBE]
  simp only [hl, Nat.sub_self, Nat.zero_le, decide_true, Bool.true_and, List.getD_eq_getElem?_getD,
    List.getElem?_append, List.getElem?_replicate, Nat.add_sub_cancel]
  split
  · simp
  · rename_i hj
    rw [List.getElem?_eq_none (l := p) (by omega)]
    split <;> simp

/-- The entry a leaf gets spells its path. -/
theorem entryOfPath_bits {p : Bits} (h : p.length ≤ 127) : (entryOfPath p).bits = p := by
  have hl : (entryOfPath p).len.toNat = p.length := by
    simp only [entryOfPath, BitVec.toNat_ofNat]; omega
  apply List.ext_getElem?
  intro j
  rw [CodeEntry.bits_getElem?, hl]
  by_cases hj : j < p.length
  · rw [if_pos hj]
    show some ((codeOfPath p).getMsbD j) = p[j]?
    rw [codeOfPath_getMsbD (by omega)]
    simp [List.getD_eq_getElem?_getD, hj]
  · rw [if_neg hj, List.getElem?_eq_none (by omega)]

end Sys2Proof.Machine
end

