-- ==== Sys2Proof/Laws/Memory.lean ====
section
/-! SUPPORT. The laws of memories: read after write, the canonical form kept, ranges. -/

namespace Sys2Proof.Machine

variable {α : Type}

/-! ## One element -/

@[simp] theorem Memory.read_nil (a : Nat) : Memory.read ([] : Memory α) a = none := rfl

@[simp] theorem Memory.read_write_same (m : Memory α) (a : Nat) (v : α) : Memory.read (Memory.write m a v) a = some v := by
  induction m with
  | nil => simp [Memory.write, Memory.read]
  | cons x m ih =>
    obtain ⟨b, w⟩ := x
    rcases lt_trichotomy a b with h | h | h
    · simp [Memory.write, Memory.read, h]
    · simp [Memory.write, Memory.read, h]
    · have hn : ¬ a < b := by omega
      have hne : a ≠ b := by omega
      simp [Memory.write, Memory.read, hn, hne, ih]

theorem Memory.read_write_other (m : Memory α) {a c : Nat} (v : α) (h : c ≠ a) :
    Memory.read (Memory.write m a v) c = Memory.read m c := by
  induction m with
  | nil => simp [Memory.write, Memory.read, h]
  | cons x m ih =>
    obtain ⟨b, w⟩ := x
    rcases lt_trichotomy a b with hb | hb | hb
    · simp [Memory.write, Memory.read, hb, h]
    · subst hb; simp [Memory.write, Memory.read, h]
    · have hn : ¬ a < b := by omega
      have hne : a ≠ b := by omega
      by_cases hc : c = b <;> simp [Memory.write, Memory.read, hn, hne, hc, ih]

/-- Read after write, as one equation. -/
theorem Memory.read_write (m : Memory α) (a c : Nat) (v : α) :
    Memory.read (Memory.write m a v) c = if c = a then some v else Memory.read m c := by
  by_cases h : c = a
  · subst h; simp
  · simp [h, Memory.read_write_other m v h]

/-- What stands in a memory after a write stood there before or is the new entry. -/
theorem Memory.mem_write {m : Memory α} {a : Nat} {v : α} {x : Nat × α} (h : x ∈ Memory.write m a v) :
    x = (a, v) ∨ x ∈ m := by
  induction m with
  | nil => simpa [Memory.write] using h
  | cons y m ih =>
    obtain ⟨b, w⟩ := y
    unfold Memory.write at h
    split at h
    · simpa using h
    · split at h
      · rcases List.mem_cons.mp h with h | h
        · exact .inl h
        · exact .inr (by simp [h])
      · rcases List.mem_cons.mp h with h | h
        · exact .inr (by simp [h])
        · rcases ih h with h | h
          · exact .inl h
          · exact .inr (by simp [h])

/-- A write keeps the canonical form. -/
theorem Memory.wf_write {m : Memory α} (h : Memory.wf m) (a : Nat) (v : α) : Memory.wf (Memory.write m a v) := by
  induction m with
  | nil => simp [Memory.write, Memory.wf]
  | cons y m ih =>
    obtain ⟨b, w⟩ := y
    have hm := List.pairwise_cons.mp h
    unfold Memory.write
    split
    case isTrue hab =>
      refine List.pairwise_cons.mpr ⟨fun x hx => ?_, h⟩
      rcases List.mem_cons.mp hx with rfl | hx
      · exact hab
      · exact Nat.lt_trans hab (hm.1 x hx)
    case isFalse hab =>
      split
      case isTrue hb => subst hb; exact List.pairwise_cons.mpr ⟨hm.1, hm.2⟩
      case isFalse hb =>
        refine List.pairwise_cons.mpr ⟨fun x hx => ?_, ih hm.2⟩
        rcases Memory.mem_write hx with rfl | hx
        · simp only; omega
        · exact hm.1 x hx

/-- A write inside the memory stays inside it. -/
theorem Memory.below_write {m : Memory α} {n : Nat} (h : Memory.below n m) {a : Nat} (ha : a < n) (v : α) :
    Memory.below n (Memory.write m a v) := by
  intro x hx
  rcases Memory.mem_write hx with rfl | hx
  · exact ha
  · exact h x hx

/-- In canonical form an index below the first entry is unwritten. -/
theorem Memory.read_eq_none_of_lt {m : Memory α} {a : Nat} (h : ∀ x ∈ m, a < x.1) : Memory.read m a = none := by
  induction m with
  | nil => rfl
  | cons y m ih =>
    obtain ⟨b, w⟩ := y
    have hb : a < b := h (b, w) (by simp)
    have hne : a ≠ b := by omega
    simp [Memory.read, hne, ih fun x hx => h x (by simp [hx])]

/-- An index outside the memory is unwritten. -/
theorem Memory.read_eq_none_of_below {m : Memory α} {n a : Nat} (h : Memory.below n m) (ha : n ≤ a) : Memory.read m a = none := by
  induction m with
  | nil => rfl
  | cons y m ih =>
    obtain ⟨b, w⟩ := y
    have hb : b < n := h (b, w) (by simp)
    have hne : a ≠ b := by omega
    simp [Memory.read, hne, ih fun x hx => h x (by simp [hx])]

/-- Equal memories are equal data: two canonical memories that read alike are the same list. -/
theorem Memory.ext_of_wf {m m' : Memory α} (h : Memory.wf m) (h' : Memory.wf m')
    (hr : ∀ a, Memory.read m a = Memory.read m' a) : m = m' := by
  induction m generalizing m' with
  | nil =>
    cases m' with
    | nil => rfl
    | cons y m' => have := hr y.1; simp [Memory.read] at this
  | cons x m ih =>
    obtain ⟨a, v⟩ := x
    have hx := List.pairwise_cons.mp h
    cases m' with
    | nil => have := hr a; simp [Memory.read] at this
    | cons y m' =>
      obtain ⟨b, w⟩ := y
      have hy := List.pairwise_cons.mp h'
      have hab : a = b := by
        rcases lt_trichotomy a b with hlt | heq | hgt
        · have h1 := hr a
          rw [Memory.read_eq_none_of_lt (m := (b, w) :: m')] at h1
          · simp [Memory.read] at h1
          · intro z hz
            rcases List.mem_cons.mp hz with rfl | hz
            · exact hlt
            · exact Nat.lt_trans hlt (hy.1 z hz)
        · exact heq
        · have h1 := hr b
          rw [Memory.read_eq_none_of_lt (m := (a, v) :: m)] at h1
          · simp [Memory.read] at h1
          · intro z hz
            rcases List.mem_cons.mp hz with rfl | hz
            · exact hgt
            · exact Nat.lt_trans hgt (hx.1 z hz)
      subst hab
      have hvw : v = w := by simpa [Memory.read] using hr a
      subst hvw
      have : m = m' := by
        refine ih hx.2 hy.2 fun c => ?_
        by_cases hc : c = a
        · subst hc
          rw [Memory.read_eq_none_of_lt hx.1, Memory.read_eq_none_of_lt hy.1]
        · simpa [Memory.read, hc] using hr c
      rw [this]

/-! ## Ranges -/

@[simp] theorem Memory.readRange_zero (m : Memory α) (a : Nat) : Memory.readRange m a 0 = .ok [] := rfl

/-- A range reads ok exactly when each of its elements does. -/
theorem Memory.readRange_eq_ok_iff (m : Memory α) (a n : Nat) (vs : List α) :
    Memory.readRange m a n = .ok vs ↔ vs.length = n ∧ ∀ i < n, Memory.read m (a + i) = vs[i]? := by
  induction n generalizing a vs with
  | zero =>
    cases vs with
    | nil => simp
    | cons v vs => simp
  | succ n ih =>
    unfold Memory.readRange
    cases hr : Memory.read m a with
    | none =>
      simp only [reduceCtorEq, false_iff, not_and]
      intro hl hall
      have := hall 0 (by omega)
      cases vs with
      | nil => simp at hl
      | cons v vs => simp [hr] at this
    | some v =>
      cases hrest : Memory.readRange m (a + 1) n with
      | error i =>
        simp only [reduceCtorEq, false_iff, not_and]
        intro hl hall
        cases vs with
        | nil => simp at hl
        | cons w vs =>
          have hok := (ih (a + 1) vs).mpr ⟨by simpa using hl, fun i hi => by
            have := hall (i + 1) (by omega)
            simpa [Nat.add_assoc, Nat.add_comm 1 i] using this⟩
          rw [hrest] at hok
          cases hok
      | ok us =>
        obtain ⟨hul, huall⟩ := (ih (a + 1) us).mp hrest
        simp only [Except.ok.injEq]
        constructor
        · rintro rfl
          refine ⟨by simp [hul], fun i hi => ?_⟩
          cases i with
          | zero => simp [hr]
          | succ i =>
            have := huall i (by omega)
            simpa [Nat.add_assoc, Nat.add_comm 1 i] using this
        · rintro ⟨hl, hall⟩
          cases vs with
          | nil => simp at hl
          | cons w vs =>
            have h0 := hall 0 (by omega)
            simp [hr] at h0
            have hok := (ih (a + 1) vs).mpr ⟨by simpa using hl, fun i hi => by
              have := hall (i + 1) (by omega)
              simpa [Nat.add_assoc, Nat.add_comm 1 i] using this⟩
            rw [hrest] at hok
            simp only [Except.ok.injEq] at hok
            rw [h0, hok]

/-- A range that reads ok has the length asked for. -/
theorem Memory.readRange_length {m : Memory α} {a n : Nat} {vs : List α} (h : Memory.readRange m a n = .ok vs) :
    vs.length = n := ((Memory.readRange_eq_ok_iff m a n vs).mp h).1

/-- A range fails at an index in it that was never written. -/
theorem Memory.readRange_error {m : Memory α} {a n i : Nat} (h : Memory.readRange m a n = .error i) :
    a ≤ i ∧ i < a + n ∧ Memory.read m i = none := by
  induction n generalizing a with
  | zero => simp at h
  | succ n ih =>
    unfold Memory.readRange at h
    cases hr : Memory.read m a with
    | none =>
      simp [hr] at h
      subst h
      exact ⟨Nat.le_refl _, by omega, hr⟩
    | some v =>
      cases hrest : Memory.readRange m (a + 1) n with
      | error j =>
        simp [hr, hrest] at h
        subst h
        obtain ⟨h1, h2, h3⟩ := ih hrest
        exact ⟨by omega, by omega, h3⟩
      | ok us => simp [hr, hrest] at h

/-! ## Runs of writes -/

/-- Reading after a run of writes: the written value inside the run, the old one outside. -/
theorem Memory.read_writeList (m : Memory α) (a : Nat) (vs : List α) (c : Nat) :
    Memory.read (Memory.writeList m a vs) c = if a ≤ c ∧ c < a + vs.length then vs[c - a]? else Memory.read m c := by
  induction vs generalizing m a with
  | nil =>
    have : ¬ (a ≤ c ∧ c < a + ([] : List α).length) := by simp
    simp [Memory.writeList]
  | cons v vs ih =>
    rw [Memory.writeList, ih, Memory.read_write]
    by_cases h1 : a + 1 ≤ c ∧ c < a + 1 + vs.length
    · have h2 : a ≤ c ∧ c < a + (v :: vs).length := by simp only [List.length_cons]; omega
      have h3 : c - a = (c - (a + 1)) + 1 := by omega
      rw [if_pos h1, if_pos h2, h3, List.getElem?_cons_succ]
    · rw [if_neg h1]
      by_cases hc : c = a
      · subst hc
        simp
      · have h2 : ¬ (a ≤ c ∧ c < a + (v :: vs).length) := by simp only [List.length_cons]; omega
        rw [if_neg hc, if_neg h2]

/-- A run of writes leaves everything outside the run alone. -/
theorem Memory.read_writeList_outside (m : Memory α) {a : Nat} {vs : List α} {c : Nat} (h : c < a ∨ a + vs.length ≤ c) :
    Memory.read (Memory.writeList m a vs) c = Memory.read m c := by
  rw [Memory.read_writeList, if_neg (by omega)]

theorem Memory.wf_writeList {m : Memory α} (h : Memory.wf m) (a : Nat) (vs : List α) : Memory.wf (Memory.writeList m a vs) := by
  induction vs generalizing m a with
  | nil => exact h
  | cons v vs ih => exact ih (Memory.wf_write h a v) (a + 1)

theorem Memory.below_writeList {m : Memory α} {n : Nat} (h : Memory.below n m) {a : Nat} {vs : List α}
    (hn : a + vs.length ≤ n) : Memory.below n (Memory.writeList m a vs) := by
  induction vs generalizing m a with
  | nil => exact h
  | cons v vs ih =>
    simp only [List.length_cons] at hn
    exact ih (Memory.below_write h (by omega) v) (by omega)

/-- What was just written reads back as a range. -/
theorem Memory.readRange_writeList (m : Memory α) (a : Nat) (vs : List α) :
    Memory.readRange (Memory.writeList m a vs) a vs.length = .ok vs := by
  rw [Memory.readRange_eq_ok_iff]
  refine ⟨rfl, fun i hi => ?_⟩
  rw [Memory.read_writeList, if_pos (by omega), Nat.add_sub_cancel_left]

/-! ## Tabulated memories -/

theorem Memory.read_map_of_nodup {l : List Nat} (f : Nat → α) (a : Nat) :
    Memory.read (l.map fun i => (i, f i)) a = if a ∈ l then some (f a) else none := by
  induction l with
  | nil => rfl
  | cons b l ih =>
    by_cases h : a = b
    · subst h; simp [Memory.read]
    · simp [Memory.read, h, ih]

@[simp] theorem Memory.read_tabulate (n : Nat) (f : Nat → α) (a : Nat) :
    Memory.read (Memory.tabulate n f) a = if a < n then some (f a) else none := by
  rw [Memory.tabulate, Memory.read_map_of_nodup]
  simp

theorem Memory.wf_tabulate (n : Nat) (f : Nat → α) : Memory.wf (Memory.tabulate n f) := by
  unfold Memory.wf Memory.tabulate
  rw [List.pairwise_map]
  exact List.pairwise_lt_range

theorem Memory.below_tabulate (n : Nat) (f : Nat → α) : Memory.below n (Memory.tabulate n f) := by
  intro x hx
  obtain ⟨i, hi, rfl⟩ := List.mem_map.mp hx
  exact List.mem_range.mp hi

end Sys2Proof.Machine
end

