-- ==== Sys2Proof/Laws/State.lean ====
section
/-! SUPPORT. One lemma per field per named update of State, so that no proof unfolds a record update. -/

namespace Sys2Proof.Machine

/-! ## clearError: CLRERR's update (40_control R102) -/

@[simp] theorem State.clearError_cfg (s : State) : s.clearError.cfg = s.cfg := rfl
@[simp] theorem State.clearError_arg (s : State) : s.clearError.arg = s.arg := rfl
@[simp] theorem State.clearError_busy (s : State) : s.clearError.busy = s.busy := rfl
@[simp] theorem State.clearError_busyPolls (s : State) : s.clearError.busyPolls = s.busyPolls := rfl
@[simp] theorem State.clearError_errCode (s : State) : s.clearError.errCode = 0#8 := rfl
@[simp] theorem State.clearError_errOp (s : State) : s.clearError.errOp = 0#8 := rfl
@[simp] theorem State.clearError_errInfo (s : State) : s.clearError.errInfo = 0#32 := rfl
@[simp] theorem State.clearError_ftN (s : State) : s.clearError.ftN = s.ftN := rfl
@[simp] theorem State.clearError_tbState (s : State) : s.clearError.tbState = s.tbState := rfl
@[simp] theorem State.clearError_srcHead (s : State) : s.clearError.srcHead = s.srcHead := rfl
@[simp] theorem State.clearError_tgtHead (s : State) : s.clearError.tgtHead = s.tgtHead := rfl
@[simp] theorem State.clearError_nodeN (s : State) : s.clearError.nodeN = s.nodeN := rfl
@[simp] theorem State.clearError_root (s : State) : s.clearError.root = s.root := rfl
@[simp] theorem State.clearError_treeValid (s : State) : s.clearError.treeValid = s.treeValid := rfl
@[simp] theorem State.clearError_codesValid (s : State) : s.clearError.codesValid = s.codesValid := rfl
@[simp] theorem State.clearError_decPartial (s : State) : s.clearError.decPartial = s.decPartial := rfl
@[simp] theorem State.clearError_symInLen (s : State) : s.clearError.symInLen = s.symInLen := rfl
@[simp] theorem State.clearError_symOutLen (s : State) : s.clearError.symOutLen = s.symOutLen := rfl
@[simp] theorem State.clearError_bitLen (s : State) : s.clearError.bitLen = s.bitLen := rfl
@[simp] theorem State.clearError_byteLen (s : State) : s.clearError.byteLen = s.byteLen := rfl
@[simp] theorem State.clearError_ft (s : State) : s.clearError.ft = s.ft := rfl
@[simp] theorem State.clearError_nodes (s : State) : s.clearError.nodes = s.nodes := rfl
@[simp] theorem State.clearError_codes (s : State) : s.clearError.codes = s.codes := rfl
@[simp] theorem State.clearError_symIn (s : State) : s.clearError.symIn = s.symIn := rfl
@[simp] theorem State.clearError_symOut (s : State) : s.clearError.symOut = s.symOut := rfl
@[simp] theorem State.clearError_bits (s : State) : s.clearError.bits = s.bits := rfl
@[simp] theorem State.clearError_bytes (s : State) : s.clearError.bytes = s.bytes := rfl
@[simp] theorem State.clearError_pending (s : State) : s.clearError.pending = s.pending := rfl
@[simp] theorem State.clearError_shown (s : State) : s.clearError.shown = s.shown := rfl
@[simp] theorem State.clearError_draws (s : State) : s.clearError.draws = s.draws := rfl

/-! ## invalidateTree: InvalidateTree (41_freq_table R110) -/

@[simp] theorem State.invalidateTree_cfg (s : State) : s.invalidateTree.cfg = s.cfg := rfl
@[simp] theorem State.invalidateTree_arg (s : State) : s.invalidateTree.arg = s.arg := rfl
@[simp] theorem State.invalidateTree_busy (s : State) : s.invalidateTree.busy = s.busy := rfl
@[simp] theorem State.invalidateTree_busyPolls (s : State) : s.invalidateTree.busyPolls = s.busyPolls := rfl
@[simp] theorem State.invalidateTree_errCode (s : State) : s.invalidateTree.errCode = s.errCode := rfl
@[simp] theorem State.invalidateTree_errOp (s : State) : s.invalidateTree.errOp = s.errOp := rfl
@[simp] theorem State.invalidateTree_errInfo (s : State) : s.invalidateTree.errInfo = s.errInfo := rfl
@[simp] theorem State.invalidateTree_ftN (s : State) : s.invalidateTree.ftN = s.ftN := rfl
@[simp] theorem State.invalidateTree_tbState (s : State) : s.invalidateTree.tbState = .idle := rfl
@[simp] theorem State.invalidateTree_srcHead (s : State) : s.invalidateTree.srcHead = 0 := rfl
@[simp] theorem State.invalidateTree_tgtHead (s : State) : s.invalidateTree.tgtHead = 0 := rfl
@[simp] theorem State.invalidateTree_nodeN (s : State) : s.invalidateTree.nodeN = 0 := rfl
@[simp] theorem State.invalidateTree_root (s : State) : s.invalidateTree.root = nilRef := rfl
@[simp] theorem State.invalidateTree_treeValid (s : State) : s.invalidateTree.treeValid = false := rfl
@[simp] theorem State.invalidateTree_codesValid (s : State) : s.invalidateTree.codesValid = false := rfl
@[simp] theorem State.invalidateTree_decPartial (s : State) : s.invalidateTree.decPartial = s.decPartial := rfl
@[simp] theorem State.invalidateTree_symInLen (s : State) : s.invalidateTree.symInLen = s.symInLen := rfl
@[simp] theorem State.invalidateTree_symOutLen (s : State) : s.invalidateTree.symOutLen = s.symOutLen := rfl
@[simp] theorem State.invalidateTree_bitLen (s : State) : s.invalidateTree.bitLen = s.bitLen := rfl
@[simp] theorem State.invalidateTree_byteLen (s : State) : s.invalidateTree.byteLen = s.byteLen := rfl
@[simp] theorem State.invalidateTree_ft (s : State) : s.invalidateTree.ft = s.ft := rfl
@[simp] theorem State.invalidateTree_nodes (s : State) : s.invalidateTree.nodes = s.nodes := rfl
@[simp] theorem State.invalidateTree_codes (s : State) : s.invalidateTree.codes = s.codes := rfl
@[simp] theorem State.invalidateTree_symIn (s : State) : s.invalidateTree.symIn = s.symIn := rfl
@[simp] theorem State.invalidateTree_symOut (s : State) : s.invalidateTree.symOut = s.symOut := rfl
@[simp] theorem State.invalidateTree_bits (s : State) : s.invalidateTree.bits = s.bits := rfl
@[simp] theorem State.invalidateTree_bytes (s : State) : s.invalidateTree.bytes = s.bytes := rfl
@[simp] theorem State.invalidateTree_pending (s : State) : s.invalidateTree.pending = s.pending := rfl
@[simp] theorem State.invalidateTree_shown (s : State) : s.invalidateTree.shown = s.shown := rfl
@[simp] theorem State.invalidateTree_draws (s : State) : s.invalidateTree.draws = s.draws := rfl

/-! ## clearTable: FT_CLEAR's update (41_freq_table R111) -/

@[simp] theorem State.clearTable_cfg (s : State) : s.clearTable.cfg = s.cfg := rfl
@[simp] theorem State.clearTable_arg (s : State) : s.clearTable.arg = s.arg := rfl
@[simp] theorem State.clearTable_busy (s : State) : s.clearTable.busy = s.busy := rfl
@[simp] theorem State.clearTable_busyPolls (s : State) : s.clearTable.busyPolls = s.busyPolls := rfl
@[simp] theorem State.clearTable_errCode (s : State) : s.clearTable.errCode = s.errCode := rfl
@[simp] theorem State.clearTable_errOp (s : State) : s.clearTable.errOp = s.errOp := rfl
@[simp] theorem State.clearTable_errInfo (s : State) : s.clearTable.errInfo = s.errInfo := rfl
@[simp] theorem State.clearTable_ftN (s : State) : s.clearTable.ftN = 0 := rfl
@[simp] theorem State.clearTable_tbState (s : State) : s.clearTable.tbState = .idle := rfl
@[simp] theorem State.clearTable_srcHead (s : State) : s.clearTable.srcHead = 0 := rfl
@[simp] theorem State.clearTable_tgtHead (s : State) : s.clearTable.tgtHead = 0 := rfl
@[simp] theorem State.clearTable_nodeN (s : State) : s.clearTable.nodeN = 0 := rfl
@[simp] theorem State.clearTable_root (s : State) : s.clearTable.root = nilRef := rfl
@[simp] theorem State.clearTable_treeValid (s : State) : s.clearTable.treeValid = false := rfl
@[simp] theorem State.clearTable_codesValid (s : State) : s.clearTable.codesValid = false := rfl
@[simp] theorem State.clearTable_decPartial (s : State) : s.clearTable.decPartial = s.decPartial := rfl
@[simp] theorem State.clearTable_symInLen (s : State) : s.clearTable.symInLen = s.symInLen := rfl
@[simp] theorem State.clearTable_symOutLen (s : State) : s.clearTable.symOutLen = s.symOutLen := rfl
@[simp] theorem State.clearTable_bitLen (s : State) : s.clearTable.bitLen = s.bitLen := rfl
@[simp] theorem State.clearTable_byteLen (s : State) : s.clearTable.byteLen = s.byteLen := rfl
@[simp] theorem State.clearTable_ft (s : State) : s.clearTable.ft = s.ft := rfl
@[simp] theorem State.clearTable_nodes (s : State) : s.clearTable.nodes = s.nodes := rfl
@[simp] theorem State.clearTable_codes (s : State) : s.clearTable.codes = s.codes := rfl
@[simp] theorem State.clearTable_symIn (s : State) : s.clearTable.symIn = s.symIn := rfl
@[simp] theorem State.clearTable_symOut (s : State) : s.clearTable.symOut = s.symOut := rfl
@[simp] theorem State.clearTable_bits (s : State) : s.clearTable.bits = s.bits := rfl
@[simp] theorem State.clearTable_bytes (s : State) : s.clearTable.bytes = s.bytes := rfl
@[simp] theorem State.clearTable_pending (s : State) : s.clearTable.pending = s.pending := rfl
@[simp] theorem State.clearTable_shown (s : State) : s.clearTable.shown = s.shown := rfl
@[simp] theorem State.clearTable_draws (s : State) : s.clearTable.draws = s.draws := rfl

/-! ## appendEntry: FT_APPEND's update (41_freq_table R112) -/

@[simp] theorem State.appendEntry_cfg (s : State) (e : FtEntry) : (s.appendEntry e).cfg = s.cfg := rfl
@[simp] theorem State.appendEntry_arg (s : State) (e : FtEntry) : (s.appendEntry e).arg = s.arg := rfl
@[simp] theorem State.appendEntry_busy (s : State) (e : FtEntry) : (s.appendEntry e).busy = s.busy := rfl
@[simp] theorem State.appendEntry_busyPolls (s : State) (e : FtEntry) : (s.appendEntry e).busyPolls = s.busyPolls := rfl
@[simp] theorem State.appendEntry_errCode (s : State) (e : FtEntry) : (s.appendEntry e).errCode = s.errCode := rfl
@[simp] theorem State.appendEntry_errOp (s : State) (e : FtEntry) : (s.appendEntry e).errOp = s.errOp := rfl
@[simp] theorem State.appendEntry_errInfo (s : State) (e : FtEntry) : (s.appendEntry e).errInfo = s.errInfo := rfl
@[simp] theorem State.appendEntry_ftN (s : State) (e : FtEntry) : (s.appendEntry e).ftN = s.ftN + 1 := rfl
@[simp] theorem State.appendEntry_tbState (s : State) (e : FtEntry) : (s.appendEntry e).tbState = .idle := rfl
@[simp] theorem State.appendEntry_srcHead (s : State) (e : FtEntry) : (s.appendEntry e).srcHead = 0 := rfl
@[simp] theorem State.appendEntry_tgtHead (s : State) (e : FtEntry) : (s.appendEntry e).tgtHead = 0 := rfl
@[simp] theorem State.appendEntry_nodeN (s : State) (e : FtEntry) : (s.appendEntry e).nodeN = 0 := rfl
@[simp] theorem State.appendEntry_root (s : State) (e : FtEntry) : (s.appendEntry e).root = nilRef := rfl
@[simp] theorem State.appendEntry_treeValid (s : State) (e : FtEntry) : (s.appendEntry e).treeValid = false := rfl
@[simp] theorem State.appendEntry_codesValid (s : State) (e : FtEntry) : (s.appendEntry e).codesValid = false := rfl
@[simp] theorem State.appendEntry_decPartial (s : State) (e : FtEntry) : (s.appendEntry e).decPartial = s.decPartial := rfl
@[simp] theorem State.appendEntry_symInLen (s : State) (e : FtEntry) : (s.appendEntry e).symInLen = s.symInLen := rfl
@[simp] theorem State.appendEntry_symOutLen (s : State) (e : FtEntry) : (s.appendEntry e).symOutLen = s.symOutLen := rfl
@[simp] theorem State.appendEntry_bitLen (s : State) (e : FtEntry) : (s.appendEntry e).bitLen = s.bitLen := rfl
@[simp] theorem State.appendEntry_byteLen (s : State) (e : FtEntry) : (s.appendEntry e).byteLen = s.byteLen := rfl
@[simp] theorem State.appendEntry_ft (s : State) (e : FtEntry) : (s.appendEntry e).ft = Memory.write s.ft s.ftN e := rfl
@[simp] theorem State.appendEntry_nodes (s : State) (e : FtEntry) : (s.appendEntry e).nodes = s.nodes := rfl
@[simp] theorem State.appendEntry_codes (s : State) (e : FtEntry) : (s.appendEntry e).codes = s.codes := rfl
@[simp] theorem State.appendEntry_symIn (s : State) (e : FtEntry) : (s.appendEntry e).symIn = s.symIn := rfl
@[simp] theorem State.appendEntry_symOut (s : State) (e : FtEntry) : (s.appendEntry e).symOut = s.symOut := rfl
@[simp] theorem State.appendEntry_bits (s : State) (e : FtEntry) : (s.appendEntry e).bits = s.bits := rfl
@[simp] theorem State.appendEntry_bytes (s : State) (e : FtEntry) : (s.appendEntry e).bytes = s.bytes := rfl
@[simp] theorem State.appendEntry_pending (s : State) (e : FtEntry) : (s.appendEntry e).pending = s.pending := rfl
@[simp] theorem State.appendEntry_shown (s : State) (e : FtEntry) : (s.appendEntry e).shown = s.shown := rfl
@[simp] theorem State.appendEntry_draws (s : State) (e : FtEntry) : (s.appendEntry e).draws = s.draws := rfl

/-! ## startSingle: TB_INIT on one entry (42_tree_builder R122) -/

@[simp] theorem State.startSingle_cfg (s : State) (nodes : Memory Node) : (s.startSingle nodes).cfg = s.cfg := rfl
@[simp] theorem State.startSingle_arg (s : State) (nodes : Memory Node) : (s.startSingle nodes).arg = s.arg := rfl
@[simp] theorem State.startSingle_busy (s : State) (nodes : Memory Node) : (s.startSingle nodes).busy = s.busy := rfl
@[simp] theorem State.startSingle_busyPolls (s : State) (nodes : Memory Node) : (s.startSingle nodes).busyPolls = s.busyPolls := rfl
@[simp] theorem State.startSingle_errCode (s : State) (nodes : Memory Node) : (s.startSingle nodes).errCode = s.errCode := rfl
@[simp] theorem State.startSingle_errOp (s : State) (nodes : Memory Node) : (s.startSingle nodes).errOp = s.errOp := rfl
@[simp] theorem State.startSingle_errInfo (s : State) (nodes : Memory Node) : (s.startSingle nodes).errInfo = s.errInfo := rfl
@[simp] theorem State.startSingle_ftN (s : State) (nodes : Memory Node) : (s.startSingle nodes).ftN = s.ftN := rfl
@[simp] theorem State.startSingle_tbState (s : State) (nodes : Memory Node) : (s.startSingle nodes).tbState = .done := rfl
@[simp] theorem State.startSingle_srcHead (s : State) (nodes : Memory Node) : (s.startSingle nodes).srcHead = 1 := rfl
@[simp] theorem State.startSingle_tgtHead (s : State) (nodes : Memory Node) : (s.startSingle nodes).tgtHead = 2 := rfl
@[simp] theorem State.startSingle_nodeN (s : State) (nodes : Memory Node) : (s.startSingle nodes).nodeN = 2 := rfl
@[simp] theorem State.startSingle_root (s : State) (nodes : Memory Node) : (s.startSingle nodes).root = 1#8 := rfl
@[simp] theorem State.startSingle_treeValid (s : State) (nodes : Memory Node) : (s.startSingle nodes).treeValid = true := rfl
@[simp] theorem State.startSingle_codesValid (s : State) (nodes : Memory Node) : (s.startSingle nodes).codesValid = false := rfl
@[simp] theorem State.startSingle_decPartial (s : State) (nodes : Memory Node) : (s.startSingle nodes).decPartial = s.decPartial := rfl
@[simp] theorem State.startSingle_symInLen (s : State) (nodes : Memory Node) : (s.startSingle nodes).symInLen = s.symInLen := rfl
@[simp] theorem State.startSingle_symOutLen (s : State) (nodes : Memory Node) : (s.startSingle nodes).symOutLen = s.symOutLen := rfl
@[simp] theorem State.startSingle_bitLen (s : State) (nodes : Memory Node) : (s.startSingle nodes).bitLen = s.bitLen := rfl
@[simp] theorem State.startSingle_byteLen (s : State) (nodes : Memory Node) : (s.startSingle nodes).byteLen = s.byteLen := rfl
@[simp] theorem State.startSingle_ft (s : State) (nodes : Memory Node) : (s.startSingle nodes).ft = s.ft := rfl
@[simp] theorem State.startSingle_nodes (s : State) (nodes : Memory Node) : (s.startSingle nodes).nodes = nodes := rfl
@[simp] theorem State.startSingle_codes (s : State) (nodes : Memory Node) : (s.startSingle nodes).codes = s.codes := rfl
@[simp] theorem State.startSingle_symIn (s : State) (nodes : Memory Node) : (s.startSingle nodes).symIn = s.symIn := rfl
@[simp] theorem State.startSingle_symOut (s : State) (nodes : Memory Node) : (s.startSingle nodes).symOut = s.symOut := rfl
@[simp] theorem State.startSingle_bits (s : State) (nodes : Memory Node) : (s.startSingle nodes).bits = s.bits := rfl
@[simp] theorem State.startSingle_bytes (s : State) (nodes : Memory Node) : (s.startSingle nodes).bytes = s.bytes := rfl
@[simp] theorem State.startSingle_pending (s : State) (nodes : Memory Node) : (s.startSingle nodes).pending = s.pending := rfl
@[simp] theorem State.startSingle_shown (s : State) (nodes : Memory Node) : (s.startSingle nodes).shown = s.shown := rfl
@[simp] theorem State.startSingle_draws (s : State) (nodes : Memory Node) : (s.startSingle nodes).draws = s.draws := rfl

/-! ## startQueues: TB_INIT on several entries (42_tree_builder R122) -/

@[simp] theorem State.startQueues_cfg (s : State) (nodes : Memory Node) : (s.startQueues nodes).cfg = s.cfg := rfl
@[simp] theorem State.startQueues_arg (s : State) (nodes : Memory Node) : (s.startQueues nodes).arg = s.arg := rfl
@[simp] theorem State.startQueues_busy (s : State) (nodes : Memory Node) : (s.startQueues nodes).busy = s.busy := rfl
@[simp] theorem State.startQueues_busyPolls (s : State) (nodes : Memory Node) : (s.startQueues nodes).busyPolls = s.busyPolls := rfl
@[simp] theorem State.startQueues_errCode (s : State) (nodes : Memory Node) : (s.startQueues nodes).errCode = s.errCode := rfl
@[simp] theorem State.startQueues_errOp (s : State) (nodes : Memory Node) : (s.startQueues nodes).errOp = s.errOp := rfl
@[simp] theorem State.startQueues_errInfo (s : State) (nodes : Memory Node) : (s.startQueues nodes).errInfo = s.errInfo := rfl
@[simp] theorem State.startQueues_ftN (s : State) (nodes : Memory Node) : (s.startQueues nodes).ftN = s.ftN := rfl
@[simp] theorem State.startQueues_tbState (s : State) (nodes : Memory Node) : (s.startQueues nodes).tbState = .running := rfl
@[simp] theorem State.startQueues_srcHead (s : State) (nodes : Memory Node) : (s.startQueues nodes).srcHead = 0 := rfl
@[simp] theorem State.startQueues_tgtHead (s : State) (nodes : Memory Node) : (s.startQueues nodes).tgtHead = s.ftN := rfl
@[simp] theorem State.startQueues_nodeN (s : State) (nodes : Memory Node) : (s.startQueues nodes).nodeN = s.ftN := rfl
@[simp] theorem State.startQueues_root (s : State) (nodes : Memory Node) : (s.startQueues nodes).root = nilRef := rfl
@[simp] theorem State.startQueues_treeValid (s : State) (nodes : Memory Node) : (s.startQueues nodes).treeValid = false := rfl
@[simp] theorem State.startQueues_codesValid (s : State) (nodes : Memory Node) : (s.startQueues nodes).codesValid = false := rfl
@[simp] theorem State.startQueues_decPartial (s : State) (nodes : Memory Node) : (s.startQueues nodes).decPartial = s.decPartial := rfl
@[simp] theorem State.startQueues_symInLen (s : State) (nodes : Memory Node) : (s.startQueues nodes).symInLen = s.symInLen := rfl
@[simp] theorem State.startQueues_symOutLen (s : State) (nodes : Memory Node) : (s.startQueues nodes).symOutLen = s.symOutLen := rfl
@[simp] theorem State.startQueues_bitLen (s : State) (nodes : Memory Node) : (s.startQueues nodes).bitLen = s.bitLen := rfl
@[simp] theorem State.startQueues_byteLen (s : State) (nodes : Memory Node) : (s.startQueues nodes).byteLen = s.byteLen := rfl
@[simp] theorem State.startQueues_ft (s : State) (nodes : Memory Node) : (s.startQueues nodes).ft = s.ft := rfl
@[simp] theorem State.startQueues_nodes (s : State) (nodes : Memory Node) : (s.startQueues nodes).nodes = nodes := rfl
@[simp] theorem State.startQueues_codes (s : State) (nodes : Memory Node) : (s.startQueues nodes).codes = s.codes := rfl
@[simp] theorem State.startQueues_symIn (s : State) (nodes : Memory Node) : (s.startQueues nodes).symIn = s.symIn := rfl
@[simp] theorem State.startQueues_symOut (s : State) (nodes : Memory Node) : (s.startQueues nodes).symOut = s.symOut := rfl
@[simp] theorem State.startQueues_bits (s : State) (nodes : Memory Node) : (s.startQueues nodes).bits = s.bits := rfl
@[simp] theorem State.startQueues_bytes (s : State) (nodes : Memory Node) : (s.startQueues nodes).bytes = s.bytes := rfl
@[simp] theorem State.startQueues_pending (s : State) (nodes : Memory Node) : (s.startQueues nodes).pending = s.pending := rfl
@[simp] theorem State.startQueues_shown (s : State) (nodes : Memory Node) : (s.startQueues nodes).shown = s.shown := rfl
@[simp] theorem State.startQueues_draws (s : State) (nodes : Memory Node) : (s.startQueues nodes).draws = s.draws := rfl

/-! ## moveHeads: a dequeue (42_tree_builder R120) -/

@[simp] theorem State.moveHeads_cfg (s : State) (src : Nat) (tgt : Nat) : (s.moveHeads src tgt).cfg = s.cfg := rfl
@[simp] theorem State.moveHeads_arg (s : State) (src : Nat) (tgt : Nat) : (s.moveHeads src tgt).arg = s.arg := rfl
@[simp] theorem State.moveHeads_busy (s : State) (src : Nat) (tgt : Nat) : (s.moveHeads src tgt).busy = s.busy := rfl
@[simp] theorem State.moveHeads_busyPolls (s : State) (src : Nat) (tgt : Nat) : (s.moveHeads src tgt).busyPolls = s.busyPolls := rfl
@[simp] theorem State.moveHeads_errCode (s : State) (src : Nat) (tgt : Nat) : (s.moveHeads src tgt).errCode = s.errCode := rfl
@[simp] theorem State.moveHeads_errOp (s : State) (src : Nat) (tgt : Nat) : (s.moveHeads src tgt).errOp = s.errOp := rfl
@[simp] theorem State.moveHeads_errInfo (s : State) (src : Nat) (tgt : Nat) : (s.moveHeads src tgt).errInfo = s.errInfo := rfl
@[simp] theorem State.moveHeads_ftN (s : State) (src : Nat) (tgt : Nat) : (s.moveHeads src tgt).ftN = s.ftN := rfl
@[simp] theorem State.moveHeads_tbState (s : State) (src : Nat) (tgt : Nat) : (s.moveHeads src tgt).tbState = s.tbState := rfl
@[simp] theorem State.moveHeads_srcHead (s : State) (src : Nat) (tgt : Nat) : (s.moveHeads src tgt).srcHead = src := rfl
@[simp] theorem State.moveHeads_tgtHead (s : State) (src : Nat) (tgt : Nat) : (s.moveHeads src tgt).tgtHead = tgt := rfl
@[simp] theorem State.moveHeads_nodeN (s : State) (src : Nat) (tgt : Nat) : (s.moveHeads src tgt).nodeN = s.nodeN := rfl
@[simp] theorem State.moveHeads_root (s : State) (src : Nat) (tgt : Nat) : (s.moveHeads src tgt).root = s.root := rfl
@[simp] theorem State.moveHeads_treeValid (s : State) (src : Nat) (tgt : Nat) : (s.moveHeads src tgt).treeValid = s.treeValid := rfl
@[simp] theorem State.moveHeads_codesValid (s : State) (src : Nat) (tgt : Nat) : (s.moveHeads src tgt).codesValid = s.codesValid := rfl
@[simp] theorem State.moveHeads_decPartial (s : State) (src : Nat) (tgt : Nat) : (s.moveHeads src tgt).decPartial = s.decPartial := rfl
@[simp] theorem State.moveHeads_symInLen (s : State) (src : Nat) (tgt : Nat) : (s.moveHeads src tgt).symInLen = s.symInLen := rfl
@[simp] theorem State.moveHeads_symOutLen (s : State) (src : Nat) (tgt : Nat) : (s.moveHeads src tgt).symOutLen = s.symOutLen := rfl
@[simp] theorem State.moveHeads_bitLen (s : State) (src : Nat) (tgt : Nat) : (s.moveHeads src tgt).bitLen = s.bitLen := rfl
@[simp] theorem State.moveHeads_byteLen (s : State) (src : Nat) (tgt : Nat) : (s.moveHeads src tgt).byteLen = s.byteLen := rfl
@[simp] theorem State.moveHeads_ft (s : State) (src : Nat) (tgt : Nat) : (s.moveHeads src tgt).ft = s.ft := rfl
@[simp] theorem State.moveHeads_nodes (s : State) (src : Nat) (tgt : Nat) : (s.moveHeads src tgt).nodes = s.nodes := rfl
@[simp] theorem State.moveHeads_codes (s : State) (src : Nat) (tgt : Nat) : (s.moveHeads src tgt).codes = s.codes := rfl
@[simp] theorem State.moveHeads_symIn (s : State) (src : Nat) (tgt : Nat) : (s.moveHeads src tgt).symIn = s.symIn := rfl
@[simp] theorem State.moveHeads_symOut (s : State) (src : Nat) (tgt : Nat) : (s.moveHeads src tgt).symOut = s.symOut := rfl
@[simp] theorem State.moveHeads_bits (s : State) (src : Nat) (tgt : Nat) : (s.moveHeads src tgt).bits = s.bits := rfl
@[simp] theorem State.moveHeads_bytes (s : State) (src : Nat) (tgt : Nat) : (s.moveHeads src tgt).bytes = s.bytes := rfl
@[simp] theorem State.moveHeads_pending (s : State) (src : Nat) (tgt : Nat) : (s.moveHeads src tgt).pending = s.pending := rfl
@[simp] theorem State.moveHeads_shown (s : State) (src : Nat) (tgt : Nat) : (s.moveHeads src tgt).shown = s.shown := rfl
@[simp] theorem State.moveHeads_draws (s : State) (src : Nat) (tgt : Nat) : (s.moveHeads src tgt).draws = s.draws := rfl

/-! ## enqueue: a merge result joins the target queue (42_tree_builder R123) -/

@[simp] theorem State.enqueue_cfg (s : State) (nd : Node) : (s.enqueue nd).cfg = s.cfg := rfl
@[simp] theorem State.enqueue_arg (s : State) (nd : Node) : (s.enqueue nd).arg = s.arg := rfl
@[simp] theorem State.enqueue_busy (s : State) (nd : Node) : (s.enqueue nd).busy = s.busy := rfl
@[simp] theorem State.enqueue_busyPolls (s : State) (nd : Node) : (s.enqueue nd).busyPolls = s.busyPolls := rfl
@[simp] theorem State.enqueue_errCode (s : State) (nd : Node) : (s.enqueue nd).errCode = s.errCode := rfl
@[simp] theorem State.enqueue_errOp (s : State) (nd : Node) : (s.enqueue nd).errOp = s.errOp := rfl
@[simp] theorem State.enqueue_errInfo (s : State) (nd : Node) : (s.enqueue nd).errInfo = s.errInfo := rfl
@[simp] theorem State.enqueue_ftN (s : State) (nd : Node) : (s.enqueue nd).ftN = s.ftN := rfl
@[simp] theorem State.enqueue_tbState (s : State) (nd : Node) : (s.enqueue nd).tbState = s.tbState := rfl
@[simp] theorem State.enqueue_srcHead (s : State) (nd : Node) : (s.enqueue nd).srcHead = s.srcHead := rfl
@[simp] theorem State.enqueue_tgtHead (s : State) (nd : Node) : (s.enqueue nd).tgtHead = s.tgtHead := rfl
@[simp] theorem State.enqueue_nodeN (s : State) (nd : Node) : (s.enqueue nd).nodeN = s.nodeN + 1 := rfl
@[simp] theorem State.enqueue_root (s : State) (nd : Node) : (s.enqueue nd).root = s.root := rfl
@[simp] theorem State.enqueue_treeValid (s : State) (nd : Node) : (s.enqueue nd).treeValid = s.treeValid := rfl
@[simp] theorem State.enqueue_codesValid (s : State) (nd : Node) : (s.enqueue nd).codesValid = s.codesValid := rfl
@[simp] theorem State.enqueue_decPartial (s : State) (nd : Node) : (s.enqueue nd).decPartial = s.decPartial := rfl
@[simp] theorem State.enqueue_symInLen (s : State) (nd : Node) : (s.enqueue nd).symInLen = s.symInLen := rfl
@[simp] theorem State.enqueue_symOutLen (s : State) (nd : Node) : (s.enqueue nd).symOutLen = s.symOutLen := rfl
@[simp] theorem State.enqueue_bitLen (s : State) (nd : Node) : (s.enqueue nd).bitLen = s.bitLen := rfl
@[simp] theorem State.enqueue_byteLen (s : State) (nd : Node) : (s.enqueue nd).byteLen = s.byteLen := rfl
@[simp] theorem State.enqueue_ft (s : State) (nd : Node) : (s.enqueue nd).ft = s.ft := rfl
@[simp] theorem State.enqueue_nodes (s : State) (nd : Node) : (s.enqueue nd).nodes = Memory.write s.nodes s.nodeN nd := rfl
@[simp] theorem State.enqueue_codes (s : State) (nd : Node) : (s.enqueue nd).codes = s.codes := rfl
@[simp] theorem State.enqueue_symIn (s : State) (nd : Node) : (s.enqueue nd).symIn = s.symIn := rfl
@[simp] theorem State.enqueue_symOut (s : State) (nd : Node) : (s.enqueue nd).symOut = s.symOut := rfl
@[simp] theorem State.enqueue_bits (s : State) (nd : Node) : (s.enqueue nd).bits = s.bits := rfl
@[simp] theorem State.enqueue_bytes (s : State) (nd : Node) : (s.enqueue nd).bytes = s.bytes := rfl
@[simp] theorem State.enqueue_pending (s : State) (nd : Node) : (s.enqueue nd).pending = s.pending := rfl
@[simp] theorem State.enqueue_shown (s : State) (nd : Node) : (s.enqueue nd).shown = s.shown := rfl
@[simp] theorem State.enqueue_draws (s : State) (nd : Node) : (s.enqueue nd).draws = s.draws := rfl

/-! ## finishBuild: the last merge (42_tree_builder R123) -/

@[simp] theorem State.finishBuild_cfg (s : State) : s.finishBuild.cfg = s.cfg := rfl
@[simp] theorem State.finishBuild_arg (s : State) : s.finishBuild.arg = s.arg := rfl
@[simp] theorem State.finishBuild_busy (s : State) : s.finishBuild.busy = s.busy := rfl
@[simp] theorem State.finishBuild_busyPolls (s : State) : s.finishBuild.busyPolls = s.busyPolls := rfl
@[simp] theorem State.finishBuild_errCode (s : State) : s.finishBuild.errCode = s.errCode := rfl
@[simp] theorem State.finishBuild_errOp (s : State) : s.finishBuild.errOp = s.errOp := rfl
@[simp] theorem State.finishBuild_errInfo (s : State) : s.finishBuild.errInfo = s.errInfo := rfl
@[simp] theorem State.finishBuild_ftN (s : State) : s.finishBuild.ftN = s.ftN := rfl
@[simp] theorem State.finishBuild_tbState (s : State) : s.finishBuild.tbState = .done := rfl
@[simp] theorem State.finishBuild_srcHead (s : State) : s.finishBuild.srcHead = s.srcHead := rfl
@[simp] theorem State.finishBuild_tgtHead (s : State) : s.finishBuild.tgtHead = s.tgtHead + 1 := rfl
@[simp] theorem State.finishBuild_nodeN (s : State) : s.finishBuild.nodeN = s.nodeN := rfl
@[simp] theorem State.finishBuild_root (s : State) : s.finishBuild.root = BitVec.ofNat 8 s.tgtHead := rfl
@[simp] theorem State.finishBuild_treeValid (s : State) : s.finishBuild.treeValid = true := rfl
@[simp] theorem State.finishBuild_codesValid (s : State) : s.finishBuild.codesValid = s.codesValid := rfl
@[simp] theorem State.finishBuild_decPartial (s : State) : s.finishBuild.decPartial = s.decPartial := rfl
@[simp] theorem State.finishBuild_symInLen (s : State) : s.finishBuild.symInLen = s.symInLen := rfl
@[simp] theorem State.finishBuild_symOutLen (s : State) : s.finishBuild.symOutLen = s.symOutLen := rfl
@[simp] theorem State.finishBuild_bitLen (s : State) : s.finishBuild.bitLen = s.bitLen := rfl
@[simp] theorem State.finishBuild_byteLen (s : State) : s.finishBuild.byteLen = s.byteLen := rfl
@[simp] theorem State.finishBuild_ft (s : State) : s.finishBuild.ft = s.ft := rfl
@[simp] theorem State.finishBuild_nodes (s : State) : s.finishBuild.nodes = s.nodes := rfl
@[simp] theorem State.finishBuild_codes (s : State) : s.finishBuild.codes = s.codes := rfl
@[simp] theorem State.finishBuild_symIn (s : State) : s.finishBuild.symIn = s.symIn := rfl
@[simp] theorem State.finishBuild_symOut (s : State) : s.finishBuild.symOut = s.symOut := rfl
@[simp] theorem State.finishBuild_bits (s : State) : s.finishBuild.bits = s.bits := rfl
@[simp] theorem State.finishBuild_bytes (s : State) : s.finishBuild.bytes = s.bytes := rfl
@[simp] theorem State.finishBuild_pending (s : State) : s.finishBuild.pending = s.pending := rfl
@[simp] theorem State.finishBuild_shown (s : State) : s.finishBuild.shown = s.shown := rfl
@[simp] theorem State.finishBuild_draws (s : State) : s.finishBuild.draws = s.draws := rfl

/-! ## putCodes: CT_GEN's update (43_code_table R140) -/

@[simp] theorem State.putCodes_cfg (s : State) (codes : Memory CodeEntry) : (s.putCodes codes).cfg = s.cfg := rfl
@[simp] theorem State.putCodes_arg (s : State) (codes : Memory CodeEntry) : (s.putCodes codes).arg = s.arg := rfl
@[simp] theorem State.putCodes_busy (s : State) (codes : Memory CodeEntry) : (s.putCodes codes).busy = s.busy := rfl
@[simp] theorem State.putCodes_busyPolls (s : State) (codes : Memory CodeEntry) : (s.putCodes codes).busyPolls = s.busyPolls := rfl
@[simp] theorem State.putCodes_errCode (s : State) (codes : Memory CodeEntry) : (s.putCodes codes).errCode = s.errCode := rfl
@[simp] theorem State.putCodes_errOp (s : State) (codes : Memory CodeEntry) : (s.putCodes codes).errOp = s.errOp := rfl
@[simp] theorem State.putCodes_errInfo (s : State) (codes : Memory CodeEntry) : (s.putCodes codes).errInfo = s.errInfo := rfl
@[simp] theorem State.putCodes_ftN (s : State) (codes : Memory CodeEntry) : (s.putCodes codes).ftN = s.ftN := rfl
@[simp] theorem State.putCodes_tbState (s : State) (codes : Memory CodeEntry) : (s.putCodes codes).tbState = s.tbState := rfl
@[simp] theorem State.putCodes_srcHead (s : State) (codes : Memory CodeEntry) : (s.putCodes codes).srcHead = s.srcHead := rfl
@[simp] theorem State.putCodes_tgtHead (s : State) (codes : Memory CodeEntry) : (s.putCodes codes).tgtHead = s.tgtHead := rfl
@[simp] theorem State.putCodes_nodeN (s : State) (codes : Memory CodeEntry) : (s.putCodes codes).nodeN = s.nodeN := rfl
@[simp] theorem State.putCodes_root (s : State) (codes : Memory CodeEntry) : (s.putCodes codes).root = s.root := rfl
@[simp] theorem State.putCodes_treeValid (s : State) (codes : Memory CodeEntry) : (s.putCodes codes).treeValid = s.treeValid := rfl
@[simp] theorem State.putCodes_codesValid (s : State) (codes : Memory CodeEntry) : (s.putCodes codes).codesValid = true := rfl
@[simp] theorem State.putCodes_decPartial (s : State) (codes : Memory CodeEntry) : (s.putCodes codes).decPartial = s.decPartial := rfl
@[simp] theorem State.putCodes_symInLen (s : State) (codes : Memory CodeEntry) : (s.putCodes codes).symInLen = s.symInLen := rfl
@[simp] theorem State.putCodes_symOutLen (s : State) (codes : Memory CodeEntry) : (s.putCodes codes).symOutLen = s.symOutLen := rfl
@[simp] theorem State.putCodes_bitLen (s : State) (codes : Memory CodeEntry) : (s.putCodes codes).bitLen = s.bitLen := rfl
@[simp] theorem State.putCodes_byteLen (s : State) (codes : Memory CodeEntry) : (s.putCodes codes).byteLen = s.byteLen := rfl
@[simp] theorem State.putCodes_ft (s : State) (codes : Memory CodeEntry) : (s.putCodes codes).ft = s.ft := rfl
@[simp] theorem State.putCodes_nodes (s : State) (codes : Memory CodeEntry) : (s.putCodes codes).nodes = s.nodes := rfl
@[simp] theorem State.putCodes_codes (s : State) (codes : Memory CodeEntry) : (s.putCodes codes).codes = codes := rfl
@[simp] theorem State.putCodes_symIn (s : State) (codes : Memory CodeEntry) : (s.putCodes codes).symIn = s.symIn := rfl
@[simp] theorem State.putCodes_symOut (s : State) (codes : Memory CodeEntry) : (s.putCodes codes).symOut = s.symOut := rfl
@[simp] theorem State.putCodes_bits (s : State) (codes : Memory CodeEntry) : (s.putCodes codes).bits = s.bits := rfl
@[simp] theorem State.putCodes_bytes (s : State) (codes : Memory CodeEntry) : (s.putCodes codes).bytes = s.bytes := rfl
@[simp] theorem State.putCodes_pending (s : State) (codes : Memory CodeEntry) : (s.putCodes codes).pending = s.pending := rfl
@[simp] theorem State.putCodes_shown (s : State) (codes : Memory CodeEntry) : (s.putCodes codes).shown = s.shown := rfl
@[simp] theorem State.putCodes_draws (s : State) (codes : Memory CodeEntry) : (s.putCodes codes).draws = s.draws := rfl

/-! ## resetRegisters: SRESET's update (40_control R101) -/

@[simp] theorem State.resetRegisters_cfg (s : State) : s.resetRegisters.cfg = s.cfg := rfl
@[simp] theorem State.resetRegisters_arg (s : State) : s.resetRegisters.arg = 0#32 := rfl
@[simp] theorem State.resetRegisters_busy (s : State) : s.resetRegisters.busy = s.busy := rfl
@[simp] theorem State.resetRegisters_busyPolls (s : State) : s.resetRegisters.busyPolls = s.busyPolls := rfl
@[simp] theorem State.resetRegisters_errCode (s : State) : s.resetRegisters.errCode = 0#8 := rfl
@[simp] theorem State.resetRegisters_errOp (s : State) : s.resetRegisters.errOp = 0#8 := rfl
@[simp] theorem State.resetRegisters_errInfo (s : State) : s.resetRegisters.errInfo = 0#32 := rfl
@[simp] theorem State.resetRegisters_ftN (s : State) : s.resetRegisters.ftN = 0 := rfl
@[simp] theorem State.resetRegisters_tbState (s : State) : s.resetRegisters.tbState = .idle := rfl
@[simp] theorem State.resetRegisters_srcHead (s : State) : s.resetRegisters.srcHead = 0 := rfl
@[simp] theorem State.resetRegisters_tgtHead (s : State) : s.resetRegisters.tgtHead = 0 := rfl
@[simp] theorem State.resetRegisters_nodeN (s : State) : s.resetRegisters.nodeN = 0 := rfl
@[simp] theorem State.resetRegisters_root (s : State) : s.resetRegisters.root = nilRef := rfl
@[simp] theorem State.resetRegisters_treeValid (s : State) : s.resetRegisters.treeValid = false := rfl
@[simp] theorem State.resetRegisters_codesValid (s : State) : s.resetRegisters.codesValid = false := rfl
@[simp] theorem State.resetRegisters_decPartial (s : State) : s.resetRegisters.decPartial = false := rfl
@[simp] theorem State.resetRegisters_symInLen (s : State) : s.resetRegisters.symInLen = 0 := rfl
@[simp] theorem State.resetRegisters_symOutLen (s : State) : s.resetRegisters.symOutLen = 0 := rfl
@[simp] theorem State.resetRegisters_bitLen (s : State) : s.resetRegisters.bitLen = 0 := rfl
@[simp] theorem State.resetRegisters_byteLen (s : State) : s.resetRegisters.byteLen = 0 := rfl
@[simp] theorem State.resetRegisters_ft (s : State) : s.resetRegisters.ft = s.ft := rfl
@[simp] theorem State.resetRegisters_nodes (s : State) : s.resetRegisters.nodes = s.nodes := rfl
@[simp] theorem State.resetRegisters_codes (s : State) : s.resetRegisters.codes = s.codes := rfl
@[simp] theorem State.resetRegisters_symIn (s : State) : s.resetRegisters.symIn = s.symIn := rfl
@[simp] theorem State.resetRegisters_symOut (s : State) : s.resetRegisters.symOut = s.symOut := rfl
@[simp] theorem State.resetRegisters_bits (s : State) : s.resetRegisters.bits = s.bits := rfl
@[simp] theorem State.resetRegisters_bytes (s : State) : s.resetRegisters.bytes = s.bytes := rfl
@[simp] theorem State.resetRegisters_pending (s : State) : s.resetRegisters.pending = s.pending := rfl
@[simp] theorem State.resetRegisters_shown (s : State) : s.resetRegisters.shown = s.shown := rfl
@[simp] theorem State.resetRegisters_draws (s : State) : s.resetRegisters.draws = s.draws := rfl

/-! ## putBits: the bit-string result (44_bitstream R153) -/

@[simp] theorem State.putBits_cfg (s : State) (b : Bits) : (s.putBits b).cfg = s.cfg := rfl
@[simp] theorem State.putBits_arg (s : State) (b : Bits) : (s.putBits b).arg = s.arg := rfl
@[simp] theorem State.putBits_busy (s : State) (b : Bits) : (s.putBits b).busy = s.busy := rfl
@[simp] theorem State.putBits_busyPolls (s : State) (b : Bits) : (s.putBits b).busyPolls = s.busyPolls := rfl
@[simp] theorem State.putBits_errCode (s : State) (b : Bits) : (s.putBits b).errCode = s.errCode := rfl
@[simp] theorem State.putBits_errOp (s : State) (b : Bits) : (s.putBits b).errOp = s.errOp := rfl
@[simp] theorem State.putBits_errInfo (s : State) (b : Bits) : (s.putBits b).errInfo = s.errInfo := rfl
@[simp] theorem State.putBits_ftN (s : State) (b : Bits) : (s.putBits b).ftN = s.ftN := rfl
@[simp] theorem State.putBits_tbState (s : State) (b : Bits) : (s.putBits b).tbState = s.tbState := rfl
@[simp] theorem State.putBits_srcHead (s : State) (b : Bits) : (s.putBits b).srcHead = s.srcHead := rfl
@[simp] theorem State.putBits_tgtHead (s : State) (b : Bits) : (s.putBits b).tgtHead = s.tgtHead := rfl
@[simp] theorem State.putBits_nodeN (s : State) (b : Bits) : (s.putBits b).nodeN = s.nodeN := rfl
@[simp] theorem State.putBits_root (s : State) (b : Bits) : (s.putBits b).root = s.root := rfl
@[simp] theorem State.putBits_treeValid (s : State) (b : Bits) : (s.putBits b).treeValid = s.treeValid := rfl
@[simp] theorem State.putBits_codesValid (s : State) (b : Bits) : (s.putBits b).codesValid = s.codesValid := rfl
@[simp] theorem State.putBits_decPartial (s : State) (b : Bits) : (s.putBits b).decPartial = s.decPartial := rfl
@[simp] theorem State.putBits_symInLen (s : State) (b : Bits) : (s.putBits b).symInLen = s.symInLen := rfl
@[simp] theorem State.putBits_symOutLen (s : State) (b : Bits) : (s.putBits b).symOutLen = s.symOutLen := rfl
@[simp] theorem State.putBits_bitLen (s : State) (b : Bits) : (s.putBits b).bitLen = b.length := rfl
@[simp] theorem State.putBits_byteLen (s : State) (b : Bits) : (s.putBits b).byteLen = s.byteLen := rfl
@[simp] theorem State.putBits_ft (s : State) (b : Bits) : (s.putBits b).ft = s.ft := rfl
@[simp] theorem State.putBits_nodes (s : State) (b : Bits) : (s.putBits b).nodes = s.nodes := rfl
@[simp] theorem State.putBits_codes (s : State) (b : Bits) : (s.putBits b).codes = s.codes := rfl
@[simp] theorem State.putBits_symIn (s : State) (b : Bits) : (s.putBits b).symIn = s.symIn := rfl
@[simp] theorem State.putBits_symOut (s : State) (b : Bits) : (s.putBits b).symOut = s.symOut := rfl
@[simp] theorem State.putBits_bits (s : State) (b : Bits) : (s.putBits b).bits = Memory.writeList s.bits 0 b := rfl
@[simp] theorem State.putBits_bytes (s : State) (b : Bits) : (s.putBits b).bytes = s.bytes := rfl
@[simp] theorem State.putBits_pending (s : State) (b : Bits) : (s.putBits b).pending = s.pending := rfl
@[simp] theorem State.putBits_shown (s : State) (b : Bits) : (s.putBits b).shown = s.shown := rfl
@[simp] theorem State.putBits_draws (s : State) (b : Bits) : (s.putBits b).draws = s.draws := rfl

/-! ## putBytes: the byte result (44_bitstream R151) -/

@[simp] theorem State.putBytes_cfg (s : State) (bs : List Byte) : (s.putBytes bs).cfg = s.cfg := rfl
@[simp] theorem State.putBytes_arg (s : State) (bs : List Byte) : (s.putBytes bs).arg = s.arg := rfl
@[simp] theorem State.putBytes_busy (s : State) (bs : List Byte) : (s.putBytes bs).busy = s.busy := rfl
@[simp] theorem State.putBytes_busyPolls (s : State) (bs : List Byte) : (s.putBytes bs).busyPolls = s.busyPolls := rfl
@[simp] theorem State.putBytes_errCode (s : State) (bs : List Byte) : (s.putBytes bs).errCode = s.errCode := rfl
@[simp] theorem State.putBytes_errOp (s : State) (bs : List Byte) : (s.putBytes bs).errOp = s.errOp := rfl
@[simp] theorem State.putBytes_errInfo (s : State) (bs : List Byte) : (s.putBytes bs).errInfo = s.errInfo := rfl
@[simp] theorem State.putBytes_ftN (s : State) (bs : List Byte) : (s.putBytes bs).ftN = s.ftN := rfl
@[simp] theorem State.putBytes_tbState (s : State) (bs : List Byte) : (s.putBytes bs).tbState = s.tbState := rfl
@[simp] theorem State.putBytes_srcHead (s : State) (bs : List Byte) : (s.putBytes bs).srcHead = s.srcHead := rfl
@[simp] theorem State.putBytes_tgtHead (s : State) (bs : List Byte) : (s.putBytes bs).tgtHead = s.tgtHead := rfl
@[simp] theorem State.putBytes_nodeN (s : State) (bs : List Byte) : (s.putBytes bs).nodeN = s.nodeN := rfl
@[simp] theorem State.putBytes_root (s : State) (bs : List Byte) : (s.putBytes bs).root = s.root := rfl
@[simp] theorem State.putBytes_treeValid (s : State) (bs : List Byte) : (s.putBytes bs).treeValid = s.treeValid := rfl
@[simp] theorem State.putBytes_codesValid (s : State) (bs : List Byte) : (s.putBytes bs).codesValid = s.codesValid := rfl
@[simp] theorem State.putBytes_decPartial (s : State) (bs : List Byte) : (s.putBytes bs).decPartial = s.decPartial := rfl
@[simp] theorem State.putBytes_symInLen (s : State) (bs : List Byte) : (s.putBytes bs).symInLen = s.symInLen := rfl
@[simp] theorem State.putBytes_symOutLen (s : State) (bs : List Byte) : (s.putBytes bs).symOutLen = s.symOutLen := rfl
@[simp] theorem State.putBytes_bitLen (s : State) (bs : List Byte) : (s.putBytes bs).bitLen = s.bitLen := rfl
@[simp] theorem State.putBytes_byteLen (s : State) (bs : List Byte) : (s.putBytes bs).byteLen = bs.length := rfl
@[simp] theorem State.putBytes_ft (s : State) (bs : List Byte) : (s.putBytes bs).ft = s.ft := rfl
@[simp] theorem State.putBytes_nodes (s : State) (bs : List Byte) : (s.putBytes bs).nodes = s.nodes := rfl
@[simp] theorem State.putBytes_codes (s : State) (bs : List Byte) : (s.putBytes bs).codes = s.codes := rfl
@[simp] theorem State.putBytes_symIn (s : State) (bs : List Byte) : (s.putBytes bs).symIn = s.symIn := rfl
@[simp] theorem State.putBytes_symOut (s : State) (bs : List Byte) : (s.putBytes bs).symOut = s.symOut := rfl
@[simp] theorem State.putBytes_bits (s : State) (bs : List Byte) : (s.putBytes bs).bits = s.bits := rfl
@[simp] theorem State.putBytes_bytes (s : State) (bs : List Byte) : (s.putBytes bs).bytes = Memory.writeList s.bytes 0 bs := rfl
@[simp] theorem State.putBytes_pending (s : State) (bs : List Byte) : (s.putBytes bs).pending = s.pending := rfl
@[simp] theorem State.putBytes_shown (s : State) (bs : List Byte) : (s.putBytes bs).shown = s.shown := rfl
@[simp] theorem State.putBytes_draws (s : State) (bs : List Byte) : (s.putBytes bs).draws = s.draws := rfl

/-! ## putSymbols: the symbol result (45_encode_decode R173) -/

@[simp] theorem State.putSymbols_cfg (s : State) (out : List Byte) (p : Bool) : (s.putSymbols out p).cfg = s.cfg := rfl
@[simp] theorem State.putSymbols_arg (s : State) (out : List Byte) (p : Bool) : (s.putSymbols out p).arg = s.arg := rfl
@[simp] theorem State.putSymbols_busy (s : State) (out : List Byte) (p : Bool) : (s.putSymbols out p).busy = s.busy := rfl
@[simp] theorem State.putSymbols_busyPolls (s : State) (out : List Byte) (p : Bool) : (s.putSymbols out p).busyPolls = s.busyPolls := rfl
@[simp] theorem State.putSymbols_errCode (s : State) (out : List Byte) (p : Bool) : (s.putSymbols out p).errCode = s.errCode := rfl
@[simp] theorem State.putSymbols_errOp (s : State) (out : List Byte) (p : Bool) : (s.putSymbols out p).errOp = s.errOp := rfl
@[simp] theorem State.putSymbols_errInfo (s : State) (out : List Byte) (p : Bool) : (s.putSymbols out p).errInfo = s.errInfo := rfl
@[simp] theorem State.putSymbols_ftN (s : State) (out : List Byte) (p : Bool) : (s.putSymbols out p).ftN = s.ftN := rfl
@[simp] theorem State.putSymbols_tbState (s : State) (out : List Byte) (p : Bool) : (s.putSymbols out p).tbState = s.tbState := rfl
@[simp] theorem State.putSymbols_srcHead (s : State) (out : List Byte) (p : Bool) : (s.putSymbols out p).srcHead = s.srcHead := rfl
@[simp] theorem State.putSymbols_tgtHead (s : State) (out : List Byte) (p : Bool) : (s.putSymbols out p).tgtHead = s.tgtHead := rfl
@[simp] theorem State.putSymbols_nodeN (s : State) (out : List Byte) (p : Bool) : (s.putSymbols out p).nodeN = s.nodeN := rfl
@[simp] theorem State.putSymbols_root (s : State) (out : List Byte) (p : Bool) : (s.putSymbols out p).root = s.root := rfl
@[simp] theorem State.putSymbols_treeValid (s : State) (out : List Byte) (p : Bool) : (s.putSymbols out p).treeValid = s.treeValid := rfl
@[simp] theorem State.putSymbols_codesValid (s : State) (out : List Byte) (p : Bool) : (s.putSymbols out p).codesValid = s.codesValid := rfl
@[simp] theorem State.putSymbols_decPartial (s : State) (out : List Byte) (p : Bool) : (s.putSymbols out p).decPartial = p := rfl
@[simp] theorem State.putSymbols_symInLen (s : State) (out : List Byte) (p : Bool) : (s.putSymbols out p).symInLen = s.symInLen := rfl
@[simp] theorem State.putSymbols_symOutLen (s : State) (out : List Byte) (p : Bool) : (s.putSymbols out p).symOutLen = out.length := rfl
@[simp] theorem State.putSymbols_bitLen (s : State) (out : List Byte) (p : Bool) : (s.putSymbols out p).bitLen = s.bitLen := rfl
@[simp] theorem State.putSymbols_byteLen (s : State) (out : List Byte) (p : Bool) : (s.putSymbols out p).byteLen = s.byteLen := rfl
@[simp] theorem State.putSymbols_ft (s : State) (out : List Byte) (p : Bool) : (s.putSymbols out p).ft = s.ft := rfl
@[simp] theorem State.putSymbols_nodes (s : State) (out : List Byte) (p : Bool) : (s.putSymbols out p).nodes = s.nodes := rfl
@[simp] theorem State.putSymbols_codes (s : State) (out : List Byte) (p : Bool) : (s.putSymbols out p).codes = s.codes := rfl
@[simp] theorem State.putSymbols_symIn (s : State) (out : List Byte) (p : Bool) : (s.putSymbols out p).symIn = s.symIn := rfl
@[simp] theorem State.putSymbols_symOut (s : State) (out : List Byte) (p : Bool) : (s.putSymbols out p).symOut = Memory.writeList s.symOut 0 out := rfl
@[simp] theorem State.putSymbols_bits (s : State) (out : List Byte) (p : Bool) : (s.putSymbols out p).bits = s.bits := rfl
@[simp] theorem State.putSymbols_bytes (s : State) (out : List Byte) (p : Bool) : (s.putSymbols out p).bytes = s.bytes := rfl
@[simp] theorem State.putSymbols_pending (s : State) (out : List Byte) (p : Bool) : (s.putSymbols out p).pending = s.pending := rfl
@[simp] theorem State.putSymbols_shown (s : State) (out : List Byte) (p : Bool) : (s.putSymbols out p).shown = s.shown := rfl
@[simp] theorem State.putSymbols_draws (s : State) (out : List Byte) (p : Bool) : (s.putSymbols out p).draws = s.draws := rfl

/-! ## beginCommand: BUSY rises (30_encoding R87) -/

@[simp] theorem State.beginCommand_cfg (s : State) : s.beginCommand.cfg = s.cfg := rfl
@[simp] theorem State.beginCommand_arg (s : State) : s.beginCommand.arg = s.arg := rfl
@[simp] theorem State.beginCommand_busy (s : State) : s.beginCommand.busy = true := rfl
@[simp] theorem State.beginCommand_busyPolls (s : State) : s.beginCommand.busyPolls = Config.busyPolls s.draws := rfl
@[simp] theorem State.beginCommand_errCode (s : State) : s.beginCommand.errCode = s.errCode := rfl
@[simp] theorem State.beginCommand_errOp (s : State) : s.beginCommand.errOp = s.errOp := rfl
@[simp] theorem State.beginCommand_errInfo (s : State) : s.beginCommand.errInfo = s.errInfo := rfl
@[simp] theorem State.beginCommand_ftN (s : State) : s.beginCommand.ftN = s.ftN := rfl
@[simp] theorem State.beginCommand_tbState (s : State) : s.beginCommand.tbState = s.tbState := rfl
@[simp] theorem State.beginCommand_srcHead (s : State) : s.beginCommand.srcHead = s.srcHead := rfl
@[simp] theorem State.beginCommand_tgtHead (s : State) : s.beginCommand.tgtHead = s.tgtHead := rfl
@[simp] theorem State.beginCommand_nodeN (s : State) : s.beginCommand.nodeN = s.nodeN := rfl
@[simp] theorem State.beginCommand_root (s : State) : s.beginCommand.root = s.root := rfl
@[simp] theorem State.beginCommand_treeValid (s : State) : s.beginCommand.treeValid = s.treeValid := rfl
@[simp] theorem State.beginCommand_codesValid (s : State) : s.beginCommand.codesValid = s.codesValid := rfl
@[simp] theorem State.beginCommand_decPartial (s : State) : s.beginCommand.decPartial = s.decPartial := rfl
@[simp] theorem State.beginCommand_symInLen (s : State) : s.beginCommand.symInLen = s.symInLen := rfl
@[simp] theorem State.beginCommand_symOutLen (s : State) : s.beginCommand.symOutLen = s.symOutLen := rfl
@[simp] theorem State.beginCommand_bitLen (s : State) : s.beginCommand.bitLen = s.bitLen := rfl
@[simp] theorem State.beginCommand_byteLen (s : State) : s.beginCommand.byteLen = s.byteLen := rfl
@[simp] theorem State.beginCommand_ft (s : State) : s.beginCommand.ft = s.ft := rfl
@[simp] theorem State.beginCommand_nodes (s : State) : s.beginCommand.nodes = s.nodes := rfl
@[simp] theorem State.beginCommand_codes (s : State) : s.beginCommand.codes = s.codes := rfl
@[simp] theorem State.beginCommand_symIn (s : State) : s.beginCommand.symIn = s.symIn := rfl
@[simp] theorem State.beginCommand_symOut (s : State) : s.beginCommand.symOut = s.symOut := rfl
@[simp] theorem State.beginCommand_bits (s : State) : s.beginCommand.bits = s.bits := rfl
@[simp] theorem State.beginCommand_bytes (s : State) : s.beginCommand.bytes = s.bytes := rfl
@[simp] theorem State.beginCommand_pending (s : State) : s.beginCommand.pending = s.pending := rfl
@[simp] theorem State.beginCommand_shown (s : State) : s.beginCommand.shown = s.shown := rfl
@[simp] theorem State.beginCommand_draws (s : State) : s.beginCommand.draws = s.draws := rfl

/-! ## endBusy: BUSY falls (10_state R24) -/

@[simp] theorem State.endBusy_cfg (s : State) : s.endBusy.cfg = s.cfg := rfl
@[simp] theorem State.endBusy_arg (s : State) : s.endBusy.arg = s.arg := rfl
@[simp] theorem State.endBusy_busy (s : State) : s.endBusy.busy = false := rfl
@[simp] theorem State.endBusy_busyPolls (s : State) : s.endBusy.busyPolls = s.busyPolls := rfl
@[simp] theorem State.endBusy_errCode (s : State) : s.endBusy.errCode = s.errCode := rfl
@[simp] theorem State.endBusy_errOp (s : State) : s.endBusy.errOp = s.errOp := rfl
@[simp] theorem State.endBusy_errInfo (s : State) : s.endBusy.errInfo = s.errInfo := rfl
@[simp] theorem State.endBusy_ftN (s : State) : s.endBusy.ftN = s.ftN := rfl
@[simp] theorem State.endBusy_tbState (s : State) : s.endBusy.tbState = s.tbState := rfl
@[simp] theorem State.endBusy_srcHead (s : State) : s.endBusy.srcHead = s.srcHead := rfl
@[simp] theorem State.endBusy_tgtHead (s : State) : s.endBusy.tgtHead = s.tgtHead := rfl
@[simp] theorem State.endBusy_nodeN (s : State) : s.endBusy.nodeN = s.nodeN := rfl
@[simp] theorem State.endBusy_root (s : State) : s.endBusy.root = s.root := rfl
@[simp] theorem State.endBusy_treeValid (s : State) : s.endBusy.treeValid = s.treeValid := rfl
@[simp] theorem State.endBusy_codesValid (s : State) : s.endBusy.codesValid = s.codesValid := rfl
@[simp] theorem State.endBusy_decPartial (s : State) : s.endBusy.decPartial = s.decPartial := rfl
@[simp] theorem State.endBusy_symInLen (s : State) : s.endBusy.symInLen = s.symInLen := rfl
@[simp] theorem State.endBusy_symOutLen (s : State) : s.endBusy.symOutLen = s.symOutLen := rfl
@[simp] theorem State.endBusy_bitLen (s : State) : s.endBusy.bitLen = s.bitLen := rfl
@[simp] theorem State.endBusy_byteLen (s : State) : s.endBusy.byteLen = s.byteLen := rfl
@[simp] theorem State.endBusy_ft (s : State) : s.endBusy.ft = s.ft := rfl
@[simp] theorem State.endBusy_nodes (s : State) : s.endBusy.nodes = s.nodes := rfl
@[simp] theorem State.endBusy_codes (s : State) : s.endBusy.codes = s.codes := rfl
@[simp] theorem State.endBusy_symIn (s : State) : s.endBusy.symIn = s.symIn := rfl
@[simp] theorem State.endBusy_symOut (s : State) : s.endBusy.symOut = s.symOut := rfl
@[simp] theorem State.endBusy_bits (s : State) : s.endBusy.bits = s.bits := rfl
@[simp] theorem State.endBusy_bytes (s : State) : s.endBusy.bytes = s.bytes := rfl
@[simp] theorem State.endBusy_pending (s : State) : s.endBusy.pending = s.pending := rfl
@[simp] theorem State.endBusy_shown (s : State) : s.endBusy.shown = s.shown := rfl
@[simp] theorem State.endBusy_draws (s : State) : s.endBusy.draws = s.draws := rfl

/-! ## countPoll: a poll that finds BUSY = 1 (10_state R24) -/

@[simp] theorem State.countPoll_cfg (s : State) : s.countPoll.cfg = s.cfg := rfl
@[simp] theorem State.countPoll_arg (s : State) : s.countPoll.arg = s.arg := rfl
@[simp] theorem State.countPoll_busy (s : State) : s.countPoll.busy = s.busy := rfl
@[simp] theorem State.countPoll_busyPolls (s : State) : s.countPoll.busyPolls = s.busyPolls - 1 := rfl
@[simp] theorem State.countPoll_errCode (s : State) : s.countPoll.errCode = s.errCode := rfl
@[simp] theorem State.countPoll_errOp (s : State) : s.countPoll.errOp = s.errOp := rfl
@[simp] theorem State.countPoll_errInfo (s : State) : s.countPoll.errInfo = s.errInfo := rfl
@[simp] theorem State.countPoll_ftN (s : State) : s.countPoll.ftN = s.ftN := rfl
@[simp] theorem State.countPoll_tbState (s : State) : s.countPoll.tbState = s.tbState := rfl
@[simp] theorem State.countPoll_srcHead (s : State) : s.countPoll.srcHead = s.srcHead := rfl
@[simp] theorem State.countPoll_tgtHead (s : State) : s.countPoll.tgtHead = s.tgtHead := rfl
@[simp] theorem State.countPoll_nodeN (s : State) : s.countPoll.nodeN = s.nodeN := rfl
@[simp] theorem State.countPoll_root (s : State) : s.countPoll.root = s.root := rfl
@[simp] theorem State.countPoll_treeValid (s : State) : s.countPoll.treeValid = s.treeValid := rfl
@[simp] theorem State.countPoll_codesValid (s : State) : s.countPoll.codesValid = s.codesValid := rfl
@[simp] theorem State.countPoll_decPartial (s : State) : s.countPoll.decPartial = s.decPartial := rfl
@[simp] theorem State.countPoll_symInLen (s : State) : s.countPoll.symInLen = s.symInLen := rfl
@[simp] theorem State.countPoll_symOutLen (s : State) : s.countPoll.symOutLen = s.symOutLen := rfl
@[simp] theorem State.countPoll_bitLen (s : State) : s.countPoll.bitLen = s.bitLen := rfl
@[simp] theorem State.countPoll_byteLen (s : State) : s.countPoll.byteLen = s.byteLen := rfl
@[simp] theorem State.countPoll_ft (s : State) : s.countPoll.ft = s.ft := rfl
@[simp] theorem State.countPoll_nodes (s : State) : s.countPoll.nodes = s.nodes := rfl
@[simp] theorem State.countPoll_codes (s : State) : s.countPoll.codes = s.codes := rfl
@[simp] theorem State.countPoll_symIn (s : State) : s.countPoll.symIn = s.symIn := rfl
@[simp] theorem State.countPoll_symOut (s : State) : s.countPoll.symOut = s.symOut := rfl
@[simp] theorem State.countPoll_bits (s : State) : s.countPoll.bits = s.bits := rfl
@[simp] theorem State.countPoll_bytes (s : State) : s.countPoll.bytes = s.bytes := rfl
@[simp] theorem State.countPoll_pending (s : State) : s.countPoll.pending = s.pending := rfl
@[simp] theorem State.countPoll_shown (s : State) : s.countPoll.shown = s.shown := rfl
@[simp] theorem State.countPoll_draws (s : State) : s.countPoll.draws = s.draws := rfl

/-! ## respond: the host sees a response (00_scope R9) -/

@[simp] theorem State.respond_cfg (s : State) (r : BusResponse) : (s.respond r).cfg = s.cfg := rfl
@[simp] theorem State.respond_arg (s : State) (r : BusResponse) : (s.respond r).arg = s.arg := rfl
@[simp] theorem State.respond_busy (s : State) (r : BusResponse) : (s.respond r).busy = s.busy := rfl
@[simp] theorem State.respond_busyPolls (s : State) (r : BusResponse) : (s.respond r).busyPolls = s.busyPolls := rfl
@[simp] theorem State.respond_errCode (s : State) (r : BusResponse) : (s.respond r).errCode = s.errCode := rfl
@[simp] theorem State.respond_errOp (s : State) (r : BusResponse) : (s.respond r).errOp = s.errOp := rfl
@[simp] theorem State.respond_errInfo (s : State) (r : BusResponse) : (s.respond r).errInfo = s.errInfo := rfl
@[simp] theorem State.respond_ftN (s : State) (r : BusResponse) : (s.respond r).ftN = s.ftN := rfl
@[simp] theorem State.respond_tbState (s : State) (r : BusResponse) : (s.respond r).tbState = s.tbState := rfl
@[simp] theorem State.respond_srcHead (s : State) (r : BusResponse) : (s.respond r).srcHead = s.srcHead := rfl
@[simp] theorem State.respond_tgtHead (s : State) (r : BusResponse) : (s.respond r).tgtHead = s.tgtHead := rfl
@[simp] theorem State.respond_nodeN (s : State) (r : BusResponse) : (s.respond r).nodeN = s.nodeN := rfl
@[simp] theorem State.respond_root (s : State) (r : BusResponse) : (s.respond r).root = s.root := rfl
@[simp] theorem State.respond_treeValid (s : State) (r : BusResponse) : (s.respond r).treeValid = s.treeValid := rfl
@[simp] theorem State.respond_codesValid (s : State) (r : BusResponse) : (s.respond r).codesValid = s.codesValid := rfl
@[simp] theorem State.respond_decPartial (s : State) (r : BusResponse) : (s.respond r).decPartial = s.decPartial := rfl
@[simp] theorem State.respond_symInLen (s : State) (r : BusResponse) : (s.respond r).symInLen = s.symInLen := rfl
@[simp] theorem State.respond_symOutLen (s : State) (r : BusResponse) : (s.respond r).symOutLen = s.symOutLen := rfl
@[simp] theorem State.respond_bitLen (s : State) (r : BusResponse) : (s.respond r).bitLen = s.bitLen := rfl
@[simp] theorem State.respond_byteLen (s : State) (r : BusResponse) : (s.respond r).byteLen = s.byteLen := rfl
@[simp] theorem State.respond_ft (s : State) (r : BusResponse) : (s.respond r).ft = s.ft := rfl
@[simp] theorem State.respond_nodes (s : State) (r : BusResponse) : (s.respond r).nodes = s.nodes := rfl
@[simp] theorem State.respond_codes (s : State) (r : BusResponse) : (s.respond r).codes = s.codes := rfl
@[simp] theorem State.respond_symIn (s : State) (r : BusResponse) : (s.respond r).symIn = s.symIn := rfl
@[simp] theorem State.respond_symOut (s : State) (r : BusResponse) : (s.respond r).symOut = s.symOut := rfl
@[simp] theorem State.respond_bits (s : State) (r : BusResponse) : (s.respond r).bits = s.bits := rfl
@[simp] theorem State.respond_bytes (s : State) (r : BusResponse) : (s.respond r).bytes = s.bytes := rfl
@[simp] theorem State.respond_pending (s : State) (r : BusResponse) : (s.respond r).pending = s.pending := rfl
@[simp] theorem State.respond_shown (s : State) (r : BusResponse) : (s.respond r).shown = r :: s.shown := rfl
@[simp] theorem State.respond_draws (s : State) (r : BusResponse) : (s.respond r).draws = s.draws := rfl

/-! ## takeAction: the host's next action (00_scope R8) -/

@[simp] theorem State.takeAction_cfg (s : State) (rest : List HostAction) : (s.takeAction rest).cfg = s.cfg := rfl
@[simp] theorem State.takeAction_arg (s : State) (rest : List HostAction) : (s.takeAction rest).arg = s.arg := rfl
@[simp] theorem State.takeAction_busy (s : State) (rest : List HostAction) : (s.takeAction rest).busy = s.busy := rfl
@[simp] theorem State.takeAction_busyPolls (s : State) (rest : List HostAction) : (s.takeAction rest).busyPolls = s.busyPolls := rfl
@[simp] theorem State.takeAction_errCode (s : State) (rest : List HostAction) : (s.takeAction rest).errCode = s.errCode := rfl
@[simp] theorem State.takeAction_errOp (s : State) (rest : List HostAction) : (s.takeAction rest).errOp = s.errOp := rfl
@[simp] theorem State.takeAction_errInfo (s : State) (rest : List HostAction) : (s.takeAction rest).errInfo = s.errInfo := rfl
@[simp] theorem State.takeAction_ftN (s : State) (rest : List HostAction) : (s.takeAction rest).ftN = s.ftN := rfl
@[simp] theorem State.takeAction_tbState (s : State) (rest : List HostAction) : (s.takeAction rest).tbState = s.tbState := rfl
@[simp] theorem State.takeAction_srcHead (s : State) (rest : List HostAction) : (s.takeAction rest).srcHead = s.srcHead := rfl
@[simp] theorem State.takeAction_tgtHead (s : State) (rest : List HostAction) : (s.takeAction rest).tgtHead = s.tgtHead := rfl
@[simp] theorem State.takeAction_nodeN (s : State) (rest : List HostAction) : (s.takeAction rest).nodeN = s.nodeN := rfl
@[simp] theorem State.takeAction_root (s : State) (rest : List HostAction) : (s.takeAction rest).root = s.root := rfl
@[simp] theorem State.takeAction_treeValid (s : State) (rest : List HostAction) : (s.takeAction rest).treeValid = s.treeValid := rfl
@[simp] theorem State.takeAction_codesValid (s : State) (rest : List HostAction) : (s.takeAction rest).codesValid = s.codesValid := rfl
@[simp] theorem State.takeAction_decPartial (s : State) (rest : List HostAction) : (s.takeAction rest).decPartial = s.decPartial := rfl
@[simp] theorem State.takeAction_symInLen (s : State) (rest : List HostAction) : (s.takeAction rest).symInLen = s.symInLen := rfl
@[simp] theorem State.takeAction_symOutLen (s : State) (rest : List HostAction) : (s.takeAction rest).symOutLen = s.symOutLen := rfl
@[simp] theorem State.takeAction_bitLen (s : State) (rest : List HostAction) : (s.takeAction rest).bitLen = s.bitLen := rfl
@[simp] theorem State.takeAction_byteLen (s : State) (rest : List HostAction) : (s.takeAction rest).byteLen = s.byteLen := rfl
@[simp] theorem State.takeAction_ft (s : State) (rest : List HostAction) : (s.takeAction rest).ft = s.ft := rfl
@[simp] theorem State.takeAction_nodes (s : State) (rest : List HostAction) : (s.takeAction rest).nodes = s.nodes := rfl
@[simp] theorem State.takeAction_codes (s : State) (rest : List HostAction) : (s.takeAction rest).codes = s.codes := rfl
@[simp] theorem State.takeAction_symIn (s : State) (rest : List HostAction) : (s.takeAction rest).symIn = s.symIn := rfl
@[simp] theorem State.takeAction_symOut (s : State) (rest : List HostAction) : (s.takeAction rest).symOut = s.symOut := rfl
@[simp] theorem State.takeAction_bits (s : State) (rest : List HostAction) : (s.takeAction rest).bits = s.bits := rfl
@[simp] theorem State.takeAction_bytes (s : State) (rest : List HostAction) : (s.takeAction rest).bytes = s.bytes := rfl
@[simp] theorem State.takeAction_pending (s : State) (rest : List HostAction) : (s.takeAction rest).pending = rest := rfl
@[simp] theorem State.takeAction_shown (s : State) (rest : List HostAction) : (s.takeAction rest).shown = s.shown := rfl
@[simp] theorem State.takeAction_draws (s : State) (rest : List HostAction) : (s.takeAction rest).draws = s.draws + 1 := rfl

/-! ## requeue: an unfinished action (30_encoding R90) -/

@[simp] theorem State.requeue_cfg (s : State) (a : HostAction) : (s.requeue a).cfg = s.cfg := rfl
@[simp] theorem State.requeue_arg (s : State) (a : HostAction) : (s.requeue a).arg = s.arg := rfl
@[simp] theorem State.requeue_busy (s : State) (a : HostAction) : (s.requeue a).busy = s.busy := rfl
@[simp] theorem State.requeue_busyPolls (s : State) (a : HostAction) : (s.requeue a).busyPolls = s.busyPolls := rfl
@[simp] theorem State.requeue_errCode (s : State) (a : HostAction) : (s.requeue a).errCode = s.errCode := rfl
@[simp] theorem State.requeue_errOp (s : State) (a : HostAction) : (s.requeue a).errOp = s.errOp := rfl
@[simp] theorem State.requeue_errInfo (s : State) (a : HostAction) : (s.requeue a).errInfo = s.errInfo := rfl
@[simp] theorem State.requeue_ftN (s : State) (a : HostAction) : (s.requeue a).ftN = s.ftN := rfl
@[simp] theorem State.requeue_tbState (s : State) (a : HostAction) : (s.requeue a).tbState = s.tbState := rfl
@[simp] theorem State.requeue_srcHead (s : State) (a : HostAction) : (s.requeue a).srcHead = s.srcHead := rfl
@[simp] theorem State.requeue_tgtHead (s : State) (a : HostAction) : (s.requeue a).tgtHead = s.tgtHead := rfl
@[simp] theorem State.requeue_nodeN (s : State) (a : HostAction) : (s.requeue a).nodeN = s.nodeN := rfl
@[simp] theorem State.requeue_root (s : State) (a : HostAction) : (s.requeue a).root = s.root := rfl
@[simp] theorem State.requeue_treeValid (s : State) (a : HostAction) : (s.requeue a).treeValid = s.treeValid := rfl
@[simp] theorem State.requeue_codesValid (s : State) (a : HostAction) : (s.requeue a).codesValid = s.codesValid := rfl
@[simp] theorem State.requeue_decPartial (s : State) (a : HostAction) : (s.requeue a).decPartial = s.decPartial := rfl
@[simp] theorem State.requeue_symInLen (s : State) (a : HostAction) : (s.requeue a).symInLen = s.symInLen := rfl
@[simp] theorem State.requeue_symOutLen (s : State) (a : HostAction) : (s.requeue a).symOutLen = s.symOutLen := rfl
@[simp] theorem State.requeue_bitLen (s : State) (a : HostAction) : (s.requeue a).bitLen = s.bitLen := rfl
@[simp] theorem State.requeue_byteLen (s : State) (a : HostAction) : (s.requeue a).byteLen = s.byteLen := rfl
@[simp] theorem State.requeue_ft (s : State) (a : HostAction) : (s.requeue a).ft = s.ft := rfl
@[simp] theorem State.requeue_nodes (s : State) (a : HostAction) : (s.requeue a).nodes = s.nodes := rfl
@[simp] theorem State.requeue_codes (s : State) (a : HostAction) : (s.requeue a).codes = s.codes := rfl
@[simp] theorem State.requeue_symIn (s : State) (a : HostAction) : (s.requeue a).symIn = s.symIn := rfl
@[simp] theorem State.requeue_symOut (s : State) (a : HostAction) : (s.requeue a).symOut = s.symOut := rfl
@[simp] theorem State.requeue_bits (s : State) (a : HostAction) : (s.requeue a).bits = s.bits := rfl
@[simp] theorem State.requeue_bytes (s : State) (a : HostAction) : (s.requeue a).bytes = s.bytes := rfl
@[simp] theorem State.requeue_pending (s : State) (a : HostAction) : (s.requeue a).pending = a :: s.pending := rfl
@[simp] theorem State.requeue_shown (s : State) (a : HostAction) : (s.requeue a).shown = s.shown := rfl
@[simp] theorem State.requeue_draws (s : State) (a : HostAction) : (s.requeue a).draws = s.draws := rfl

/-! ## setArg: a write to ARG (10_state R22) -/

@[simp] theorem State.setArg_cfg (s : State) (v : Word) : (s.setArg v).cfg = s.cfg := rfl
@[simp] theorem State.setArg_arg (s : State) (v : Word) : (s.setArg v).arg = v := rfl
@[simp] theorem State.setArg_busy (s : State) (v : Word) : (s.setArg v).busy = s.busy := rfl
@[simp] theorem State.setArg_busyPolls (s : State) (v : Word) : (s.setArg v).busyPolls = s.busyPolls := rfl
@[simp] theorem State.setArg_errCode (s : State) (v : Word) : (s.setArg v).errCode = s.errCode := rfl
@[simp] theorem State.setArg_errOp (s : State) (v : Word) : (s.setArg v).errOp = s.errOp := rfl
@[simp] theorem State.setArg_errInfo (s : State) (v : Word) : (s.setArg v).errInfo = s.errInfo := rfl
@[simp] theorem State.setArg_ftN (s : State) (v : Word) : (s.setArg v).ftN = s.ftN := rfl
@[simp] theorem State.setArg_tbState (s : State) (v : Word) : (s.setArg v).tbState = s.tbState := rfl
@[simp] theorem State.setArg_srcHead (s : State) (v : Word) : (s.setArg v).srcHead = s.srcHead := rfl
@[simp] theorem State.setArg_tgtHead (s : State) (v : Word) : (s.setArg v).tgtHead = s.tgtHead := rfl
@[simp] theorem State.setArg_nodeN (s : State) (v : Word) : (s.setArg v).nodeN = s.nodeN := rfl
@[simp] theorem State.setArg_root (s : State) (v : Word) : (s.setArg v).root = s.root := rfl
@[simp] theorem State.setArg_treeValid (s : State) (v : Word) : (s.setArg v).treeValid = s.treeValid := rfl
@[simp] theorem State.setArg_codesValid (s : State) (v : Word) : (s.setArg v).codesValid = s.codesValid := rfl
@[simp] theorem State.setArg_decPartial (s : State) (v : Word) : (s.setArg v).decPartial = s.decPartial := rfl
@[simp] theorem State.setArg_symInLen (s : State) (v : Word) : (s.setArg v).symInLen = s.symInLen := rfl
@[simp] theorem State.setArg_symOutLen (s : State) (v : Word) : (s.setArg v).symOutLen = s.symOutLen := rfl
@[simp] theorem State.setArg_bitLen (s : State) (v : Word) : (s.setArg v).bitLen = s.bitLen := rfl
@[simp] theorem State.setArg_byteLen (s : State) (v : Word) : (s.setArg v).byteLen = s.byteLen := rfl
@[simp] theorem State.setArg_ft (s : State) (v : Word) : (s.setArg v).ft = s.ft := rfl
@[simp] theorem State.setArg_nodes (s : State) (v : Word) : (s.setArg v).nodes = s.nodes := rfl
@[simp] theorem State.setArg_codes (s : State) (v : Word) : (s.setArg v).codes = s.codes := rfl
@[simp] theorem State.setArg_symIn (s : State) (v : Word) : (s.setArg v).symIn = s.symIn := rfl
@[simp] theorem State.setArg_symOut (s : State) (v : Word) : (s.setArg v).symOut = s.symOut := rfl
@[simp] theorem State.setArg_bits (s : State) (v : Word) : (s.setArg v).bits = s.bits := rfl
@[simp] theorem State.setArg_bytes (s : State) (v : Word) : (s.setArg v).bytes = s.bytes := rfl
@[simp] theorem State.setArg_pending (s : State) (v : Word) : (s.setArg v).pending = s.pending := rfl
@[simp] theorem State.setArg_shown (s : State) (v : Word) : (s.setArg v).shown = s.shown := rfl
@[simp] theorem State.setArg_draws (s : State) (v : Word) : (s.setArg v).draws = s.draws := rfl

/-! ## setSymInLen: a write to SYM_IN_LEN (20_memory R54) -/

@[simp] theorem State.setSymInLen_cfg (s : State) (n : Nat) : (s.setSymInLen n).cfg = s.cfg := rfl
@[simp] theorem State.setSymInLen_arg (s : State) (n : Nat) : (s.setSymInLen n).arg = s.arg := rfl
@[simp] theorem State.setSymInLen_busy (s : State) (n : Nat) : (s.setSymInLen n).busy = s.busy := rfl
@[simp] theorem State.setSymInLen_busyPolls (s : State) (n : Nat) : (s.setSymInLen n).busyPolls = s.busyPolls := rfl
@[simp] theorem State.setSymInLen_errCode (s : State) (n : Nat) : (s.setSymInLen n).errCode = s.errCode := rfl
@[simp] theorem State.setSymInLen_errOp (s : State) (n : Nat) : (s.setSymInLen n).errOp = s.errOp := rfl
@[simp] theorem State.setSymInLen_errInfo (s : State) (n : Nat) : (s.setSymInLen n).errInfo = s.errInfo := rfl
@[simp] theorem State.setSymInLen_ftN (s : State) (n : Nat) : (s.setSymInLen n).ftN = s.ftN := rfl
@[simp] theorem State.setSymInLen_tbState (s : State) (n : Nat) : (s.setSymInLen n).tbState = s.tbState := rfl
@[simp] theorem State.setSymInLen_srcHead (s : State) (n : Nat) : (s.setSymInLen n).srcHead = s.srcHead := rfl
@[simp] theorem State.setSymInLen_tgtHead (s : State) (n : Nat) : (s.setSymInLen n).tgtHead = s.tgtHead := rfl
@[simp] theorem State.setSymInLen_nodeN (s : State) (n : Nat) : (s.setSymInLen n).nodeN = s.nodeN := rfl
@[simp] theorem State.setSymInLen_root (s : State) (n : Nat) : (s.setSymInLen n).root = s.root := rfl
@[simp] theorem State.setSymInLen_treeValid (s : State) (n : Nat) : (s.setSymInLen n).treeValid = s.treeValid := rfl
@[simp] theorem State.setSymInLen_codesValid (s : State) (n : Nat) : (s.setSymInLen n).codesValid = s.codesValid := rfl
@[simp] theorem State.setSymInLen_decPartial (s : State) (n : Nat) : (s.setSymInLen n).decPartial = s.decPartial := rfl
@[simp] theorem State.setSymInLen_symInLen (s : State) (n : Nat) : (s.setSymInLen n).symInLen = n := rfl
@[simp] theorem State.setSymInLen_symOutLen (s : State) (n : Nat) : (s.setSymInLen n).symOutLen = s.symOutLen := rfl
@[simp] theorem State.setSymInLen_bitLen (s : State) (n : Nat) : (s.setSymInLen n).bitLen = s.bitLen := rfl
@[simp] theorem State.setSymInLen_byteLen (s : State) (n : Nat) : (s.setSymInLen n).byteLen = s.byteLen := rfl
@[simp] theorem State.setSymInLen_ft (s : State) (n : Nat) : (s.setSymInLen n).ft = s.ft := rfl
@[simp] theorem State.setSymInLen_nodes (s : State) (n : Nat) : (s.setSymInLen n).nodes = s.nodes := rfl
@[simp] theorem State.setSymInLen_codes (s : State) (n : Nat) : (s.setSymInLen n).codes = s.codes := rfl
@[simp] theorem State.setSymInLen_symIn (s : State) (n : Nat) : (s.setSymInLen n).symIn = s.symIn := rfl
@[simp] theorem State.setSymInLen_symOut (s : State) (n : Nat) : (s.setSymInLen n).symOut = s.symOut := rfl
@[simp] theorem State.setSymInLen_bits (s : State) (n : Nat) : (s.setSymInLen n).bits = s.bits := rfl
@[simp] theorem State.setSymInLen_bytes (s : State) (n : Nat) : (s.setSymInLen n).bytes = s.bytes := rfl
@[simp] theorem State.setSymInLen_pending (s : State) (n : Nat) : (s.setSymInLen n).pending = s.pending := rfl
@[simp] theorem State.setSymInLen_shown (s : State) (n : Nat) : (s.setSymInLen n).shown = s.shown := rfl
@[simp] theorem State.setSymInLen_draws (s : State) (n : Nat) : (s.setSymInLen n).draws = s.draws := rfl

/-! ## setBitLen: a write to BIT_LEN (20_memory R54) -/

@[simp] theorem State.setBitLen_cfg (s : State) (n : Nat) : (s.setBitLen n).cfg = s.cfg := rfl
@[simp] theorem State.setBitLen_arg (s : State) (n : Nat) : (s.setBitLen n).arg = s.arg := rfl
@[simp] theorem State.setBitLen_busy (s : State) (n : Nat) : (s.setBitLen n).busy = s.busy := rfl
@[simp] theorem State.setBitLen_busyPolls (s : State) (n : Nat) : (s.setBitLen n).busyPolls = s.busyPolls := rfl
@[simp] theorem State.setBitLen_errCode (s : State) (n : Nat) : (s.setBitLen n).errCode = s.errCode := rfl
@[simp] theorem State.setBitLen_errOp (s : State) (n : Nat) : (s.setBitLen n).errOp = s.errOp := rfl
@[simp] theorem State.setBitLen_errInfo (s : State) (n : Nat) : (s.setBitLen n).errInfo = s.errInfo := rfl
@[simp] theorem State.setBitLen_ftN (s : State) (n : Nat) : (s.setBitLen n).ftN = s.ftN := rfl
@[simp] theorem State.setBitLen_tbState (s : State) (n : Nat) : (s.setBitLen n).tbState = s.tbState := rfl
@[simp] theorem State.setBitLen_srcHead (s : State) (n : Nat) : (s.setBitLen n).srcHead = s.srcHead := rfl
@[simp] theorem State.setBitLen_tgtHead (s : State) (n : Nat) : (s.setBitLen n).tgtHead = s.tgtHead := rfl
@[simp] theorem State.setBitLen_nodeN (s : State) (n : Nat) : (s.setBitLen n).nodeN = s.nodeN := rfl
@[simp] theorem State.setBitLen_root (s : State) (n : Nat) : (s.setBitLen n).root = s.root := rfl
@[simp] theorem State.setBitLen_treeValid (s : State) (n : Nat) : (s.setBitLen n).treeValid = s.treeValid := rfl
@[simp] theorem State.setBitLen_codesValid (s : State) (n : Nat) : (s.setBitLen n).codesValid = s.codesValid := rfl
@[simp] theorem State.setBitLen_decPartial (s : State) (n : Nat) : (s.setBitLen n).decPartial = s.decPartial := rfl
@[simp] theorem State.setBitLen_symInLen (s : State) (n : Nat) : (s.setBitLen n).symInLen = s.symInLen := rfl
@[simp] theorem State.setBitLen_symOutLen (s : State) (n : Nat) : (s.setBitLen n).symOutLen = s.symOutLen := rfl
@[simp] theorem State.setBitLen_bitLen (s : State) (n : Nat) : (s.setBitLen n).bitLen = n := rfl
@[simp] theorem State.setBitLen_byteLen (s : State) (n : Nat) : (s.setBitLen n).byteLen = s.byteLen := rfl
@[simp] theorem State.setBitLen_ft (s : State) (n : Nat) : (s.setBitLen n).ft = s.ft := rfl
@[simp] theorem State.setBitLen_nodes (s : State) (n : Nat) : (s.setBitLen n).nodes = s.nodes := rfl
@[simp] theorem State.setBitLen_codes (s : State) (n : Nat) : (s.setBitLen n).codes = s.codes := rfl
@[simp] theorem State.setBitLen_symIn (s : State) (n : Nat) : (s.setBitLen n).symIn = s.symIn := rfl
@[simp] theorem State.setBitLen_symOut (s : State) (n : Nat) : (s.setBitLen n).symOut = s.symOut := rfl
@[simp] theorem State.setBitLen_bits (s : State) (n : Nat) : (s.setBitLen n).bits = s.bits := rfl
@[simp] theorem State.setBitLen_bytes (s : State) (n : Nat) : (s.setBitLen n).bytes = s.bytes := rfl
@[simp] theorem State.setBitLen_pending (s : State) (n : Nat) : (s.setBitLen n).pending = s.pending := rfl
@[simp] theorem State.setBitLen_shown (s : State) (n : Nat) : (s.setBitLen n).shown = s.shown := rfl
@[simp] theorem State.setBitLen_draws (s : State) (n : Nat) : (s.setBitLen n).draws = s.draws := rfl

/-! ## setByteLen: a write to BYTE_LEN (20_memory R54) -/

@[simp] theorem State.setByteLen_cfg (s : State) (n : Nat) : (s.setByteLen n).cfg = s.cfg := rfl
@[simp] theorem State.setByteLen_arg (s : State) (n : Nat) : (s.setByteLen n).arg = s.arg := rfl
@[simp] theorem State.setByteLen_busy (s : State) (n : Nat) : (s.setByteLen n).busy = s.busy := rfl
@[simp] theorem State.setByteLen_busyPolls (s : State) (n : Nat) : (s.setByteLen n).busyPolls = s.busyPolls := rfl
@[simp] theorem State.setByteLen_errCode (s : State) (n : Nat) : (s.setByteLen n).errCode = s.errCode := rfl
@[simp] theorem State.setByteLen_errOp (s : State) (n : Nat) : (s.setByteLen n).errOp = s.errOp := rfl
@[simp] theorem State.setByteLen_errInfo (s : State) (n : Nat) : (s.setByteLen n).errInfo = s.errInfo := rfl
@[simp] theorem State.setByteLen_ftN (s : State) (n : Nat) : (s.setByteLen n).ftN = s.ftN := rfl
@[simp] theorem State.setByteLen_tbState (s : State) (n : Nat) : (s.setByteLen n).tbState = s.tbState := rfl
@[simp] theorem State.setByteLen_srcHead (s : State) (n : Nat) : (s.setByteLen n).srcHead = s.srcHead := rfl
@[simp] theorem State.setByteLen_tgtHead (s : State) (n : Nat) : (s.setByteLen n).tgtHead = s.tgtHead := rfl
@[simp] theorem State.setByteLen_nodeN (s : State) (n : Nat) : (s.setByteLen n).nodeN = s.nodeN := rfl
@[simp] theorem State.setByteLen_root (s : State) (n : Nat) : (s.setByteLen n).root = s.root := rfl
@[simp] theorem State.setByteLen_treeValid (s : State) (n : Nat) : (s.setByteLen n).treeValid = s.treeValid := rfl
@[simp] theorem State.setByteLen_codesValid (s : State) (n : Nat) : (s.setByteLen n).codesValid = s.codesValid := rfl
@[simp] theorem State.setByteLen_decPartial (s : State) (n : Nat) : (s.setByteLen n).decPartial = s.decPartial := rfl
@[simp] theorem State.setByteLen_symInLen (s : State) (n : Nat) : (s.setByteLen n).symInLen = s.symInLen := rfl
@[simp] theorem State.setByteLen_symOutLen (s : State) (n : Nat) : (s.setByteLen n).symOutLen = s.symOutLen := rfl
@[simp] theorem State.setByteLen_bitLen (s : State) (n : Nat) : (s.setByteLen n).bitLen = s.bitLen := rfl
@[simp] theorem State.setByteLen_byteLen (s : State) (n : Nat) : (s.setByteLen n).byteLen = n := rfl
@[simp] theorem State.setByteLen_ft (s : State) (n : Nat) : (s.setByteLen n).ft = s.ft := rfl
@[simp] theorem State.setByteLen_nodes (s : State) (n : Nat) : (s.setByteLen n).nodes = s.nodes := rfl
@[simp] theorem State.setByteLen_codes (s : State) (n : Nat) : (s.setByteLen n).codes = s.codes := rfl
@[simp] theorem State.setByteLen_symIn (s : State) (n : Nat) : (s.setByteLen n).symIn = s.symIn := rfl
@[simp] theorem State.setByteLen_symOut (s : State) (n : Nat) : (s.setByteLen n).symOut = s.symOut := rfl
@[simp] theorem State.setByteLen_bits (s : State) (n : Nat) : (s.setByteLen n).bits = s.bits := rfl
@[simp] theorem State.setByteLen_bytes (s : State) (n : Nat) : (s.setByteLen n).bytes = s.bytes := rfl
@[simp] theorem State.setByteLen_pending (s : State) (n : Nat) : (s.setByteLen n).pending = s.pending := rfl
@[simp] theorem State.setByteLen_shown (s : State) (n : Nat) : (s.setByteLen n).shown = s.shown := rfl
@[simp] theorem State.setByteLen_draws (s : State) (n : Nat) : (s.setByteLen n).draws = s.draws := rfl

/-! ## setSymIn: a write into SYM_IN (20_memory R58) -/

@[simp] theorem State.setSymIn_cfg (s : State) (m : Memory Byte) : (s.setSymIn m).cfg = s.cfg := rfl
@[simp] theorem State.setSymIn_arg (s : State) (m : Memory Byte) : (s.setSymIn m).arg = s.arg := rfl
@[simp] theorem State.setSymIn_busy (s : State) (m : Memory Byte) : (s.setSymIn m).busy = s.busy := rfl
@[simp] theorem State.setSymIn_busyPolls (s : State) (m : Memory Byte) : (s.setSymIn m).busyPolls = s.busyPolls := rfl
@[simp] theorem State.setSymIn_errCode (s : State) (m : Memory Byte) : (s.setSymIn m).errCode = s.errCode := rfl
@[simp] theorem State.setSymIn_errOp (s : State) (m : Memory Byte) : (s.setSymIn m).errOp = s.errOp := rfl
@[simp] theorem State.setSymIn_errInfo (s : State) (m : Memory Byte) : (s.setSymIn m).errInfo = s.errInfo := rfl
@[simp] theorem State.setSymIn_ftN (s : State) (m : Memory Byte) : (s.setSymIn m).ftN = s.ftN := rfl
@[simp] theorem State.setSymIn_tbState (s : State) (m : Memory Byte) : (s.setSymIn m).tbState = s.tbState := rfl
@[simp] theorem State.setSymIn_srcHead (s : State) (m : Memory Byte) : (s.setSymIn m).srcHead = s.srcHead := rfl
@[simp] theorem State.setSymIn_tgtHead (s : State) (m : Memory Byte) : (s.setSymIn m).tgtHead = s.tgtHead := rfl
@[simp] theorem State.setSymIn_nodeN (s : State) (m : Memory Byte) : (s.setSymIn m).nodeN = s.nodeN := rfl
@[simp] theorem State.setSymIn_root (s : State) (m : Memory Byte) : (s.setSymIn m).root = s.root := rfl
@[simp] theorem State.setSymIn_treeValid (s : State) (m : Memory Byte) : (s.setSymIn m).treeValid = s.treeValid := rfl
@[simp] theorem State.setSymIn_codesValid (s : State) (m : Memory Byte) : (s.setSymIn m).codesValid = s.codesValid := rfl
@[simp] theorem State.setSymIn_decPartial (s : State) (m : Memory Byte) : (s.setSymIn m).decPartial = s.decPartial := rfl
@[simp] theorem State.setSymIn_symInLen (s : State) (m : Memory Byte) : (s.setSymIn m).symInLen = s.symInLen := rfl
@[simp] theorem State.setSymIn_symOutLen (s : State) (m : Memory Byte) : (s.setSymIn m).symOutLen = s.symOutLen := rfl
@[simp] theorem State.setSymIn_bitLen (s : State) (m : Memory Byte) : (s.setSymIn m).bitLen = s.bitLen := rfl
@[simp] theorem State.setSymIn_byteLen (s : State) (m : Memory Byte) : (s.setSymIn m).byteLen = s.byteLen := rfl
@[simp] theorem State.setSymIn_ft (s : State) (m : Memory Byte) : (s.setSymIn m).ft = s.ft := rfl
@[simp] theorem State.setSymIn_nodes (s : State) (m : Memory Byte) : (s.setSymIn m).nodes = s.nodes := rfl
@[simp] theorem State.setSymIn_codes (s : State) (m : Memory Byte) : (s.setSymIn m).codes = s.codes := rfl
@[simp] theorem State.setSymIn_symIn (s : State) (m : Memory Byte) : (s.setSymIn m).symIn = m := rfl
@[simp] theorem State.setSymIn_symOut (s : State) (m : Memory Byte) : (s.setSymIn m).symOut = s.symOut := rfl
@[simp] theorem State.setSymIn_bits (s : State) (m : Memory Byte) : (s.setSymIn m).bits = s.bits := rfl
@[simp] theorem State.setSymIn_bytes (s : State) (m : Memory Byte) : (s.setSymIn m).bytes = s.bytes := rfl
@[simp] theorem State.setSymIn_pending (s : State) (m : Memory Byte) : (s.setSymIn m).pending = s.pending := rfl
@[simp] theorem State.setSymIn_shown (s : State) (m : Memory Byte) : (s.setSymIn m).shown = s.shown := rfl
@[simp] theorem State.setSymIn_draws (s : State) (m : Memory Byte) : (s.setSymIn m).draws = s.draws := rfl

/-! ## setBits: a write into BITS (20_memory R60) -/

@[simp] theorem State.setBits_cfg (s : State) (m : Memory Bool) : (s.setBits m).cfg = s.cfg := rfl
@[simp] theorem State.setBits_arg (s : State) (m : Memory Bool) : (s.setBits m).arg = s.arg := rfl
@[simp] theorem State.setBits_busy (s : State) (m : Memory Bool) : (s.setBits m).busy = s.busy := rfl
@[simp] theorem State.setBits_busyPolls (s : State) (m : Memory Bool) : (s.setBits m).busyPolls = s.busyPolls := rfl
@[simp] theorem State.setBits_errCode (s : State) (m : Memory Bool) : (s.setBits m).errCode = s.errCode := rfl
@[simp] theorem State.setBits_errOp (s : State) (m : Memory Bool) : (s.setBits m).errOp = s.errOp := rfl
@[simp] theorem State.setBits_errInfo (s : State) (m : Memory Bool) : (s.setBits m).errInfo = s.errInfo := rfl
@[simp] theorem State.setBits_ftN (s : State) (m : Memory Bool) : (s.setBits m).ftN = s.ftN := rfl
@[simp] theorem State.setBits_tbState (s : State) (m : Memory Bool) : (s.setBits m).tbState = s.tbState := rfl
@[simp] theorem State.setBits_srcHead (s : State) (m : Memory Bool) : (s.setBits m).srcHead = s.srcHead := rfl
@[simp] theorem State.setBits_tgtHead (s : State) (m : Memory Bool) : (s.setBits m).tgtHead = s.tgtHead := rfl
@[simp] theorem State.setBits_nodeN (s : State) (m : Memory Bool) : (s.setBits m).nodeN = s.nodeN := rfl
@[simp] theorem State.setBits_root (s : State) (m : Memory Bool) : (s.setBits m).root = s.root := rfl
@[simp] theorem State.setBits_treeValid (s : State) (m : Memory Bool) : (s.setBits m).treeValid = s.treeValid := rfl
@[simp] theorem State.setBits_codesValid (s : State) (m : Memory Bool) : (s.setBits m).codesValid = s.codesValid := rfl
@[simp] theorem State.setBits_decPartial (s : State) (m : Memory Bool) : (s.setBits m).decPartial = s.decPartial := rfl
@[simp] theorem State.setBits_symInLen (s : State) (m : Memory Bool) : (s.setBits m).symInLen = s.symInLen := rfl
@[simp] theorem State.setBits_symOutLen (s : State) (m : Memory Bool) : (s.setBits m).symOutLen = s.symOutLen := rfl
@[simp] theorem State.setBits_bitLen (s : State) (m : Memory Bool) : (s.setBits m).bitLen = s.bitLen := rfl
@[simp] theorem State.setBits_byteLen (s : State) (m : Memory Bool) : (s.setBits m).byteLen = s.byteLen := rfl
@[simp] theorem State.setBits_ft (s : State) (m : Memory Bool) : (s.setBits m).ft = s.ft := rfl
@[simp] theorem State.setBits_nodes (s : State) (m : Memory Bool) : (s.setBits m).nodes = s.nodes := rfl
@[simp] theorem State.setBits_codes (s : State) (m : Memory Bool) : (s.setBits m).codes = s.codes := rfl
@[simp] theorem State.setBits_symIn (s : State) (m : Memory Bool) : (s.setBits m).symIn = s.symIn := rfl
@[simp] theorem State.setBits_symOut (s : State) (m : Memory Bool) : (s.setBits m).symOut = s.symOut := rfl
@[simp] theorem State.setBits_bits (s : State) (m : Memory Bool) : (s.setBits m).bits = m := rfl
@[simp] theorem State.setBits_bytes (s : State) (m : Memory Bool) : (s.setBits m).bytes = s.bytes := rfl
@[simp] theorem State.setBits_pending (s : State) (m : Memory Bool) : (s.setBits m).pending = s.pending := rfl
@[simp] theorem State.setBits_shown (s : State) (m : Memory Bool) : (s.setBits m).shown = s.shown := rfl
@[simp] theorem State.setBits_draws (s : State) (m : Memory Bool) : (s.setBits m).draws = s.draws := rfl

/-! ## setBytes: a write into BYTES (20_memory R61) -/

@[simp] theorem State.setBytes_cfg (s : State) (m : Memory Byte) : (s.setBytes m).cfg = s.cfg := rfl
@[simp] theorem State.setBytes_arg (s : State) (m : Memory Byte) : (s.setBytes m).arg = s.arg := rfl
@[simp] theorem State.setBytes_busy (s : State) (m : Memory Byte) : (s.setBytes m).busy = s.busy := rfl
@[simp] theorem State.setBytes_busyPolls (s : State) (m : Memory Byte) : (s.setBytes m).busyPolls = s.busyPolls := rfl
@[simp] theorem State.setBytes_errCode (s : State) (m : Memory Byte) : (s.setBytes m).errCode = s.errCode := rfl
@[simp] theorem State.setBytes_errOp (s : State) (m : Memory Byte) : (s.setBytes m).errOp = s.errOp := rfl
@[simp] theorem State.setBytes_errInfo (s : State) (m : Memory Byte) : (s.setBytes m).errInfo = s.errInfo := rfl
@[simp] theorem State.setBytes_ftN (s : State) (m : Memory Byte) : (s.setBytes m).ftN = s.ftN := rfl
@[simp] theorem State.setBytes_tbState (s : State) (m : Memory Byte) : (s.setBytes m).tbState = s.tbState := rfl
@[simp] theorem State.setBytes_srcHead (s : State) (m : Memory Byte) : (s.setBytes m).srcHead = s.srcHead := rfl
@[simp] theorem State.setBytes_tgtHead (s : State) (m : Memory Byte) : (s.setBytes m).tgtHead = s.tgtHead := rfl
@[simp] theorem State.setBytes_nodeN (s : State) (m : Memory Byte) : (s.setBytes m).nodeN = s.nodeN := rfl
@[simp] theorem State.setBytes_root (s : State) (m : Memory Byte) : (s.setBytes m).root = s.root := rfl
@[simp] theorem State.setBytes_treeValid (s : State) (m : Memory Byte) : (s.setBytes m).treeValid = s.treeValid := rfl
@[simp] theorem State.setBytes_codesValid (s : State) (m : Memory Byte) : (s.setBytes m).codesValid = s.codesValid := rfl
@[simp] theorem State.setBytes_decPartial (s : State) (m : Memory Byte) : (s.setBytes m).decPartial = s.decPartial := rfl
@[simp] theorem State.setBytes_symInLen (s : State) (m : Memory Byte) : (s.setBytes m).symInLen = s.symInLen := rfl
@[simp] theorem State.setBytes_symOutLen (s : State) (m : Memory Byte) : (s.setBytes m).symOutLen = s.symOutLen := rfl
@[simp] theorem State.setBytes_bitLen (s : State) (m : Memory Byte) : (s.setBytes m).bitLen = s.bitLen := rfl
@[simp] theorem State.setBytes_byteLen (s : State) (m : Memory Byte) : (s.setBytes m).byteLen = s.byteLen := rfl
@[simp] theorem State.setBytes_ft (s : State) (m : Memory Byte) : (s.setBytes m).ft = s.ft := rfl
@[simp] theorem State.setBytes_nodes (s : State) (m : Memory Byte) : (s.setBytes m).nodes = s.nodes := rfl
@[simp] theorem State.setBytes_codes (s : State) (m : Memory Byte) : (s.setBytes m).codes = s.codes := rfl
@[simp] theorem State.setBytes_symIn (s : State) (m : Memory Byte) : (s.setBytes m).symIn = s.symIn := rfl
@[simp] theorem State.setBytes_symOut (s : State) (m : Memory Byte) : (s.setBytes m).symOut = s.symOut := rfl
@[simp] theorem State.setBytes_bits (s : State) (m : Memory Byte) : (s.setBytes m).bits = s.bits := rfl
@[simp] theorem State.setBytes_bytes (s : State) (m : Memory Byte) : (s.setBytes m).bytes = m := rfl
@[simp] theorem State.setBytes_pending (s : State) (m : Memory Byte) : (s.setBytes m).pending = s.pending := rfl
@[simp] theorem State.setBytes_shown (s : State) (m : Memory Byte) : (s.setBytes m).shown = s.shown := rfl
@[simp] theorem State.setBytes_draws (s : State) (m : Memory Byte) : (s.setBytes m).draws = s.draws := rfl

/-! ## raiseError: every field but the three error registers stays (60_exceptions R202, R204) -/

@[simp] theorem State.raiseError_cfg (s : State) (c : ErrCode) (op : BitVec 8) (w : Word) : (s.raiseError c op w).cfg = s.cfg := by
  unfold State.raiseError; split <;> rfl
@[simp] theorem State.raiseError_arg (s : State) (c : ErrCode) (op : BitVec 8) (w : Word) : (s.raiseError c op w).arg = s.arg := by
  unfold State.raiseError; split <;> rfl
@[simp] theorem State.raiseError_busy (s : State) (c : ErrCode) (op : BitVec 8) (w : Word) : (s.raiseError c op w).busy = s.busy := by
  unfold State.raiseError; split <;> rfl
@[simp] theorem State.raiseError_busyPolls (s : State) (c : ErrCode) (op : BitVec 8) (w : Word) : (s.raiseError c op w).busyPolls = s.busyPolls := by
  unfold State.raiseError; split <;> rfl
@[simp] theorem State.raiseError_ftN (s : State) (c : ErrCode) (op : BitVec 8) (w : Word) : (s.raiseError c op w).ftN = s.ftN := by
  unfold State.raiseError; split <;> rfl
@[simp] theorem State.raiseError_tbState (s : State) (c : ErrCode) (op : BitVec 8) (w : Word) : (s.raiseError c op w).tbState = s.tbState := by
  unfold State.raiseError; split <;> rfl
@[simp] theorem State.raiseError_srcHead (s : State) (c : ErrCode) (op : BitVec 8) (w : Word) : (s.raiseError c op w).srcHead = s.srcHead := by
  unfold State.raiseError; split <;> rfl
@[simp] theorem State.raiseError_tgtHead (s : State) (c : ErrCode) (op : BitVec 8) (w : Word) : (s.raiseError c op w).tgtHead = s.tgtHead := by
  unfold State.raiseError; split <;> rfl
@[simp] theorem State.raiseError_nodeN (s : State) (c : ErrCode) (op : BitVec 8) (w : Word) : (s.raiseError c op w).nodeN = s.nodeN := by
  unfold State.raiseError; split <;> rfl
@[simp] theorem State.raiseError_root (s : State) (c : ErrCode) (op : BitVec 8) (w : Word) : (s.raiseError c op w).root = s.root := by
  unfold State.raiseError; split <;> rfl
@[simp] theorem State.raiseError_treeValid (s : State) (c : ErrCode) (op : BitVec 8) (w : Word) : (s.raiseError c op w).treeValid = s.treeValid := by
  unfold State.raiseError; split <;> rfl
@[simp] theorem State.raiseError_codesValid (s : State) (c : ErrCode) (op : BitVec 8) (w : Word) : (s.raiseError c op w).codesValid = s.codesValid := by
  unfold State.raiseError; split <;> rfl
@[simp] theorem State.raiseError_decPartial (s : State) (c : ErrCode) (op : BitVec 8) (w : Word) : (s.raiseError c op w).decPartial = s.decPartial := by
  unfold State.raiseError; split <;> rfl
@[simp] theorem State.raiseError_symInLen (s : State) (c : ErrCode) (op : BitVec 8) (w : Word) : (s.raiseError c op w).symInLen = s.symInLen := by
  unfold State.raiseError; split <;> rfl
@[simp] theorem State.raiseError_symOutLen (s : State) (c : ErrCode) (op : BitVec 8) (w : Word) : (s.raiseError c op w).symOutLen = s.symOutLen := by
  unfold State.raiseError; split <;> rfl
@[simp] theorem State.raiseError_bitLen (s : State) (c : ErrCode) (op : BitVec 8) (w : Word) : (s.raiseError c op w).bitLen = s.bitLen := by
  unfold State.raiseError; split <;> rfl
@[simp] theorem State.raiseError_byteLen (s : State) (c : ErrCode) (op : BitVec 8) (w : Word) : (s.raiseError c op w).byteLen = s.byteLen := by
  unfold State.raiseError; split <;> rfl
@[simp] theorem State.raiseError_ft (s : State) (c : ErrCode) (op : BitVec 8) (w : Word) : (s.raiseError c op w).ft = s.ft := by
  unfold State.raiseError; split <;> rfl
@[simp] theorem State.raiseError_nodes (s : State) (c : ErrCode) (op : BitVec 8) (w : Word) : (s.raiseError c op w).nodes = s.nodes := by
  unfold State.raiseError; split <;> rfl
@[simp] theorem State.raiseError_codes (s : State) (c : ErrCode) (op : BitVec 8) (w : Word) : (s.raiseError c op w).codes = s.codes := by
  unfold State.raiseError; split <;> rfl
@[simp] theorem State.raiseError_symIn (s : State) (c : ErrCode) (op : BitVec 8) (w : Word) : (s.raiseError c op w).symIn = s.symIn := by
  unfold State.raiseError; split <;> rfl
@[simp] theorem State.raiseError_symOut (s : State) (c : ErrCode) (op : BitVec 8) (w : Word) : (s.raiseError c op w).symOut = s.symOut := by
  unfold State.raiseError; split <;> rfl
@[simp] theorem State.raiseError_bits (s : State) (c : ErrCode) (op : BitVec 8) (w : Word) : (s.raiseError c op w).bits = s.bits := by
  unfold State.raiseError; split <;> rfl
@[simp] theorem State.raiseError_bytes (s : State) (c : ErrCode) (op : BitVec 8) (w : Word) : (s.raiseError c op w).bytes = s.bytes := by
  unfold State.raiseError; split <;> rfl
@[simp] theorem State.raiseError_pending (s : State) (c : ErrCode) (op : BitVec 8) (w : Word) : (s.raiseError c op w).pending = s.pending := by
  unfold State.raiseError; split <;> rfl
@[simp] theorem State.raiseError_shown (s : State) (c : ErrCode) (op : BitVec 8) (w : Word) : (s.raiseError c op w).shown = s.shown := by
  unfold State.raiseError; split <;> rfl
@[simp] theorem State.raiseError_draws (s : State) (c : ErrCode) (op : BitVec 8) (w : Word) : (s.raiseError c op w).draws = s.draws := by
  unfold State.raiseError; split <;> rfl

/-! ## hardwareReset: the registers and memories of a fresh block, the run kept (70_reset R230) -/

@[simp] theorem State.hardwareReset_cfg (s : State) : s.hardwareReset.cfg = s.cfg := rfl
@[simp] theorem State.hardwareReset_arg (s : State) : s.hardwareReset.arg = (State.resetWith s.cfg).arg := rfl
@[simp] theorem State.hardwareReset_busy (s : State) : s.hardwareReset.busy = (State.resetWith s.cfg).busy := rfl
@[simp] theorem State.hardwareReset_busyPolls (s : State) : s.hardwareReset.busyPolls = (State.resetWith s.cfg).busyPolls := rfl
@[simp] theorem State.hardwareReset_errCode (s : State) : s.hardwareReset.errCode = (State.resetWith s.cfg).errCode := rfl
@[simp] theorem State.hardwareReset_errOp (s : State) : s.hardwareReset.errOp = (State.resetWith s.cfg).errOp := rfl
@[simp] theorem State.hardwareReset_errInfo (s : State) : s.hardwareReset.errInfo = (State.resetWith s.cfg).errInfo := rfl
@[simp] theorem State.hardwareReset_ftN (s : State) : s.hardwareReset.ftN = (State.resetWith s.cfg).ftN := rfl
@[simp] theorem State.hardwareReset_tbState (s : State) : s.hardwareReset.tbState = (State.resetWith s.cfg).tbState := rfl
@[simp] theorem State.hardwareReset_srcHead (s : State) : s.hardwareReset.srcHead = (State.resetWith s.cfg).srcHead := rfl
@[simp] theorem State.hardwareReset_tgtHead (s : State) : s.hardwareReset.tgtHead = (State.resetWith s.cfg).tgtHead := rfl
@[simp] theorem State.hardwareReset_nodeN (s : State) : s.hardwareReset.nodeN = (State.resetWith s.cfg).nodeN := rfl
@[simp] theorem State.hardwareReset_root (s : State) : s.hardwareReset.root = (State.resetWith s.cfg).root := rfl
@[simp] theorem State.hardwareReset_treeValid (s : State) : s.hardwareReset.treeValid = (State.resetWith s.cfg).treeValid := rfl
@[simp] theorem State.hardwareReset_codesValid (s : State) : s.hardwareReset.codesValid = (State.resetWith s.cfg).codesValid := rfl
@[simp] theorem State.hardwareReset_decPartial (s : State) : s.hardwareReset.decPartial = (State.resetWith s.cfg).decPartial := rfl
@[simp] theorem State.hardwareReset_symInLen (s : State) : s.hardwareReset.symInLen = (State.resetWith s.cfg).symInLen := rfl
@[simp] theorem State.hardwareReset_symOutLen (s : State) : s.hardwareReset.symOutLen = (State.resetWith s.cfg).symOutLen := rfl
@[simp] theorem State.hardwareReset_bitLen (s : State) : s.hardwareReset.bitLen = (State.resetWith s.cfg).bitLen := rfl
@[simp] theorem State.hardwareReset_byteLen (s : State) : s.hardwareReset.byteLen = (State.resetWith s.cfg).byteLen := rfl
@[simp] theorem State.hardwareReset_ft (s : State) : s.hardwareReset.ft = (State.resetWith s.cfg).ft := rfl
@[simp] theorem State.hardwareReset_nodes (s : State) : s.hardwareReset.nodes = (State.resetWith s.cfg).nodes := rfl
@[simp] theorem State.hardwareReset_codes (s : State) : s.hardwareReset.codes = (State.resetWith s.cfg).codes := rfl
@[simp] theorem State.hardwareReset_symIn (s : State) : s.hardwareReset.symIn = (State.resetWith s.cfg).symIn := rfl
@[simp] theorem State.hardwareReset_symOut (s : State) : s.hardwareReset.symOut = (State.resetWith s.cfg).symOut := rfl
@[simp] theorem State.hardwareReset_bits (s : State) : s.hardwareReset.bits = (State.resetWith s.cfg).bits := rfl
@[simp] theorem State.hardwareReset_bytes (s : State) : s.hardwareReset.bytes = (State.resetWith s.cfg).bytes := rfl
@[simp] theorem State.hardwareReset_pending (s : State) : s.hardwareReset.pending = s.pending := rfl
@[simp] theorem State.hardwareReset_shown (s : State) : s.hardwareReset.shown = s.shown := rfl
@[simp] theorem State.hardwareReset_draws (s : State) : s.hardwareReset.draws = s.draws := rfl

end Sys2Proof.Machine
end

