-- ==== Sys2Proof/Laws/Ops.lean ====
section
/-! SUPPORT. What the shared operations can do: sequencing, element reads, ending a command, raising an error. -/

namespace Sys2Proof.Machine

variable {α β : Type}

/-! ## Reset -/

/-- Every memory of the reset state is in canonical form. -/
theorem State.resetWith_memories_wf (p : Params) :
    Memory.wf (State.resetWith p).ft ∧ Memory.wf (State.resetWith p).nodes ∧ Memory.wf (State.resetWith p).codes ∧
    Memory.wf (State.resetWith p).symIn ∧ Memory.wf (State.resetWith p).symOut ∧ Memory.wf (State.resetWith p).bits ∧
    Memory.wf (State.resetWith p).bytes :=
  ⟨.nil, .nil, .nil, .nil, .nil, .nil, .nil⟩

/-! ## Sequencing -/

@[simp] theorem Ending.bind_done (a : α) (f : α → Ending β) : (Ending.done a).bind f = f a := rfl

@[simp] theorem Ending.bind_raised (c : ErrCode) (w : Word) (f : α → Ending β) : (Ending.raised c w).bind f = .raised c w := rfl

@[simp] theorem Ending.bind_stuck (x : Fault) (f : α → Ending β) : (Ending.stuck x).bind f = .stuck x := rfl

/-- A sequence finishes when both parts do. -/
theorem Ending.bind_eq_done {e : Ending α} {f : α → Ending β} {b : β} :
    e.bind f = .done b ↔ ∃ a, e = .done a ∧ f a = .done b := by
  cases e <;> simp [Ending.bind]

/-- A sequence raises when its first part does, or its second after the first finished. -/
theorem Ending.bind_eq_raised {e : Ending α} {f : α → Ending β} {c : ErrCode} {w : Word} :
    e.bind f = .raised c w ↔ e = .raised c w ∨ ∃ a, e = .done a ∧ f a = .raised c w := by
  cases e <;> simp [Ending.bind]

/-- A sequence stops when its first part does, or its second after the first finished. -/
theorem Ending.bind_eq_stuck {e : Ending α} {f : α → Ending β} {x : Fault} :
    e.bind f = .stuck x ↔ e = .stuck x ∨ ∃ a, e = .done a ∧ f a = .stuck x := by
  cases e <;> simp [Ending.bind]

theorem Ending.bind_assoc {γ : Type} (e : Ending α) (f : α → Ending β) (g : β → Ending γ) :
    (e.bind f).bind g = e.bind fun a => (f a).bind g := by
  cases e <;> rfl

/-! ## Element reads -/

/-- One element read: its value, or the fault that names it; never an error. -/
theorem fetch_eq (name : MemName) (m : Memory α) (a : Nat) :
    fetch name m a = (match Memory.read m a with | some v => .done v | none => .stuck (.unwrittenRead name a)) := rfl

@[simp] theorem fetch_eq_done {name : MemName} {m : Memory α} {a : Nat} {v : α} :
    fetch name m a = .done v ↔ Memory.read m a = some v := by
  unfold fetch; split <;> simp_all

@[simp] theorem fetch_eq_stuck {name : MemName} {m : Memory α} {a : Nat} {x : Fault} :
    fetch name m a = .stuck x ↔ Memory.read m a = none ∧ x = .unwrittenRead name a := by
  unfold fetch; cases Memory.read m a <;> simp [eq_comm]

@[simp] theorem fetch_ne_raised {name : MemName} {m : Memory α} {a : Nat} {c : ErrCode} {w : Word} :
    fetch name m a ≠ .raised c w := by
  unfold fetch; split <;> simp

theorem fetch_of_read {name : MemName} {m : Memory α} {a : Nat} {v : α} (h : Memory.read m a = some v) :
    fetch name m a = .done v := fetch_eq_done.mpr h

@[simp] theorem fetchRange_eq_done {name : MemName} {m : Memory α} {n : Nat} {vs : List α} :
    fetchRange name m n = .done vs ↔ Memory.readRange m 0 n = .ok vs := by
  unfold fetchRange; split <;> simp_all

theorem fetchRange_eq_stuck {name : MemName} {m : Memory α} {n : Nat} {x : Fault} (h : fetchRange name m n = .stuck x) :
    ∃ i < n, Memory.read m i = none ∧ x = .unwrittenRead name i := by
  unfold fetchRange at h
  split at h
  · simp at h
  · rename_i i hi
    obtain ⟨_, h2, h3⟩ := Memory.readRange_error hi
    simp only [Ending.stuck.injEq] at h
    exact ⟨i, by omega, h3, h.symm⟩

@[simp] theorem fetchRange_ne_raised {name : MemName} {m : Memory α} {n : Nat} {c : ErrCode} {w : Word} :
    fetchRange name m n ≠ .raised c w := by
  unfold fetchRange; split <;> simp

/-! ## Ending a command -/

/-- Error entry with no error recorded (60_exceptions R202). -/
theorem State.raiseError_of_clear {s : State} (h : s.errCode = 0#8) (c : ErrCode) (op : BitVec 8) (w : Word) :
    s.raiseError c op w = { s with errCode := c.code, errOp := op, errInfo := w } := by
  simp [State.raiseError, h]

/-- The first error wins (60_exceptions R207). -/
theorem State.raiseError_of_recorded {s : State} (h : s.errCode ≠ 0#8) (c : ErrCode) (op : BitVec 8) (w : Word) :
    s.raiseError c op w = s := by
  simp [State.raiseError, h]

theorem ErrCode.code_ne_zero (c : ErrCode) : c.code ≠ 0#8 := by cases c <;> decide

theorem ErrCode.code_le (c : ErrCode) : c.code.toNat ≤ 0x11 := by cases c <;> decide

@[simp] theorem settle_done (op : BitVec 8) (s t : State) : settle op s (.done t) = .next t := rfl

@[simp] theorem settle_raised (op : BitVec 8) (s : State) (c : ErrCode) (w : Word) :
    settle op s (.raised c w) = .next (s.raiseError c op w) := rfl

@[simp] theorem settle_stuck (op : BitVec 8) (s : State) (x : Fault) : settle op s (.stuck x) = .fault x := rfl

/-- A command goes on exactly when its body finishes or raises (60_exceptions R200). -/
theorem settle_eq_next {op : BitVec 8} {s t : State} {e : Ending State} :
    settle op s e = .next t ↔ e = .done t ∨ ∃ c w, e = .raised c w ∧ t = s.raiseError c op w := by
  cases e <;> simp [settle, eq_comm]

theorem settle_eq_fault {op : BitVec 8} {s : State} {e : Ending State} {x : Fault} :
    settle op s e = .fault x ↔ e = .stuck x := by
  cases e <;> simp [settle]

theorem settle_ne_refused {op : BitVec 8} {s : State} {e : Ending State} {r : Refusal} : settle op s e ≠ .refused r := by
  cases e <;> simp [settle]

end Sys2Proof.Machine
end

