-- ==== Sys2Proof/Laws/Bus.lean ====
section
/-! SUPPORT. What a step can do: the host's action by kind, the CMD write, offsets and the map (20_memory R50 to R53, 30_encoding R87). -/

namespace Sys2Proof.Machine

/-! ## Addresses -/

/-- An offset within the block is found again from its bus address (20_memory R50). -/
theorem offsetOf_base {p : Params} {a : Nat} (h : a < 0x100000) : offsetOf p (p.base + a) = some a := by
  unfold offsetOf
  rw [if_pos ⟨Nat.le_add_right _ _, by omega⟩, Nat.add_sub_cancel_left]

/-- A found offset is below 1 MiB and names the address. -/
theorem offsetOf_eq_some {p : Params} {addr a : Nat} (h : offsetOf p addr = some a) : addr = p.base + a ∧ a < 0x100000 := by
  unfold offsetOf at h
  split at h
  · simp only [Option.some.injEq] at h
    omega
  · simp at h

theorem wordAligned_iff {a size : Nat} : wordAligned a size = true ↔ size = 4 ∧ a % 4 = 0 := by simp [wordAligned]

theorem regAt_offset (r : Reg) : regAt r.offset = some r := by cases r <;> decide

theorem regAt_eq_some {a : Nat} {r : Reg} (h : regAt a = some r) : a = r.offset := by
  have := List.find?_some h
  exact (eq_of_beq this).symm

theorem Reg.offset_lt (r : Reg) : r.offset < 0x050 := by cases r <;> decide

theorem Reg.offset_mod (r : Reg) : r.offset % 4 = 0 := by cases r <;> decide

/-- A choice between two values avoids what both avoid. -/
theorem ite_ne {α : Type} {c : Prop} [Decidable c] {x y v : α} (hx : x ≠ v) (hy : y ≠ v) : (if c then x else y) ≠ v := by
  split <;> assumption

/-- The map names a register exactly at its offset (20_memory R53). -/
theorem locate_eq_reg {p : Params} {a : Nat} {r : Reg} : locate p a = some (.reg r) ↔ a = r.offset := by
  constructor
  · intro h
    by_cases ha : a < 0x1000
    · rw [locate, if_pos ha] at h
      obtain ⟨q, hr, hq⟩ := Option.map_eq_some_iff.mp h
      cases hq
      exact regAt_eq_some hr
    · exfalso
      rw [locate, if_neg ha] at h
      revert h
      repeat' apply ite_ne
      all_goals exact nofun
  · rintro rfl
    have := r.offset_lt
    rw [locate, if_pos (by omega), regAt_offset]
    rfl

/-! ## The CMD write -/

/-- A bus write to CMD while BUSY = 0 is answered OK and issues the word (30_encoding R87). -/
theorem busWrite_cmd (s : State) (w : Word) : busWrite s (regAddr s.cfg .cmd) 4 w = issue w (s.respond writeOk) := by
  unfold busWrite regAddr
  have hw : wordAligned Reg.cmd.offset 4 = true := rfl
  simp only [offsetOf_base (show Reg.cmd.offset < 0x100000 by decide), hw, if_true]
  unfold writeAt
  rw [locate_eq_reg.mpr rfl]

/-- A step whose action writes a word to CMD while BUSY = 0. -/
theorem step_cmdWrite {s : State} {w : Word} {rest : List HostAction} (hp : s.pending = cmdWrite s.cfg w :: rest)
    (hb : s.busy = false) : step s = issue w ((s.takeAction rest).respond writeOk) := by
  have hb' : (s.takeAction rest).busy = false := hb
  simp only [step, hp, cmdWrite, act, hostWrite, hb', if_false, Bool.false_eq_true]
  exact busWrite_cmd (s.takeAction rest) w

/-- How an issued word ends: held by the gate, an illegal word, or a command run from the state with BUSY risen (30_encoding R87). -/
theorem issue_cases (w : Word) (s : State) :
    (s.gated (opcodeField w) = true ∧ issue w s = .next s.beginCommand) ∨
    (s.gated (opcodeField w) = false ∧ (∃ r, decode w = .error r) ∧
      issue w s = .next (s.beginCommand.raiseError .illegalCmd (opcodeField w) w)) ∨
    (s.gated (opcodeField w) = false ∧ ∃ i, decode w = .ok i ∧ issue w s = exec i s.beginCommand) := by
  unfold issue
  cases hg : s.gated (opcodeField w)
  · cases hd : decode w with
    | error r => exact .inr (.inl ⟨rfl, ⟨r, rfl⟩, rfl⟩)
    | ok i => exact .inr (.inr ⟨rfl, i, rfl, rfl⟩)
  · exact .inl ⟨rfl, rfl⟩

/-! ## A step by the host's action -/

/-- How a write at an aligned offset ends while BUSY = 0 (20_memory R52, 10_state R21). -/
theorem writeAt_cases (s : State) (a : Nat) (v : Word) :
    (a = Reg.cmd.offset ∧ writeAt s a v = issue v (s.respond writeOk)) ∨
    (∃ l t, locate s.cfg a = some l ∧ s.writeLocation v l = some t ∧ writeAt s a v = .next (t.respond writeOk)) ∨
    (∃ r, writeAt s a v = .next (s.respond r)) := by
  unfold writeAt
  split
  · rename_i h
    exact .inl ⟨locate_eq_reg.mp h, rfl⟩
  · rename_i l _ h
    cases hwl : s.writeLocation v l with
    | none => exact .inr (.inr ⟨writeErr, rfl⟩)
    | some t => exact .inr (.inl ⟨l, t, h, hwl, rfl⟩)
  · exact .inr (.inr ⟨writeErr, rfl⟩)

/-- How a bus write ends while BUSY = 0: a command issue, a write that lands, or a response alone (20_memory R50 to R52). -/
theorem busWrite_cases (s : State) (addr size : Nat) (v : Word) :
    (addr = regAddr s.cfg .cmd ∧ size = 4 ∧ busWrite s addr size v = issue v (s.respond writeOk)) ∨
    (∃ a l t, offsetOf s.cfg addr = some a ∧ size = 4 ∧ a % 4 = 0 ∧ locate s.cfg a = some l ∧ s.writeLocation v l = some t ∧
      busWrite s addr size v = .next (t.respond writeOk)) ∨
    (∃ r, busWrite s addr size v = .next (s.respond r)) := by
  cases ho : offsetOf s.cfg addr with
  | none => exact .inr (.inr ⟨notHere, by simp only [busWrite, ho]⟩)
  | some a =>
    cases hw : wordAligned a size
    · exact .inr (.inr ⟨writeErr, by simp only [busWrite, ho, hw, Bool.false_eq_true, if_false]⟩)
    · obtain ⟨rfl, ha⟩ := wordAligned_iff.mp hw
      have hbw : busWrite s addr 4 v = writeAt s a v := by simp only [busWrite, ho, hw, if_true]
      rw [hbw]
      rcases writeAt_cases s a v with ⟨rfl, h⟩ | ⟨l, t, h⟩ | h
      · exact .inl ⟨(offsetOf_eq_some ho).1, rfl, h⟩
      · exact .inr (.inl ⟨a, l, t, rfl, rfl, ha, h⟩)
      · exact .inr (.inr h)

/-- The next state of a step, by what the host does. -/
theorem step_cases {s t : State} (h : step s = .next t) :
    (s.pending = [] ∧ t = s) ∨ ∃ a rest, s.pending = a :: rest ∧
      ((a = .hwReset ∧ t = (s.takeAction rest).hardwareReset) ∨
       (a = .poll ∧ t = hostPoll (s.takeAction rest)) ∨
       (a = .read (regAddr s.cfg .status) 4 ∧ s.busy = true ∧ t = (s.takeAction rest).readStatus) ∨
       (s.busy = false ∧ (∃ w, a = cmdWrite s.cfg w ∧ issue w ((s.takeAction rest).respond writeOk) = .next t)) ∨
       (s.busy = false ∧ (∃ addr v b l u, a = .write addr 4 v ∧ offsetOf s.cfg addr = some b ∧ b % 4 = 0 ∧
          locate s.cfg b = some l ∧ (s.takeAction rest).writeLocation v l = some u ∧ t = u.respond writeOk)) ∨
       (s.busy = false ∧ (∃ r, t = (s.takeAction rest).respond r))) := by
  unfold step at h
  cases hp : s.pending with
  | nil =>
    simp only [hp, Host.Outcome.next.injEq] at h
    exact .inl ⟨rfl, h.symm⟩
  | cons a rest =>
    rw [hp] at h
    refine .inr ⟨a, rest, rfl, ?_⟩
    have hcfg : (s.takeAction rest).cfg = s.cfg := rfl
    have hbusy : (s.takeAction rest).busy = s.busy := rfl
    cases a with
    | hwReset => exact .inl ⟨rfl, by simpa [act, eq_comm] using h⟩
    | poll => exact .inr (.inl ⟨rfl, by simpa [act, eq_comm] using h⟩)
    | read addr size =>
      simp only [act, hostRead, hbusy, hcfg] at h
      cases hb : s.busy
      · simp only [hb, Bool.false_eq_true, if_false, Host.Outcome.next.injEq] at h
        exact .inr (.inr (.inr (.inr (.inr ⟨rfl, _, h.symm⟩))))
      · simp only [hb, if_true] at h
        split at h
        · rename_i hc
          simp only [Host.Outcome.next.injEq] at h
          exact .inr (.inr (.inl ⟨by rw [hc.1, hc.2], rfl, h.symm⟩))
        · simp at h
    | write addr size v =>
      simp only [act, hostWrite, hbusy] at h
      cases hb : s.busy
      · simp only [hb, Bool.false_eq_true, if_false] at h
        rcases busWrite_cases (s.takeAction rest) addr size v with ⟨h1, rfl, h3⟩ | ⟨b, l, u, h1, rfl, h3, h4, h5, h6⟩ | ⟨r, h1⟩
        · exact .inr (.inr (.inr (.inl ⟨rfl, v, by rw [h1]; rfl, by rw [← h3]; exact h⟩)))
        · refine .inr (.inr (.inr (.inr (.inl ⟨rfl, addr, v, b, l, u, rfl, h1, h3, h4, h5, ?_⟩))))
          rw [h6] at h
          simpa [eq_comm] using h
        · refine .inr (.inr (.inr (.inr (.inr ⟨rfl, r, ?_⟩))))
          rw [h1] at h
          simpa [eq_comm] using h
      · simp [hb] at h

/-- Why a step stops: an access during BUSY, or the command an issued word runs. -/
theorem step_fault_cases {s : State} {f : Fault} (h : step s = .fault f) :
    f = .busyAccess ∨ ∃ w rest i, s.pending = cmdWrite s.cfg w :: rest ∧ s.busy = false ∧ decode w = .ok i ∧
      exec i (s.atCommand rest) = .fault f := by
  unfold step at h
  cases hp : s.pending with
  | nil => simp [hp] at h
  | cons a rest =>
    rw [hp] at h
    have hbusy : (s.takeAction rest).busy = s.busy := rfl
    cases a with
    | hwReset => simp [act] at h
    | poll => simp [act] at h
    | read addr size =>
      simp only [act, hostRead] at h
      split at h
      · split at h
        · simp at h
        · simp only [Host.Outcome.fault.injEq] at h
          exact .inl h.symm
      · simp at h
    | write addr size v =>
      simp only [act, hostWrite, hbusy] at h
      cases hb : s.busy
      · simp only [hb, Bool.false_eq_true, if_false] at h
        rcases busWrite_cases (s.takeAction rest) addr size v with ⟨h1, rfl, h3⟩ | ⟨b, l, u, _, _, _, _, _, h6⟩ | ⟨r, h1⟩
        · rw [h3] at h
          rcases issue_cases v ((s.takeAction rest).respond writeOk) with ⟨_, h4⟩ | ⟨_, _, h4⟩ | ⟨_, i, hd, h4⟩
          · simp [h4] at h
          · simp [h4] at h
          · rw [h4] at h
            exact .inr ⟨v, rest, i, by rw [h1]; rfl, rfl, hd, h⟩
        · simp [h6] at h
        · simp [h1] at h
      · simp only [hb, if_true, Host.Outcome.fault.injEq] at h
        exact .inl h.symm

end Sys2Proof.Machine
end

