-- ==== Sys2Proof/Laws/EncodeDecode.lean ====
section
/-! SUPPORT. What EncodeBits, WalkBits and the unpacking shared by UNPACK and DECODE do (44_bitstream R153, 45_encode_decode R170, R172). -/

namespace Sys2Proof.Machine

/-! ## EncodeBits -/

@[simp] theorem State.codeStream_nil (s : State) : s.codeStream [] = [] := rfl

@[simp] theorem State.codeStream_cons (s : State) (c : Byte) (cs : List Byte) :
    s.codeStream (c :: cs) = s.codeBits c ++ s.codeStream cs := rfl

/-- Encoding starts with any symbols that have codes and whose codes fit: the output grows by them and the rest is still to do (45_encode_decode R170). -/
theorem encodeFrom_append {s : State} {left k j : Nat} {cs : List Byte} {out : Bits}
    (hr : Memory.readRange s.symIn j k = .ok cs) (hk : k ≤ left) (he : Encodable s cs)
    (hfit : out.length + (s.codeStream cs).length ≤ s.cfg.bitCap) :
    encodeFrom s left j out = encodeFrom s (left - k) (j + k) (out ++ s.codeStream cs) := by
  induction k generalizing left j cs out with
  | zero =>
    simp only [Memory.readRange_zero, Except.ok.injEq] at hr
    subst hr
    simp
  | succ k ih =>
    obtain ⟨left, rfl⟩ : ∃ l, left = l + 1 := ⟨left - 1, by omega⟩
    cases hrd : Memory.read s.symIn j with
    | none => simp [Memory.readRange, hrd] at hr
    | some c =>
      cases hrr : Memory.readRange s.symIn (j + 1) k with
      | error i => simp [Memory.readRange, hrd, hrr] at hr
      | ok ds =>
        simp only [Memory.readRange, hrd, hrr, Except.ok.injEq] at hr
        subst hr
        have hc := he c (by simp)
        obtain ⟨e, hread, hvalid⟩ := Option.any_eq_true _ _ |>.mp hc.2
        have hbits : s.codeBits c = e.bits := by simp [State.codeBits, hread]
        have hlt : ¬ 0x80#8 ≤ c := BitVec.not_le.mpr hc.1
        simp only [State.codeStream_cons, hbits, List.length_append] at hfit
        rw [State.codeStream_cons, hbits, encodeFrom]
        simp only [fetch_of_read hrd, Ending.bind_done, if_neg hlt, fetch_of_read hread, hvalid, if_true]
        rw [if_neg (by simp only [List.length_append]; omega),
          ih hrr (by omega) (fun d hd => he d (List.mem_cons_of_mem _ hd)) (by simp only [List.length_append]; omega)]
        simp only [List.append_assoc]
        congr 1 <;> omega

/-- EncodeBits on a stream that has codes and fits (45_encode_decode R170). -/
theorem encodeBits_of_encodable {s : State} {cs : List Byte} (hr : Memory.readRange s.symIn 0 s.symInLen = .ok cs)
    (he : Encodable s cs) (hfit : (s.codeStream cs).length ≤ s.cfg.bitCap) : encodeBits s = .done (s.codeStream cs) := by
  unfold encodeBits
  rw [encodeFrom_append hr le_rfl he (by simpa using hfit), Nat.sub_self]
  rfl

/-- What EncodeBits produces fits BITS when what it starts from does. -/
theorem encodeFrom_fits {s : State} {left j : Nat} {out b : Bits} (h : encodeFrom s left j out = .done b)
    (ho : out.length ≤ s.cfg.bitCap) : b.length ≤ s.cfg.bitCap := by
  induction left generalizing j out with
  | zero => simp only [encodeFrom, Ending.done.injEq] at h; exact h ▸ ho
  | succ left ih =>
    rw [encodeFrom] at h
    obtain ⟨c, _, h⟩ := Ending.bind_eq_done.mp h
    split at h
    · cases h
    · obtain ⟨e, _, h⟩ := Ending.bind_eq_done.mp h
      split at h
      · split at h
        · cases h
        · exact ih h (by omega)
      · cases h

/-- Where EncodeBits stops the machine: a never-written symbol or code entry. -/
theorem encodeFrom_stuck {s : State} {left j : Nat} {out : Bits} {f : Fault} (h : encodeFrom s left j out = .stuck f) :
    (∃ k, j ≤ k ∧ k < j + left ∧ Memory.read s.symIn k = none ∧ f = .unwrittenRead .symIn k) ∨
    (∃ c < 128, Memory.read s.codes c = none ∧ f = .unwrittenRead .code c) := by
  induction left generalizing j out with
  | zero => cases h
  | succ left ih =>
    rw [encodeFrom] at h
    rcases Ending.bind_eq_stuck.mp h with h | ⟨c, _, h⟩
    · obtain ⟨h1, h2⟩ := fetch_eq_stuck.mp h
      exact .inl ⟨j, le_rfl, by omega, h1, h2⟩
    · split at h
      · cases h
      · rename_i hc
        rcases Ending.bind_eq_stuck.mp h with h | ⟨e, _, h⟩
        · obtain ⟨h1, h2⟩ := fetch_eq_stuck.mp h
          refine .inr ⟨c.toNat, ?_, h1, h2⟩
          have := BitVec.not_le.mp hc
          simpa [BitVec.lt_def] using this
        · split at h
          · split at h
            · cases h
            · rcases ih h with ⟨k, h1, h2, h3⟩ | h1
              · exact .inl ⟨k, by omega, by omega, h3⟩
              · exact .inr h1
          · cases h

/-! ## WalkBits -/

/-- One bit of the walk (45_encode_decode R172). -/
theorem walkFrom_succ {s : State} {left j : Nat} {node : NodeRef} {out : List Byte} {b : Bool} {nd : Node}
    (hb : Memory.read s.bits j = some b) (hn : Memory.read s.nodes node.toNat = some nd) :
    walkFrom s (left + 1) j node out =
      if nd.child b = nilRef then .raised .decodeNil (info j)
      else (fetch .node s.nodes (nd.child b).toNat).bind fun cd =>
        if cd.isLeaf then
          if out.length = s.cfg.symCap then .raised .symOverflow (info j)
          else walkFrom s left (j + 1) s.root (out ++ [symByte cd.sym])
        else walkFrom s left (j + 1) (nd.child b) out := by
  rw [walkFrom]
  simp only [fetch_of_read hb, Ending.bind_done, fetch_of_read hn]

/-- A leaf has no child to follow. -/
theorem Node.child_of_isLeaf {nd : Node} (h : nd.isLeaf = true) (b : Bool) : nd.child b = nilRef := by
  simp only [Node.isLeaf, Bool.and_eq_true, beq_iff_eq] at h
  cases b
  · exact h.1
  · exact h.2

/-- One bit of a path. -/
theorem follow_cons {nodes : Memory Node} {i : NodeRef} {b : Bool} {p : Bits} {x : Node} (h : follow nodes i (b :: p) = some x) :
    ∃ nd, Memory.read nodes i.toNat = some nd ∧ nd.child b ≠ nilRef ∧ follow nodes (nd.child b) p = some x := by
  rw [follow] at h
  split at h
  · rename_i nd hnd
    split at h
    · cases h
    · rename_i hc
      exact ⟨nd, hnd, hc, h⟩
  · cases h

/-- Where a path starts there is a node, and it is a leaf only at the path's end. -/
theorem follow_start {nodes : Memory Node} {i : NodeRef} {p : Bits} {x : Node} (h : follow nodes i p = some x) :
    ∃ nd, Memory.read nodes i.toNat = some nd ∧ (p = [] → nd = x) ∧ (nd.isLeaf = true → p = []) := by
  cases p with
  | nil => exact ⟨x, h, fun _ => rfl, fun _ => rfl⟩
  | cons b p =>
    obtain ⟨nd, h1, h2, _⟩ := follow_cons h
    exact ⟨nd, h1, by simp, fun hl => absurd (nd.child_of_isLeaf hl b) h2⟩

/-- The walk over a path that ends at a leaf emits its symbol and starts again at the root, unless SYM_OUT is full (45_encode_decode R172). -/
theorem walkFrom_path {s : State} {left j : Nat} {node : NodeRef} {out : List Byte} {p : Bits} {x : Node}
    (hp : p ≠ []) (hleft : p.length ≤ left) (hb : Memory.readRange s.bits j p.length = .ok p)
    (hf : follow s.nodes node p = some x) (hx : x.isLeaf = true) :
    walkFrom s left j node out =
      if out.length = s.cfg.symCap then .raised .symOverflow (info (j + p.length - 1))
      else walkFrom s (left - p.length) (j + p.length) s.root (out ++ [symByte x.sym]) := by
  induction p generalizing left j node with
  | nil => exact absurd rfl hp
  | cons b p ih =>
    obtain ⟨left, rfl⟩ : ∃ l, left = l + 1 := ⟨left - 1, by simp at hleft; omega⟩
    have hbits := (Memory.readRange_eq_ok_iff _ _ _ _).mp hb
    obtain ⟨nd, hnd, hc, hf⟩ := follow_cons hf
    obtain ⟨cd, hcd, hend, hleaf⟩ := follow_start hf
    have hb0 : Memory.read s.bits j = some b := by simpa using hbits.2 0 (by simp)
    rw [walkFrom_succ hb0 hnd, if_neg hc, fetch_of_read hcd, Ending.bind_done]
    by_cases hpe : p = []
    · subst hpe
      rw [hend rfl, if_pos hx]
      simp
    · have hnl : ¬ cd.isLeaf = true := fun h => hpe (hleaf h)
      rw [if_neg hnl, ih hpe (by simp at hleft; omega) ?_ hf]
      · simp only [List.length_cons]
        congr 2
        · congr 1; omega
        · omega
        · omega
      · refine (Memory.readRange_eq_ok_iff _ _ _ _).mpr ⟨rfl, fun i hi => ?_⟩
        have := hbits.2 (i + 1) (by simp; omega)
        simpa [Nat.add_assoc, Nat.add_comm 1 i] using this

/-- The walk over a path that stops inside the tree emits nothing (45_encode_decode R172). -/
theorem walkFrom_inside {s : State} {left j : Nat} {node : NodeRef} {out : List Byte} {p : Bits} {x : Node}
    (hleft : left = p.length) (hb : Memory.readRange s.bits j p.length = .ok p)
    (hf : follow s.nodes node p = some x) (hx : x.isLeaf = false) :
    ∃ last : NodeRef, walkFrom s left j node out = .done (out, last != s.root) ∧
      Memory.read s.nodes last.toNat = some x ∧ (p = [] → last = node) := by
  induction p generalizing left j node with
  | nil =>
    subst hleft
    exact ⟨node, rfl, hf, fun _ => rfl⟩
  | cons b p ih =>
    subst hleft
    have hbits := (Memory.readRange_eq_ok_iff _ _ _ _).mp hb
    obtain ⟨nd, hnd, hc, hf⟩ := follow_cons hf
    obtain ⟨cd, hcd, hend, hleaf⟩ := follow_start hf
    have hb0 : Memory.read s.bits j = some b := by simpa using hbits.2 0 (by simp)
    have hnl : ¬ cd.isLeaf = true := by
      intro h
      rw [hend (hleaf h), hx] at h
      cases h
    rw [List.length_cons, walkFrom_succ hb0 hnd, if_neg hc, fetch_of_read hcd, Ending.bind_done, if_neg hnl]
    have hrest : Memory.readRange s.bits (j + 1) p.length = .ok p := by
      refine (Memory.readRange_eq_ok_iff _ _ _ _).mpr ⟨rfl, fun i hi => ?_⟩
      have := hbits.2 (i + 1) (by simp; omega)
      simpa [Nat.add_assoc, Nat.add_comm 1 i] using this
    obtain ⟨last, h1, h2, _⟩ := ih (left := p.length) (j := j + 1) (node := nd.child b) rfl hrest hf
    exact ⟨last, h1, h2, by simp⟩

/-- What the walk emits fits SYM_OUT when what it starts from does. -/
theorem walkFrom_fits {s : State} {left j : Nat} {node : NodeRef} {out : List Byte} {r : List Byte × Bool}
    (h : walkFrom s left j node out = .done r) (ho : out.length ≤ s.cfg.symCap) : r.1.length ≤ s.cfg.symCap := by
  induction left generalizing j node out with
  | zero => simp only [walkFrom, Ending.done.injEq] at h; exact h ▸ ho
  | succ left ih =>
    rw [walkFrom] at h
    obtain ⟨b, hb, h⟩ := Ending.bind_eq_done.mp h
    obtain ⟨nd, hn, h⟩ := Ending.bind_eq_done.mp h
    split at h
    · cases h
    · obtain ⟨cd, _, h⟩ := Ending.bind_eq_done.mp h
      split at h
      · split at h
        · cases h
        · exact ih h (by simp only [List.length_append, List.length_singleton]; omega)
      · exact ih h ho

/-! ## Unpacking -/

/-- The number of bits Unpack returns (44_bitstream R153). -/
theorem unpackBytes_length {v : Byte} {vs : List Byte} {b : Bits} (h : unpackBytes (v :: vs) = some b) :
    v ≠ 0x00#8 ∧ b.length = unpackedLength (vs.length + 1) v := by
  by_cases hv : v = 0x00#8
  · simp [unpackBytes, hv] at h
  · refine ⟨hv, ?_⟩
    simp only [unpackBytes, if_neg hv, Option.some.injEq] at h
    rw [← h, List.length_drop, expandAll_length, List.length_cons, unpackedLength]
    omega

/-- The bit string UNPACK and DECODE take from BYTES, exactly when it unpacks and fits (44_bitstream R153). -/
theorem unpackedBits_of_unpack {s : State} {bs : List Byte} {b : Bits} (hr : Memory.readRange s.bytes 0 s.byteLen = .ok bs)
    (hu : unpackBytes bs = some b) (hfit : b.length ≤ s.cfg.bitCap) : unpackedBits s = .done b := by
  obtain ⟨hl, hread⟩ := (Memory.readRange_eq_ok_iff _ _ _ _).mp hr
  cases bs with
  | nil => cases hu
  | cons v vs =>
    obtain ⟨hv, hlen⟩ := unpackBytes_length hu
    have hl' : vs.length + 1 = s.byteLen := hl
    have h0 : Memory.read s.bytes 0 = some v := by simpa using hread 0 (by omega)
    have hrr : fetchRange .bytes s.bytes s.byteLen = .done (v :: vs) := fetchRange_eq_done.mpr hr
    unfold unpackedBits
    rw [if_neg (by omega), fetch_of_read h0, Ending.bind_done, if_neg hv, if_neg (by rw [← hl', ← hlen]; omega), hrr,
      Ending.bind_done, hu]

/-- What unpacking yields fits BITS. -/
theorem unpackedBits_fits {s : State} {b : Bits} (h : unpackedBits s = .done b) : b.length ≤ s.cfg.bitCap := by
  unfold unpackedBits at h
  split at h
  · cases h
  · rename_i hpos
    obtain ⟨v, hv, h⟩ := Ending.bind_eq_done.mp h
    rw [fetch_eq_done] at hv
    split at h
    · cases h
    · split at h
      · cases h
      · rename_i hfit
        obtain ⟨bs, hbs, h⟩ := Ending.bind_eq_done.mp h
        rw [fetchRange_eq_done] at hbs
        split at h
        · rename_i c hc
          simp only [Ending.done.injEq] at h
          subst h
          obtain ⟨hl, hread⟩ := (Memory.readRange_eq_ok_iff _ _ _ _).mp hbs
          cases bs with
          | nil => cases hc
          | cons w ws =>
            have : Memory.read s.bytes 0 = some w := by simpa using hread 0 (by omega)
            rw [hv] at this
            cases this
            rw [(unpackBytes_length hc).2, show ws.length + 1 = s.byteLen from hl]
            omega
        · cases h

end Sys2Proof.Machine
end

