-- ==== Sys2Proof/Laws/PerInstr.lean ====
section
/-! SUPPORT. One lemma per command: its word carries the opcode of 30_encoding R84 in bits 31:24 and its operand below. -/

namespace Sys2Proof.Laws.OpcodeField

/-- The command's word is its opcode in bits 31:24 above its operand field, whatever the operand (30_encoding R80, R81, R84). -/
def Statement (i : Instr) : Prop :=
  opcodeField (Sys2Proof.encode i) = i.opcode ∧ (Sys2Proof.encode i).extractLsb' 0 24 = i.operandField

/-- The two fields of a word built from them. -/
theorem fields_of_append (x : BitVec 8) (y : BitVec 24) : (x ++ y).extractLsb' 24 8 = x ∧ (x ++ y).extractLsb' 0 24 = y := by
  constructor <;> ext i hi <;> rw [BitVec.getElem_extractLsb', BitVec.getLsbD_append] <;> simp [hi]

theorem nop : Statement .nop := fields_of_append _ _
theorem sreset : Statement .sreset := fields_of_append _ _
theorem clrerr : Statement .clrerr := fields_of_append _ _
theorem ftClear : Statement .ftClear := fields_of_append _ _
theorem ftAppend (sym : Nat) : Statement (.ftAppend sym) := fields_of_append _ _
theorem tbInit : Statement .tbInit := fields_of_append _ _
theorem tbStep : Statement .tbStep := fields_of_append _ _
theorem tbBuild : Statement .tbBuild := fields_of_append _ _
theorem ctGen : Statement .ctGen := fields_of_append _ _
theorem pack : Statement .pack := fields_of_append _ _
theorem unpack : Statement .unpack := fields_of_append _ _
theorem encBits : Statement .encBits := fields_of_append _ _
theorem decBits : Statement .decBits := fields_of_append _ _
theorem encode : Statement .encode := fields_of_append _ _
theorem decode : Statement .decode := fields_of_append _ _

end Sys2Proof.Laws.OpcodeField
end

