-- ==== Sys2Proof/Laws/TreeBuilder.lean ====
section
/-! SUPPORT. What extract() and one merge do (42_tree_builder R121, R123), and the order of the queues (R128). -/

namespace Sys2Proof.Machine

/-- The weight of a written node. -/
theorem State.nodeWeight_of_read {s : State} {i : Nat} {nd : Node} (h : Memory.read s.nodes i = some nd) :
    s.nodeWeight i = nd.weight.toNat := by simp [State.nodeWeight, h]

/-- Queue fronts that exist are written. -/
abbrev FrontsRead (s : State) : Prop :=
  (0 < s.srcLen → (Memory.read s.nodes s.srcHead).isSome = true) ∧ (0 < s.tgtLen → (Memory.read s.nodes s.tgtHead).isSome = true)

/-- The choice of queue in 42_tree_builder R121. -/
theorem takesSource_eq {s : State} (h : FrontsRead s) :
    takesSource s = .done (decide (0 < s.srcLen ∧ (s.tgtLen = 0 ∨ s.nodeWeight s.srcHead ≤ s.nodeWeight s.tgtHead))) := by
  unfold takesSource
  by_cases h1 : s.srcLen = 0
  · simp [h1]
  · by_cases h2 : s.tgtLen = 0
    · simp [h1, h2]; omega
    · obtain ⟨a, ha⟩ := Option.isSome_iff_exists.mp (h.1 (by omega))
      obtain ⟨b, hb⟩ := Option.isSome_iff_exists.mp (h.2 (by omega))
      simp [h1, h2, fetch_of_read ha, fetch_of_read hb, State.nodeWeight_of_read ha, State.nodeWeight_of_read hb, BitVec.le_def]
      have : 0 < s.srcLen := by omega
      simp [this]

/-- extract() takes what R121 says and moves one head; it never stops while the fronts are written. -/
theorem extract_of_extracts {s : State} (h : FrontsRead s) {x src tgt : Nat} (he : Extracts s x src tgt) :
    extract s = .done (x, s.moveHeads src tgt) := by
  unfold extract
  rw [takesSource_eq h]
  unfold Extracts at he
  by_cases hc : 0 < s.srcLen ∧ (s.tgtLen = 0 ∨ s.nodeWeight s.srcHead ≤ s.nodeWeight s.tgtHead)
  · rw [if_pos hc] at he
    obtain ⟨rfl, rfl, rfl⟩ := he
    simp [hc]
  · rw [if_neg hc] at he
    obtain ⟨rfl, rfl, rfl⟩ := he
    simp [hc]

/-- The two ways an extraction goes. -/
theorem Extracts.cases {s : State} {x src tgt : Nat} (h : Extracts s x src tgt) (hpos : 0 < s.srcLen + s.tgtLen) :
    (x = s.srcHead ∧ src = s.srcHead + 1 ∧ tgt = s.tgtHead ∧ 0 < s.srcLen ∧ (s.tgtLen = 0 ∨ s.nodeWeight s.srcHead ≤ s.nodeWeight s.tgtHead)) ∨
    (x = s.tgtHead ∧ src = s.srcHead ∧ tgt = s.tgtHead + 1 ∧ 0 < s.tgtLen ∧ (s.srcLen = 0 ∨ s.nodeWeight s.tgtHead < s.nodeWeight s.srcHead)) := by
  unfold Extracts at h
  split at h
  · left; tauto
  · right; refine ⟨h.1, h.2.1, h.2.2, ?_, ?_⟩ <;> (rename_i hc; by_contra hh; apply hc; constructor <;> omega)

theorem exists_extracts (s : State) : ∃ x src tgt, Extracts s x src tgt := by
  unfold Extracts
  by_cases h : 0 < s.srcLen ∧ (s.tgtLen = 0 ∨ s.nodeWeight s.srcHead ≤ s.nodeWeight s.tgtHead)
  · exact ⟨_, _, _, by rw [if_pos h]; exact ⟨rfl, rfl, rfl⟩⟩
  · exact ⟨_, _, _, by rw [if_neg h]; exact ⟨rfl, rfl, rfl⟩⟩

theorem range'_pos {a n : Nat} (h : 0 < n) : List.range' a n = a :: List.range' (a+1) (n-1) := by
  obtain ⟨m, rfl⟩ : ∃ m, n = m + 1 := ⟨n-1, by omega⟩
  rfl

/-- An extraction removes exactly the node it takes. -/
theorem queued_perm {s : State} {x src tgt : Nat} (h : Extracts s x src tgt) (hpos : 0 < s.srcLen + s.tgtLen) :
    s.queued.Perm (x :: (s.moveHeads src tgt).queued) := by
  unfold State.queued
  have e1 : (s.moveHeads src tgt).srcLen = s.ftN - src := rfl
  have e2 : (s.moveHeads src tgt).tgtLen = s.nodeN - tgt := rfl
  have e3 : s.srcLen = s.ftN - s.srcHead := rfl
  have e4 : s.tgtLen = s.nodeN - s.tgtHead := rfl
  rw [e1, e2]
  rcases h.cases hpos with ⟨rfl, rfl, rfl, hp, _⟩ | ⟨rfl, rfl, rfl, hp, _⟩
  · rw [range'_pos hp, e3, e4]
    have : s.ftN - s.srcHead - 1 = s.ftN - (s.srcHead + 1) := by omega
    rw [this]; rfl
  · rw [range'_pos hp, e3, e4]
    have : s.nodeN - s.tgtHead - 1 = s.nodeN - (s.tgtHead + 1) := by omega
    rw [this]
    exact List.perm_middle

/-- With both queues sorted the node taken has least weight. -/
theorem least_of_sorted {s : State} {x src tgt : Nat} (h : Extracts s x src tgt) (hpos : 0 < s.srcLen + s.tgtLen)
    (hs : (List.range' s.srcHead s.srcLen).Pairwise (fun i j => s.nodeWeight i ≤ s.nodeWeight j))
    (ht : (List.range' s.tgtHead s.tgtLen).Pairwise (fun i j => s.nodeWeight i ≤ s.nodeWeight j)) :
    ∀ i ∈ s.queued, s.nodeWeight x ≤ s.nodeWeight i := by
  have hsl : 0 < s.srcLen → ∀ i ∈ List.range' s.srcHead s.srcLen, s.nodeWeight s.srcHead ≤ s.nodeWeight i := by
    intro hp i hi
    rw [range'_pos hp] at hs hi
    rcases List.mem_cons.mp hi with rfl | hi
    · exact le_rfl
    · exact (List.pairwise_cons.mp hs).1 i hi
  have htl : 0 < s.tgtLen → ∀ i ∈ List.range' s.tgtHead s.tgtLen, s.nodeWeight s.tgtHead ≤ s.nodeWeight i := by
    intro hp i hi
    rw [range'_pos hp] at ht hi
    rcases List.mem_cons.mp hi with rfl | hi
    · exact le_rfl
    · exact (List.pairwise_cons.mp ht).1 i hi
  intro i hi
  unfold State.queued at hi
  rcases h.cases hpos with ⟨rfl, rfl, rfl, hp, hw⟩ | ⟨rfl, rfl, rfl, hp, hw⟩
  · rcases List.mem_append.mp hi with hi | hi
    · exact hsl hp i hi
    · have h0 : 0 < s.tgtLen := by
        rcases Nat.eq_zero_or_pos s.tgtLen with h0 | h0
        · rw [h0] at hi; simp at hi
        · exact h0
      have := htl h0 i hi
      omega
  · rcases List.mem_append.mp hi with hi | hi
    · have h0 : 0 < s.srcLen := by
        rcases Nat.eq_zero_or_pos s.srcLen with h0 | h0
        · rw [h0] at hi; simp at hi
        · exact h0
      have := hsl h0 i hi
      omega
    · exact htl hp i hi

/-- The table of a conforming state, entry by entry. -/
theorem readRange_table {s : State} (h : TableForm s) : s.table.length = s.ftN ∧ ∀ i < s.ftN, Memory.read s.ft i = s.table[i]? := by
  have := (Memory.readRange_eq_ok_iff s.ft 0 s.ftN s.table).mp h.1
  simpa using this

/-- In a running build every node below NODE_N is written. -/
theorem running_reads {s : State} (h : Inv s) (hr : s.tbState = .running) : ∀ i < s.nodeN, ∃ nd, Memory.read s.nodes i = some nd := by
  have hT := h.tree (by simp [hr])
  intro i hi
  by_cases hf : i < s.ftN
  · rw [hT.1 i hf]
    have := (readRange_table h.table).1
    rw [List.getElem?_eq_getElem (by omega)]
    exact ⟨_, rfl⟩
  · have := hT.2.1 i hi (by omega)
    unfold State.internalAt at this
    cases hread : Memory.read s.nodes i with
    | none => simp [hread] at this
    | some nd => exact ⟨nd, rfl⟩

/-- The source queue of a running build is sorted. -/
theorem source_sorted {s : State} (h : Inv s) (hr : s.tbState = .running) :
    (List.range' s.srcHead s.srcLen).Pairwise (fun i j => s.nodeWeight i ≤ s.nodeWeight j) := by
  have hT := h.tree (by simp [hr])
  have hlen := (readRange_table h.table).1
  have hw : ∀ i (hi : i < s.ftN), s.nodeWeight i = (s.table[i]'(by omega)).weight.toNat := by
    intro i hi
    rw [State.nodeWeight_of_read (nd := leafNode (s.table[i]'(by omega)))]
    · rfl
    · rw [hT.1 i hi, List.getElem?_eq_getElem (by omega)]; rfl
  have hsorted := h.table.2.2.1
  rw [List.pairwise_iff_getElem] at hsorted ⊢
  intro i j hi hj hij
  simp only [List.length_range'] at hi hj
  simp only [List.getElem_range', Nat.one_mul]
  have hsl : s.srcLen = s.ftN - s.srcHead := rfl
  rw [hw _ (by omega), hw _ (by omega)]
  have := hsorted (s.srcHead + i) (s.srcHead + j) (by omega) (by omega) (by omega)
  exact this

/-- One merge of a running build takes two nodes, appends their parent and finishes if it was the last (42_tree_builder R123). -/
theorem merge_facts {s : State} (h : Inv s) (hr : s.tbState = .running) :
    ∃ a b src₁ tgt₁ src₂ tgt₂ na nb,
      Extracts s a src₁ tgt₁ ∧ Extracts (s.moveHeads src₁ tgt₁) b src₂ tgt₂ ∧
      Memory.read s.nodes a = some na ∧ Memory.read s.nodes b = some nb ∧
      mergeOnce s = .done ((s.moveHeads src₂ tgt₂).enqueue (mergedNode a b na.weight nb.weight)).finishIfLast := by
  obtain ⟨hsrc, _, hnid, hrun, _, _, _⟩ := h.builder
  obtain ⟨h1, h2, h3, h4, h5⟩ := hnid (by simp [hr])
  obtain ⟨hq, hroot, hbal⟩ := hrun hr
  have hlen := h.lengths.1
  have hl3 : s.srcLen = s.ftN - s.srcHead := rfl
  have hl4 : s.tgtLen = s.nodeN - s.tgtHead := rfl
  have hread := running_reads h hr
  have hsome : ∀ i < s.nodeN, (Memory.read s.nodes i).isSome = true := fun i hi => by
    obtain ⟨nd, hnd⟩ := hread i hi; simp [hnd]
  obtain ⟨a, src₁, tgt₁, hea⟩ := exists_extracts s
  obtain ⟨b, src₂, tgt₂, heb⟩ := exists_extracts (s.moveHeads src₁ tgt₁)
  have ca := hea.cases (by omega)
  have e1 : (s.moveHeads src₁ tgt₁).srcLen = s.ftN - src₁ := rfl
  have e2 : (s.moveHeads src₁ tgt₁).tgtLen = s.nodeN - tgt₁ := rfl
  have cb := heb.cases (by omega)
  simp only [State.moveHeads_srcHead, State.moveHeads_tgtHead, e1, e2] at cb
  obtain ⟨na, hna⟩ := hread a (by omega)
  obtain ⟨nb, hnb⟩ := hread b (by omega)
  have hf1 : FrontsRead s := ⟨fun _ => hsome _ (by omega), fun _ => hsome _ (by omega)⟩
  have hf2 : FrontsRead (s.moveHeads src₁ tgt₁) := ⟨fun _ => hsome _ (by simp only [State.moveHeads_srcHead]; omega), fun _ => hsome _ (by simp only [State.moveHeads_tgtHead]; omega)⟩
  refine ⟨a, b, src₁, tgt₁, src₂, tgt₂, na, nb, hea, heb, hna, hnb, ?_⟩
  unfold mergeOnce
  rw [extract_of_extracts hf1 hea, Ending.bind_done, extract_of_extracts hf2 heb, Ending.bind_done]
  simp only [State.moveHeads_nodes, fetch_of_read hna, fetch_of_read hnb, Ending.bind_done]
  unfold State.addMerged
  split
  · rfl
  · rename_i hn; exfalso; apply hn
    simp only [State.moveHeads_nodeN]
    by_cases hge : 2 ≤ s.ftN <;> omega

theorem nodeRef_toNat {a : Nat} (h : a < 256) : (nodeRef a).toNat = a := by
  simp [nodeRef]; omega

theorem children_merged {a b : Nat} (ha : a < 255) (hb : b < 255) (wa wb : Word) : (mergedNode a b wa wb).children = [a, b] := by
  have h1 : nodeRef a ≠ nilRef := by
    intro h; have := congrArg BitVec.toNat h; rw [nodeRef_toNat (by omega)] at this; simp at this; omega
  have h2 : nodeRef b ≠ nilRef := by
    intro h; have := congrArg BitVec.toNat h; rw [nodeRef_toNat (by omega)] at this; simp at this; omega
  simp [Node.children, mergedNode, h1, h2, nodeRef_toNat (show a < 256 by omega), nodeRef_toNat (show b < 256 by omega)]

end Sys2Proof.Machine
end

