-- ==== Sys2Proof/Machine/Assembler.lean ====
section
/-! DEFINITION. The command syntax of 30_encoding R89. -/

namespace Sys2Proof.Machine

/-- Why a line is refused. -/
inductive AsmError where
  | unknownMnemonic
  | operandOnFormatN   -- "refuses an operand on a format-N command"
  | missingOperand
  | badOperand
  | symbolAbove127     -- "refuses a symbol above 127"
  deriving DecidableEq, Repr

/-- The format-N mnemonics (30_encoding R84). -/
def formatNMnemonics : List (List Char × Instr) :=
  [("NOP".toList, .nop), ("SRESET".toList, .sreset), ("CLRERR".toList, .clrerr),
   ("FT_CLEAR".toList, .ftClear), ("TB_INIT".toList, .tbInit), ("TB_STEP".toList, .tbStep),
   ("TB_BUILD".toList, .tbBuild), ("CT_GEN".toList, .ctGen), ("PACK".toList, .pack),
   ("UNPACK".toList, .unpack), ("ENC_BITS".toList, .encBits), ("DEC_BITS".toList, .decBits),
   ("ENCODE".toList, .encode), ("DECODE".toList, .decode)]

/-- A digit's value in any base up to sixteen (log 21). -/
def digitValue (c : Char) : Nat :=
  if '0' ≤ c ∧ c ≤ '9' then c.toNat - '0'.toNat
  else if 'a' ≤ c ∧ c ≤ 'f' then c.toNat - 'a'.toNat + 10
  else if 'A' ≤ c ∧ c ≤ 'F' then c.toNat - 'A'.toNat + 10
  else 16

/-- A number written in the given base; none when a character is no digit or there is none. -/
def parseDigits (base : Nat) (cs : List Char) : Option Nat :=
  if cs ≠ [] ∧ cs.all (fun c => decide (digitValue c < base)) then
    some (cs.foldl (fun n c => n * base + digitValue c) 0)
  else none

/-- A symbol: decimal, 0x hex, or a character in single quotes with its ASCII value (R89). -/
def parseSymbol : List Char → Option Nat
  | ['\'', c, '\''] => some c.toNat
  | '0' :: 'x' :: cs => parseDigits 16 cs
  | cs => parseDigits 10 cs

/-- One line: a mnemonic, then for FT_APPEND one space and a symbol (R89; log 21). -/
def assemble (line : List Char) : Except AsmError Instr :=
  let word := line.takeWhile (fun c => c != ' ')
  let operand := line.drop (word.length + 1)
  if word = "FT_APPEND".toList then
    if operand = [] then .error .missingOperand
    else
      match parseSymbol operand with
      | none => .error .badOperand
      | some n => if n ≤ 127 then .ok (.ftAppend n) else .error .symbolAbove127
  else
    match formatNMnemonics.lookup word with
    | none => .error .unknownMnemonic
    | some i => if operand = [] then .ok i else .error .operandOnFormatN

end Sys2Proof.Machine
end

