-- ==== Sys2Proof/Tests/Slice0.lean ====
section
/-! SUPPORT. Tests: command words and results with expected values from spec/95_test_vectors.md, and one witness for the hypotheses of each statement. -/

open Sys2Proof Sys2Proof.Machine

namespace Sys2Proof.Tests

/-! ## Small states -/

/-- The smallest capacities 00_scope R7 allows. -/
def small : Params := ⟨0, 4, 32, 4⟩

/-- The state with a table loaded. -/
def loaded (p : Params) (table : List (Nat × Nat)) : State :=
  { State.resetWith p with
    ft := table.zipIdx.map fun x => (x.2, ⟨BitVec.ofNat 7 x.1.1, BitVec.ofNat 32 x.1.2⟩)
    ftN := table.length }

/-- A memory whose first elements are given. -/
def listed {α : Type} (vs : List α) : Memory α := vs.zipIdx.map fun x => (x.2, x.1)

/-- Bits written as digits. -/
def digits (ds : List Nat) : Bits := ds.map fun d => d == 1

def State.withBits (s : State) (b : Bits) : State := { s with bits := listed b, bitLen := b.length }
def State.withBytes (s : State) (bs : List Byte) : State := { s with bytes := listed bs, byteLen := bs.length }
def State.withSymbols (s : State) (cs : List Byte) : State := { s with symIn := listed cs, symInLen := cs.length }
def State.about (s : State) (a : HostAction) : State := { s with pending := [a] }

abbrev Result := Host.Outcome State Fault Refusal

def stateOf : Result → State
  | .next t => t
  | .fault _ => State.reset
  | .refused _ => State.reset

def goesOn : Result → Bool
  | .next _ => true
  | .fault _ => false
  | .refused _ => false

def faultOf : Result → Option Fault
  | .next _ => none
  | .fault f => some f
  | .refused _ => none

theorem eq_next {o : Result} (h : goesOn o = true) : o = .next (stateOf o) := by
  cases o with
  | next t => rfl
  | fault f => cases h
  | refused r => cases h

theorem eq_fault {o : Result} {f : Fault} (h : faultOf o = some f) : o = .fault f := by
  cases o with
  | next t => cases h
  | fault g => cases h; rfl
  | refused r => cases h

/-- A result goes on and its state passes a check. -/
def passes (o : Result) (q : State → Bool) : Bool := goesOn o && q (stateOf o)

/-- ERR and ERR_INFO. -/
def errorIs (err info : Word) (t : State) : Bool := t.errWord == err && t.errInfo == info

/-- The bit string BIT_LEN and BITS give. -/
def bitsAre (b : Bits) (t : State) : Bool := t.bitLen == b.length && (List.range t.bitLen).map (Memory.read t.bits) == b.map some

/-- The bytes BYTE_LEN and BYTES give. -/
def bytesAre (bs : List Byte) (t : State) : Bool :=
  t.byteLen == bs.length && (List.range t.byteLen).map (Memory.read t.bytes) == bs.map some

/-- The bytes SYM_OUT_LEN and SYM_OUT give. -/
def symbolsAre (cs : List Byte) (t : State) : Bool :=
  t.symOutLen == cs.length && (List.range t.symOutLen).map (Memory.read t.symOut) == cs.map some

/-- The tables of 95_test_vectors: "aabc", and the single symbol of "aaaa". -/
def aabc : State := loaded small [(98, 1), (99, 1), (97, 2)]
def sole : State := loaded small [(97, 4)]

/-- Node memory that holds the given nodes and then cleared slots. -/
def State.grown (s : State) (ns : List Node) : State :=
  { s with nodes := listed (ns ++ List.replicate (255 - ns.length) blankNode), nodeN := ns.length }

/-- P1's nodes 0 to 2 (b, c, a), 3 = (2; 0, 1), 4 = (4; 2, 3). -/
def leaves : List Node := [⟨true, true, 98#7, 1#32, 255#8, 255#8⟩, ⟨true, true, 99#7, 1#32, 255#8, 255#8⟩, ⟨true, true, 97#7, 2#32, 255#8, 255#8⟩]
def joints : List Node := [⟨true, false, 0#7, 2#32, 0#8, 1#8⟩, ⟨true, false, 0#7, 4#32, 2#8, 3#8⟩]

/-- "aabc" after TB_INIT, after TB_BUILD, after CT_GEN (P1); "aaaa" after TB_BUILD (section 1.5). -/
def running : State := { State.grown aabc leaves with tgtHead := 3, tbState := .running }
def tree : State :=
  { State.grown aabc (leaves ++ joints) with srcHead := 3, tgtHead := 5, root := 4#8, tbState := .done, treeValid := true }
def coded : State :=
  { tree with
    codesValid := true
    codes := listed (List.replicate 97 ⟨false, 0#8, 0#128⟩ ++
      [⟨true, 1#8, 0#128⟩, ⟨true, 2#8, 0x80000000000000000000000000000000#128⟩, ⟨true, 2#8, 0xC0000000000000000000000000000000#128⟩] ++
      List.replicate 28 ⟨false, 0#8, 0#128⟩) }
def soleTree : State :=
  { State.grown sole [⟨true, true, 97#7, 4#32, 255#8, 255#8⟩, ⟨true, false, 0#7, 4#32, 0#8, 255#8⟩] with
    srcHead := 1, tgtHead := 2, root := 1#8, tbState := .done, treeValid := true }

/-! ## WellFormed and the assembler: what they refuse -/

theorem test_wf_refuses_symbol_128 : (Instr.ftAppend 128).wf = false := by decide
theorem test_wf_accepts_symbol_127 : (Instr.ftAppend 127).wf = true := by decide
theorem test_assemble_append : assemble "FT_APPEND 'a'".toList = .ok (.ftAppend 97) := by decide +kernel
theorem test_assemble_refuses :
    assemble "FT_APPEND 0x80".toList = .error .symbolAbove127 ∧ assemble "PACK 1".toList = .error .operandOnFormatN ∧
    assemble "HALT".toList = .error .unknownMnemonic := by decide +kernel

/-! ## Decoding: words written field by field, OPCODE 31:24, must-be-0 bits, SYM 6:0 (30_encoding R80, R84) -/

theorem test_decode_nop : decode (0b00000000#8 ++ 0#24 : BitVec 32) = .ok .nop := by decide
theorem test_decode_sreset : decode (0b00000001#8 ++ 0#24 : BitVec 32) = .ok .sreset := by decide
theorem test_decode_clrerr : decode (0b00000010#8 ++ 0#24 : BitVec 32) = .ok .clrerr := by decide
theorem test_decode_ftClear : decode (0b00010000#8 ++ 0#24 : BitVec 32) = .ok .ftClear := by decide
theorem test_decode_ftAppend : decode (0b00010001#8 ++ 0#17 ++ 0b1100010#7 : BitVec 32) = .ok (.ftAppend 98) := by decide
theorem test_decode_tbInit : decode (0b00100000#8 ++ 0#24 : BitVec 32) = .ok .tbInit := by decide
theorem test_decode_tbStep : decode (0b00100001#8 ++ 0#24 : BitVec 32) = .ok .tbStep := by decide
theorem test_decode_tbBuild : decode (0b00100010#8 ++ 0#24 : BitVec 32) = .ok .tbBuild := by decide
theorem test_decode_ctGen : decode (0b00110000#8 ++ 0#24 : BitVec 32) = .ok .ctGen := by decide
theorem test_decode_pack : decode (0b01000000#8 ++ 0#24 : BitVec 32) = .ok .pack := by decide
theorem test_decode_unpack : decode (0b01000001#8 ++ 0#24 : BitVec 32) = .ok .unpack := by decide
theorem test_decode_encBits : decode (0b01010000#8 ++ 0#24 : BitVec 32) = .ok .encBits := by decide
theorem test_decode_decBits : decode (0b01010001#8 ++ 0#24 : BitVec 32) = .ok .decBits := by decide
theorem test_decode_encode : decode (0b01010010#8 ++ 0#24 : BitVec 32) = .ok .encode := by decide
theorem test_decode_decode : decode (0b01010011#8 ++ 0#24 : BitVec 32) = .ok .decode := by decide

/-- Vectors EN-1, EN-2, EN-3, EN-4, EN-5, EN-6. -/
theorem test_decode_rejects :
    decode 0x03000000#32 = .error .reservedOpcode ∧ decode 0xFF000000#32 = .error .reservedOpcode ∧
    decode 0x22000001#32 = .error .mustBeZero ∧ decode 0x11000080#32 = .error .mustBeZero ∧
    decode 0x11800061#32 = .error .mustBeZero ∧ decode 0x00010000#32 = .error .mustBeZero := by decide

/-- The opcode table's numbering is the word's own; a word longer than 32 bits is no command. -/
theorem test_decodeTableWord :
    decodeTableWord 32 0x11000062 = some (.ftAppend 98) ∧ decodeTableWord 32 0x03000000 = none ∧
    decodeTableWord 40 0 = none := by decide

/-! ## One command at a time: the vectors of 95_test_vectors section 2 -/

/-- CTL-2, CTL-4: NOP keeps a recorded error, CLRERR clears it. -/
theorem test_nop : passes (exec .nop { aabc with errCode := 0x0F#8, errOp := 0x41#8 }) (errorIs 0x410F#32 0#32) = true := by
  decide +kernel
theorem test_clrerr : passes (exec .clrerr { aabc with errCode := 0x0F#8, errOp := 0x41#8 }) (errorIs 0#32 0#32) = true := by
  decide +kernel

/-- CTL-6: SRESET keeps the memories. -/
theorem test_sreset : passes (exec .sreset (State.withBytes coded [0x4B#8])) (fun t =>
    t.byteLen == 0 && t.root == 0xFF#8 && t.statusWord == 0#32 && Memory.read t.bytes 0 == some 0x4B#8) = true := by decide +kernel

/-- FT-9, FT-3, FT-5, FT-6. -/
theorem test_ftClear : passes (exec .ftClear tree) (fun t => t.ftN == 0 && t.ftTotal == 0 && t.nodeN == 0 && !t.treeValid) = true := by
  decide +kernel
theorem test_ftAppend_unsorted : passes (exec (.ftAppend 2) { loaded small [(1, 5)] with arg := 4#32 })
    (fun t => errorIs 0x1105#32 1#32 t && t.ftN == 1) = true := by decide +kernel
theorem test_ftAppend_overflow : passes (exec (.ftAppend 3) { loaded small [(1, 5), (2, 5)] with arg := 0xFFFFFFF6#32 })
    (errorIs 0x1106#32 2#32) = true := by decide +kernel

/-- TB-2: TB_INIT, then the one merge. -/
theorem test_tbInit : passes (exec .tbInit (loaded small [(65, 3), (66, 7)])) (fun t =>
    t.tbState == .running && t.srcHead == 0 && t.tgtHead == 2 && t.nodeN == 2 && t.root == 0xFF#8) = true := by decide +kernel
theorem test_tbStep : passes (exec .tbStep (stateOf (exec .tbInit (loaded small [(65, 3), (66, 7)])))) (fun t =>
    t.readNodeWord 2 0 == 0x0A#32 && t.readNodeWord 2 1 == 0x80000001#32 && t.srcHead == 2 && t.tgtHead == 3 && t.nodeN == 3 &&
    t.root == 2#8 && t.tbState == .done) = true := by decide +kernel

/-- TB-3's last row, and TB-4's tie: the source wins. -/
theorem test_tbBuild : passes (exec .tbBuild (loaded small [(99, 1), (100, 1), (98, 2), (114, 2), (97, 5)])) (fun t =>
    t.readNodeWord 8 0 == 0x0B#32 && t.readNodeWord 8 1 == 0x80000407#32 && t.readNodeWord 7 1 == 0x80000506#32 &&
    t.root == 8#8) = true := by decide +kernel
theorem test_tbBuild_tie : passes (exec .tbBuild (loaded small [(97, 1), (98, 1), (99, 1)])) (fun t =>
    t.readNodeWord 4 1 == 0x80000203#32) = true := by decide +kernel

/-- CT-1 and CT-5. -/
theorem test_ctGen : passes (exec .ctGen tree) (fun t =>
    t.readCodeWord 97 0 == 0x80000001#32 && t.readCodeWord 97 1 == 0#32 && t.readCodeWord 99 0 == 0x80000002#32 &&
    t.readCodeWord 99 1 == 0xC0000000#32 && t.readCodeWord 100 0 == 0#32) = true := by decide +kernel
theorem test_ctGen_noTree : passes (exec .ctGen running) (errorIs 0x3009#32 0#32) = true := by decide +kernel

/-- PK-10 and PK-12. -/
theorem test_pack : passes (exec .pack (State.withBits aabc (List.replicate 9 true))) (bytesAre [0x03#8, 0xFF#8]) = true := by decide +kernel
theorem test_pack_overflow : passes (exec .pack { aabc with bitLen := 32 }) (errorIs 0x400E#32 5#32) = true := by decide +kernel

/-- UP-7 and UP-10. -/
theorem test_unpack : passes (exec .unpack (State.withBytes aabc [0x80#8, 0xAA#8]))
    (bitsAre (digits [0,0,0,0,0,0,0,1,0,1,0,1,0,1,0])) = true := by decide +kernel
theorem test_unpack_noMarker : passes (exec .unpack (State.withBytes aabc [0x00#8, 0xFF#8])) (errorIs 0x410F#32 0#32) = true := by
  decide +kernel

/-- ED-1 and ED-15. -/
theorem test_encBits : passes (exec .encBits (State.withSymbols coded [0x61#8, 0x61#8, 0x62#8, 0x63#8]))
    (bitsAre (digits [0,0,1,0,1,1])) = true := by decide +kernel
theorem test_encBits_noCodes : passes (exec .encBits tree) (errorIs 0x500A#32 0#32) = true := by decide +kernel

/-- ED-8 and ED-20. -/
theorem test_decBits : passes (exec .decBits (State.withBits coded (digits [0,1,0,1])))
    (fun t => symbolsAre [0x61#8, 0x62#8] t && t.decPartial) = true := by decide +kernel
theorem test_decBits_nil : passes (exec .decBits (State.withBits soleTree (digits [0,0,1]))) (errorIs 0x5110#32 2#32) = true := by
  decide +kernel

/-- 1.1 "aabc" and ED-5. -/
theorem test_encode : passes (exec .encode (State.withSymbols coded [0x61#8, 0x61#8, 0x62#8, 0x63#8])) (bytesAre [0x4B#8]) = true := by
  decide +kernel
theorem test_encode_order : passes (exec .encode (State.withSymbols coded [0x64#8, 0xE1#8])) (errorIs 0x520C#32 0#32) = true := by
  decide +kernel

/-- 1.1 "aabc" and ED-18. -/
theorem test_decode_command : passes (exec .decode (State.withBytes coded [0x4B#8]))
    (fun t => symbolsAre [0x61#8, 0x61#8, 0x62#8, 0x63#8] t && bitsAre (digits [0,0,1,0,1,1]) t && !t.decPartial) = true := by
  decide +kernel
theorem test_decode_order : passes (exec .decode (State.resetWith small)) (errorIs 0x530F#32 0#32) = true := by decide +kernel

/-! ## The bus -/

/-- BUS-1, BUS-2, BUS-6, BUS-7, BUS-8. -/
theorem test_bus_reads :
    State.reset.readResponse 0 4 = readOk 0x48554631#32 ∧ State.reset.readResponse 0x48 4 = readOk 0x8000#32 ∧
    State.reset.readResponse 0x4C 4 = readOk 0x1004#32 ∧ State.reset.readResponse 4 4 = readErr ∧
    State.reset.readResponse 0x50 4 = readErr ∧ State.reset.readResponse (0x2000 + 8 * 255) 4 = readOk 0#32 := by decide +kernel

/-- BUS-3, BUS-4, BUS-5: each only adds a BUSERR to what the host has seen. -/
theorem test_bus_write_errors :
    passes (busWrite State.reset 0xC 4 0#32) (fun t => t == State.reset.respond writeErr) = true ∧
    passes (busWrite State.reset 0x3002 4 0#32) (fun t => t == State.reset.respond writeErr) = true ∧
    passes (busWrite State.reset 0x40 4 0x1005#32) (fun t => t == State.reset.respond writeErr) = true := by decide +kernel

/-- BUS-9 and BUS-10. -/
theorem test_bus_window_writes :
    passes (busWrite State.reset 0x10000 4 0x61626364#32) (fun t =>
      t.symIn == listed [0x61#8, 0x62#8, 0x63#8, 0x64#8] && t.readResponse 0x10000 4 == readOk 0x61626364#32) = true ∧
    passes (busWrite State.reset 0x30000 4 0x2C000000#32) (fun t =>
      t.bits == listed (digits [0,0,1,0,1,1] ++ List.replicate 26 false)) = true := by decide +kernel

/-- EN-1 and the gate of section 2.8: an illegal word is recorded, and with an error recorded FT_CLEAR is ignored. -/
theorem test_issue :
    passes (issue 0x03000000#32 State.reset) (errorIs 0x0301#32 0x03000000#32) = true ∧
    passes (issue 0x10000000#32 { aabc with errCode := 0x0F#8, errOp := 0x41#8 })
      (fun t => t.ftN == 3 && errorIs 0x410F#32 0#32 t) = true := by decide +kernel

/-- A word placed for the next fetch runs: NOP from reset makes BUSY rise and nothing else. -/
theorem test_withFetchWord :
    passes (step (State.reset.withFetchWord 32 0x00000000)) (fun t => t.busy && t.pending == [] && t.errCode == 0#8) = true ∧
    passes (step (State.reset.withFetchWord 32 0x40000000)) (bytesAre [0x01#8]) = true := by decide +kernel

/-- The reference analyzer on "abracadabra" (section 1.1), and the words of a file (R235 step 5). -/
theorem test_freqTable :
    freqTable ([97, 98, 114, 97, 99, 97, 100, 97, 98, 114, 97].map (BitVec.ofNat 7)) =
      [(99#7, 1), (100#7, 1), (98#7, 2), (114#7, 2), (97#7, 5)] := by decide +kernel
/-- The jobs in the forms P1 and P5 take them, and the readback of P3's file length and of its bytes. -/
theorem test_compressionJob :
    compressionJob .whole .whole [(98#7, 1), (99#7, 1), (97#7, 2)] [97#7, 97#7, 98#7, 99#7] =
      [.exec .ftClear, .append 98 1#32, .append 99 1#32, .append 97 2#32, .exec .tbBuild, .exec .ctGen,
       .wrWindow .symIn 0 0x61616263#32, .wr .symInLen 4#32, .exec .encode, .check, .rd .byteLen] ∧
    compressionJob .parts .parts [(65#7, 3), (66#7, 7)] [65#7] =
      [.exec .ftClear, .append 65 3#32, .append 66 7#32, .exec .tbInit, .rd .tbState, .exec .tbStep, .rd .tbState, .exec .ctGen,
       .wrWindow .symIn 0 0x41000000#32, .wr .symInLen 1#32, .exec .encBits, .exec .pack, .check, .rd .byteLen] := by decide +kernel
theorem test_decompressionJob :
    decompressionJob .kept .parts [0x4B#8] =
      [.wrWindow .bytes 0 0x4B000000#32, .wr .byteLen 1#32, .exec .unpack, .exec .decBits, .check, .rd .symOutLen] ∧
    decompressionReadback [readOk 11#32] =
      [.rdWindow .symOut 0, .rdWindow .symOut 4, .rdWindow .symOut 8, .rd .status] := by decide +kernel
theorem test_readback :
    compressionReadback [readOk 3#32] = [.rdWindow .bytes 0] ∧ bytesRead 3 [readOk 0xB7456EFF#32] = [0xB7#8, 0x45#8, 0x6E#8] ∧
    bytesRead 5 [readOk 0x05000000#32, readOk 0x01020304#32] = [1#8, 2#8, 3#8, 4#8, 5#8] := by decide +kernel
theorem test_wordsOfBytes : wordsOfBytes [0xB7#8, 0x45#8, 0x6E#8] = [0xB7456E00#32] := by decide +kernel

/-! ## Witnesses: for each statement with hypotheses, concrete values that meet them all, clause by clause -/

/-- The clauses of Inv about registers, checked. -/
def registersHold (s : State) : Bool :=
  decide s.cfg.wf && decide (LengthForm s) && decide (ErrorForm s) && decide (TableForm s) && decide (BuilderForm s) &&
    decide (WeightForm s) && decide (QueueForm s)

/-- A state that differs from one with Inv in its inputs only. -/
theorem inv_of_inputs {s t : State} (h : Inv s)
    (ht : t = { s with
      symIn := t.symIn, symInLen := t.symInLen, bits := t.bits, bitLen := t.bitLen, bytes := t.bytes, byteLen := t.byteLen
      pending := t.pending, busy := t.busy, busyPolls := t.busyPolls })
    (hc : (Memory.wf t.symIn ∧ Memory.below s.cfg.symCap t.symIn) ∧ (Memory.wf t.bits ∧ Memory.below s.cfg.bitCap t.bits) ∧
      (Memory.wf t.bytes ∧ Memory.below s.cfg.byteCap t.bytes) ∧ t.symInLen ≤ s.cfg.symCap ∧ t.bitLen ≤ s.cfg.bitCap ∧
      t.byteLen ≤ s.cfg.byteCap) : Inv t := by
  obtain ⟨m1, m2, m3, _, m5, _, _⟩ := h.memory
  obtain ⟨l1, _, l3, _, _⟩ := h.lengths
  rw [ht]
  exact ⟨h.params, ⟨l1, hc.2.2.2.1, l3, hc.2.2.2.2.1, hc.2.2.2.2.2⟩, ⟨m1, m2, m3, hc.1, m5, hc.2.1, hc.2.2.1⟩, h.errors, h.table,
    h.builder, h.tree, h.weights, h.queues, h.codes, h.output⟩

theorem read_listed {α : Type} (vs : List α) (i : Nat) : Memory.read (listed vs) i = vs[i]? := by
  have h : ∀ (ws : List α) (k : Nat), k ≤ i →
      Memory.read ((ws.zipIdx k).map fun x => (x.2, x.1)) i = ws[i - k]? := by
    intro ws
    induction ws with
    | nil => intro k _; rfl
    | cons w ws ih =>
      intro k hk
      simp only [List.zipIdx_cons, List.map_cons, Memory.read]
      by_cases he : i = k
      · simp [he]
      · rw [if_neg he, ih (k + 1) (by omega), show i - k = (i - (k + 1)) + 1 by omega, List.getElem?_cons_succ]
  exact h vs 0 (Nat.zero_le i)

theorem form_listed {α : Type} {n : Nat} {vs : List α} (hn : vs.length ≤ n) :
    Memory.wf (listed vs) ∧ Memory.below n (listed vs) := by
  constructor
  · rw [Memory.wf, List.pairwise_iff_getElem]
    intro i j hi hj hij
    simpa [listed] using hij
  · intro x hx
    obtain ⟨i, hi, rfl⟩ := List.mem_iff_getElem.mp hx
    simp [listed] at hi ⊢
    omega

/-- The clauses of Inv for a state built from lists: a few nodes, then cleared slots. -/
theorem inv_of_lists {s : State} {ns : List Node} {cs : List CodeEntry}
    (hn : s.nodes = listed (ns ++ List.replicate (255 - ns.length) blankNode)) (hl : ns.length = s.nodeN ∧ ns.length ≤ 255)
    (hc : s.codes = listed cs) (hcl : cs.length ≤ 128)
    (hm : (Memory.wf s.ft ∧ Memory.below 128 s.ft) ∧ s.symIn = [] ∧ s.symOut = [] ∧ s.bits = [] ∧ s.bytes = [])
    (h : registersHold s = true)
    (ht : (∀ i < s.ftN, Memory.read s.nodes i = (s.table[i]?).map leafNode) ∧
      (∀ i < s.nodeN, s.ftN ≤ i → s.internalAt i = true) ∧
      s.childIndices.filter (fun i => decide (i < s.ftN)) = List.range' 0 s.srcHead ∧
      s.childIndices.filter (fun i => decide (s.ftN ≤ i)) = List.range' s.ftN s.adoptedInternal)
    (hcf : CodesForm s) (ho : s.symOutLen = 0) : Inv s := by
  simp only [registersHold, Bool.and_eq_true, decide_eq_true_eq] at h
  obtain ⟨⟨⟨⟨⟨⟨h1, h2⟩, h4⟩, h5⟩, h6⟩, h8⟩, h9⟩ := h
  obtain ⟨m1, m4, m5, m6, m7⟩ := hm
  refine ⟨h1, h2, ⟨m1, ?_, ?_, ?_, ?_, ?_, ?_⟩, h4, h5, h6, fun _ => ⟨ht.1, ht.2.1, ?_, ht.2.2.1, ht.2.2.2⟩, h8, h9, hcf, ?_⟩
  · rw [hn]; exact form_listed (by simp; omega)
  · rw [hc]; exact form_listed hcl
  · simp [m4, Memory.wf, Memory.below]
  · simp [m5, Memory.wf, Memory.below]
  · simp [m6, Memory.wf, Memory.below]
  · simp [m7, Memory.wf, Memory.below]
  · intro i hi hge
    rw [hn, read_listed, List.getElem?_append_right (by omega), List.getElem?_replicate, if_pos (by omega)]
  · intro i hi
    omega

theorem inv_aabc : Inv aabc := by
  have h : registersHold aabc = true := by decide +kernel
  simp only [registersHold, Bool.and_eq_true, decide_eq_true_eq] at h
  obtain ⟨⟨⟨⟨⟨⟨h1, h2⟩, h4⟩, h5⟩, h6⟩, h8⟩, h9⟩ := h
  exact ⟨h1, h2, by decide +kernel, h4, h5, h6, fun h => absurd rfl h, h8, h9, fun h => absurd h (by decide),
    fun i hi => absurd hi (by simp [aabc, loaded, State.resetWith])⟩

theorem inv_running : Inv running :=
  inv_of_lists rfl (by decide +kernel) (cs := []) rfl (by decide) (by decide +kernel) (by decide +kernel) (by decide +kernel) (by decide +kernel) rfl

theorem inv_tree : Inv tree :=
  inv_of_lists rfl (by decide +kernel) (cs := []) rfl (by decide) (by decide +kernel) (by decide +kernel) (by decide +kernel) (by decide +kernel) rfl

theorem inv_coded : Inv coded :=
  inv_of_lists rfl (by decide +kernel) rfl (by decide +kernel) (by decide +kernel) (by decide +kernel) (by decide +kernel) (by decide +kernel) rfl

theorem inv_soleTree : Inv soleTree :=
  inv_of_lists rfl (by decide +kernel) (cs := []) rfl (by decide) (by decide +kernel) (by decide +kernel) (by decide +kernel) (by decide +kernel) rfl

/-- A word written to CMD as the next action of a quiet state. -/
def issuing (s : State) (w : Word) : State := State.about s (cmdWrite s.cfg w)

def erred : State := { aabc with errCode := 0x0F#8, errOp := 0x41#8 }

theorem witness_OpcodeMapWords :
    (∃ sym : Nat, sym ≤ 127 ∧ sym = 127) ∧
    (0xFF000000#32 >>> 24).toNat ∉ [0x00, 0x01, 0x02, 0x10, 0x11, 0x20, 0x21, 0x22, 0x30, 0x40, 0x41, 0x50, 0x51, 0x52, 0x53] :=
  ⟨⟨127, by decide⟩, by decide⟩

theorem witness_CmdWriteRunsDecodedCommand :
    (∃ (s : State) (w : Word) (rest : List HostAction) (i : Instr),
      s.pending = cmdWrite s.cfg w :: rest ∧ s.busy = false ∧ decode w = .ok i ∧ s.errCode = 0#8) ∧
    (∃ (s : State) (w : Word) (rest : List HostAction), s.pending = cmdWrite s.cfg w :: rest ∧ s.busy = false ∧
      decode w = .ok .clrerr ∧ s.errCode ≠ 0#8) :=
  ⟨⟨issuing aabc 0x1100007F#32, 0x1100007F#32, [], .ftAppend 127, by decide +kernel⟩,
    issuing erred 0x02000000#32, 0x02000000#32, [], by decide +kernel⟩

theorem witness_ReservedOpcodeIsIllegal :
    ∀ op ∈ [0x03#8, 0x0F#8, 0x12#8, 0x1F#8, 0x23#8, 0x2F#8, 0x31#8, 0x3F#8, 0x42#8, 0x4F#8, 0x54#8, 0xFF#8],
      ∃ (s : State) (w : Word) (rest : List HostAction), s.pending = cmdWrite s.cfg w :: rest ∧ s.busy = false ∧
        s.errCode = 0#8 ∧ ReservedOpcode (w >>> 24).toNat ∧ w.extractLsb' 24 8 = op := by
  intro op h
  refine ⟨issuing aabc (op ++ 0#24), op ++ 0#24, [], rfl, rfl, rfl, ?_⟩
  simp only [List.mem_cons, List.not_mem_nil, or_false] at h
  rcases h with rfl | rfl | rfl | rfl | rfl | rfl | rfl | rfl | rfl | rfl | rfl | rfl <;> decide

theorem witness_MustBeZeroBitIsIllegal :
    ∀ w ∈ [0x00000001#32, 0x53800000#32, 0x11000080#32, 0x11800000#32],
      ∃ (s : State) (rest : List HostAction), s.pending = cmdWrite s.cfg w :: rest ∧ s.busy = false ∧ s.errCode = 0#8 ∧
        (((w >>> 24).toNat ∈ [0x00, 0x01, 0x02, 0x10, 0x20, 0x21, 0x22, 0x30, 0x40, 0x41, 0x50, 0x51, 0x52, 0x53] ∧
            w.extractLsb' 0 24 ≠ 0#24) ∨
          ((w >>> 24).toNat = 0x11 ∧ w.extractLsb' 7 17 ≠ 0#17)) := by
  intro w h
  refine ⟨issuing aabc w, [], rfl, rfl, rfl, ?_⟩
  simp only [List.mem_cons, List.not_mem_nil, or_false] at h
  rcases h with rfl | rfl | rfl | rfl <;> decide

theorem witness_ErrorsAreAllOrNothing :
    ∃ (i : Instr) (s t : State), exec i s = .next t ∧ s.errCode = 0#8 ∧ t.errCode ≠ 0#8 :=
  ⟨.tbStep, aabc, _, eq_next (by decide +kernel), by decide +kernel, by decide +kernel⟩

theorem witness_ErrorGateIgnoresCommands :
    ∀ w ∈ [0x10000000#32, 0x03000000#32, 0xFF000000#32],
      ∃ (s : State) (rest : List HostAction), s.pending = cmdWrite s.cfg w :: rest ∧ s.busy = false ∧ s.errCode ≠ 0#8 ∧
        (w >>> 24).toNat ∉ [0x00, 0x01, 0x02] := by
  intro w h
  refine ⟨issuing erred w, [], rfl, rfl, (by decide : erred.errCode ≠ 0#8), ?_⟩
  simp only [List.mem_cons, List.not_mem_nil, or_false] at h
  rcases h with rfl | rfl | rfl <;> decide

theorem witness_FirstErrorIsKept :
    (∃ (s t : State) (a : HostAction) (rest : List HostAction), s.pending = a :: rest ∧ s.errCode ≠ 0#8 ∧ step s = .next t ∧
      a ≠ .hwReset ∧ a ≠ cmdWrite s.cfg 0x01000000#32 ∧ a ≠ cmdWrite s.cfg 0x02000000#32) ∧
    (∃ (s : State) (w : Word) (rest : List HostAction) (r : DecodeReject), s.pending = cmdWrite s.cfg w :: rest ∧
      s.busy = false ∧ s.errCode ≠ 0#8 ∧ decode w = .error r) :=
  ⟨⟨issuing erred 0x01000001#32, _, cmdWrite small 0x01000001#32, [], rfl, by decide, eq_next (by decide +kernel),
      by decide +kernel⟩,
    issuing erred 0x02000005#32, 0x02000005#32, [], .mustBeZero, by decide +kernel⟩

/-- Any state will do: v is what it answers. -/
theorem witness_RegisterMapReads :
    ∃ (s : State) (v : Nat → BusResponse), ∀ a, v a = s.readResponse (s.cfg.base + a) 4 :=
  ⟨aabc, fun a => aabc.readResponse (aabc.cfg.base + a) 4, fun _ => rfl⟩

theorem witness_BusErrorChangesNothing :
    (∀ x ∈ [(0xFFFFC, 2), (0x000, 8), (0x003, 4), (0x050, 4), (0x10004, 4), (0x004, 4)],
      ∃ (s : State) (rest : List HostAction), x.1 < 0x100000 ∧ s.pending = .read (s.cfg.base + x.1) x.2 :: rest ∧
        s.busy = false ∧ (x.2 ≠ 4 ∨ x.1 % 4 ≠ 0 ∨ locate s.cfg x.1 = none ∨ x.1 = 0x004)) ∧
    (∀ x ∈ [(0x008, 1, 0#32), (0x3002, 4, 0#32), (0x40004, 4, 0#32), (0x000, 4, 0#32), (0x04C, 4, 0#32), (0x1000, 4, 0#32),
        (0x3FFC, 4, 0#32), (0x20000, 4, 0#32), (0x2FFFC, 4, 0#32), (0x034, 4, 5#32), (0x03C, 4, 33#32), (0x040, 4, 5#32)],
      ∃ (s : State) (rest : List HostAction), x.1 < 0x100000 ∧ s.pending = .write (s.cfg.base + x.1) x.2.1 x.2.2 :: rest ∧
        s.busy = false ∧
        (x.2.1 ≠ 4 ∨ x.1 % 4 ≠ 0 ∨ locate s.cfg x.1 = none ∨
          x.1 ∈ [0x000, 0x00C, 0x010, 0x014, 0x018, 0x01C, 0x020, 0x024, 0x028, 0x02C, 0x030, 0x038, 0x044, 0x048, 0x04C] ∨
          (0x1000 ≤ x.1 ∧ x.1 < 0x4000) ∨ (0x20000 ≤ x.1 ∧ x.1 < 0x30000) ∨
          (x.1 = 0x034 ∧ s.cfg.symCap < x.2.2.toNat) ∨ (x.1 = 0x03C ∧ s.cfg.bitCap < x.2.2.toNat) ∨
          (x.1 = 0x040 ∧ s.cfg.byteCap < x.2.2.toNat))) := by
  constructor
  · intro x h
    refine ⟨State.about aabc (.read (aabc.cfg.base + x.1) x.2), [], ?_, rfl, rfl, ?_⟩ <;> revert h <;> revert x <;> decide +kernel
  · intro x h
    refine ⟨State.about aabc (.write (aabc.cfg.base + x.1) x.2.1 x.2.2), [], ?_, rfl, rfl, ?_⟩ <;> revert h <;> revert x <;>
      decide +kernel

/-- The edges of the map for the smallest and the largest capacities. -/
theorem witness_UnmappedOffsets :
    ∀ p ∈ [small, (⟨0x100000, 65536, 524288, 65536⟩ : Params)],
      ∀ a ∈ [0x04C, 0x050, 0xFFC, 0x1000, 0x13FC, 0x1400, 0x27FC, 0x2800, 0x3000, 0x3FFC, 0x4000, 0x10000, 0x10004, 0x1FFFC,
        0x30000, 0x30004, 0x3FFFC, 0x40000, 0x4FFFC, 0x50000], p.wf ∧ a % 4 = 0 := by decide +kernel

theorem witness_LengthRegisterWrites :
    ∀ v ∈ [0#32, 4#32, 5#32, 32#32, 33#32, 0xFFFFFFFF#32], ∀ off ∈ [0x008, 0x034, 0x03C, 0x040],
      ∃ (s : State) (rest : List HostAction), s.busy = false ∧ s.pending = .write (s.cfg.base + off) 4 v :: rest :=
  fun v _ off _ => ⟨State.about aabc (.write (aabc.cfg.base + off) 4 v), [], rfl, rfl⟩

theorem witness_WindowWriteReadsBack :
    (∀ k ∈ [0, 1], ∃ (s : State) (v : Word) (rest : List HostAction), s.cfg.wf ∧ s.busy = false ∧ 4 * k < s.cfg.symCap ∧
      s.pending = .write (s.cfg.base + 0x10000 + 4 * k) 4 v :: rest) ∧
    (∀ k ∈ [0, 1], ∃ (s : State) (v : Word) (rest : List HostAction), s.cfg.wf ∧ s.busy = false ∧ 32 * k < s.cfg.bitCap ∧
      s.pending = .write (s.cfg.base + 0x30000 + 4 * k) 4 v :: rest) ∧
    (∀ k ∈ [0, 1], ∃ (s : State) (v : Word) (rest : List HostAction), s.cfg.wf ∧ s.busy = false ∧ 4 * k < s.cfg.byteCap ∧
      s.pending = .write (s.cfg.base + 0x40000 + 4 * k) 4 v :: rest) := by
  refine ⟨fun k h => ?_, fun k h => ?_, fun k h => ?_⟩
  · refine ⟨State.about (State.resetWith ⟨0, 8, 64, 8⟩) (.write (0 + 0x10000 + 4 * k) 4 0x61626364#32), 0x61626364#32, [], ?_, rfl, ?_, rfl⟩ <;>
      revert h <;> revert k <;> decide +kernel
  · refine ⟨State.about (State.resetWith ⟨0, 8, 64, 8⟩) (.write (0 + 0x30000 + 4 * k) 4 0x2C000000#32), 0x2C000000#32, [], ?_, rfl, ?_, rfl⟩ <;>
      revert h <;> revert k <;> decide +kernel
  · refine ⟨State.about (State.resetWith ⟨0, 8, 64, 8⟩) (.write (0 + 0x40000 + 4 * k) 4 0x4B000000#32), 0x4B000000#32, [], ?_, rfl, ?_, rfl⟩ <;>
      revert h <;> revert k <;> decide +kernel

/-- A full table for its first and last entries; a tree of 128 leaves has node 254. -/
def full : State := loaded small ((List.range 128).map fun c => (c, 1))

theorem witness_TableWindowLayout :
    (∀ i ∈ [0, 127], ∃ e : FtEntry, i < 128 ∧ Memory.read full.ft i = some e ∧ i < full.ftN) ∧
    (∀ i ∈ [3, 127], i < 128 ∧ aabc.ftN ≤ i) ∧
    (∀ i ∈ [0, 4, 254], ∃ nd : Node, i ≤ 254 ∧ Memory.read tree.nodes i = some nd) ∧
    (∀ c ∈ [0, 97, 127], ∃ e : CodeEntry, c < 128 ∧ Memory.read coded.codes c = some e) ∧
    (∀ q ∈ [1, 4], 1 ≤ q ∧ q ≤ 4) ∧ (∀ q ∈ [5, 7], 5 ≤ q ∧ q ≤ 7) ∧
    (small.wf ∧ Memory.read { aabc with symOut := listed [0x61#8] }.symOut (4 * 0 + 0) = some 0x61#8 ∧ 4 * 0 < aabc.cfg.symCap) := by
  have some_of {α : Type} {o : Option α} (h : o.isSome = true) : ∃ x, o = some x := Option.isSome_iff_exists.mp h
  refine ⟨fun i h => ?_, by decide +kernel, fun i h => ?_, fun c h => ?_, by decide, by decide, by decide +kernel⟩
  · have h' : i < 128 ∧ (Memory.read full.ft i).isSome = true ∧ i < full.ftN := by revert h; revert i; decide +kernel
    obtain ⟨e, he⟩ := some_of h'.2.1
    exact ⟨e, h'.1, he, h'.2.2⟩
  · have h' : i ≤ 254 ∧ (Memory.read tree.nodes i).isSome = true := by revert h; revert i; decide +kernel
    obtain ⟨e, he⟩ := some_of h'.2
    exact ⟨e, h'.1, he⟩
  · have h' : c < 128 ∧ (Memory.read coded.codes c).isSome = true := by revert h; revert c; decide +kernel
    obtain ⟨e, he⟩ := some_of h'.2
    exact ⟨e, h'.1, he⟩

theorem witness_BitsWordEqualsBytesWord :
    ∃ (s : State) (k : Nat) (bs : List Byte), Memory.readRange s.bytes (4 * k) 4 = .ok bs ∧
      Memory.readRange s.bits (32 * k) 32 = .ok (expandAll bs) :=
  ⟨State.withBits (State.withBytes aabc [1#8, 2#8, 3#8, 4#8]) (expandAll [1#8, 2#8, 3#8, 4#8]), 0, [1#8, 2#8, 3#8, 4#8], by
    constructor <;> rfl⟩

theorem witness_BusReadsHaveNoSideEffect :
    ∃ (s : State) (addr size : Nat) (rest : List HostAction), s.pending = .read addr size :: rest ∧ s.busy = false :=
  ⟨State.about aabc (.read 0x20000 4), 0x20000, 4, [], rfl, rfl⟩

theorem witness_BusyProtocol :
    (∀ n ∈ [0, 1], ∃ (s : State) (rest : List HostAction), s.busy = true ∧
      s.pending = .read (regAddr s.cfg .status) 4 :: rest ∧ s.busyPolls = n) ∧
    (∀ x ∈ [(0x00C, 2), (0x010, 4)], ∃ (s : State) (rest : List HostAction), s.busy = true ∧
      s.pending = .read x.1 x.2 :: rest ∧ ¬ (x.1 = regAddr s.cfg .status ∧ x.2 = 4)) ∧
    (∃ (s : State) (addr size : Nat) (v : Word) (rest : List HostAction), s.busy = true ∧
      s.pending = .write addr size v :: rest) := by
  refine ⟨fun n _ => ⟨{ State.about aabc (.read (regAddr small .status) 4) with busy := true, busyPolls := n }, [], rfl, rfl, rfl⟩,
    fun x h => ⟨{ State.about aabc (.read x.1 x.2) with busy := true }, [], rfl, rfl, ?_⟩,
    { State.about aabc (.write 0x008 4 1#32) with busy := true }, 0x008, 4, 1#32, [], rfl, rfl⟩
  revert h; revert x; decide +kernel

theorem witness_PollTerminates : ∃ (s : State) (rest : List HostAction), s.pending = .poll :: rest ∧ s.busy = true :=
  ⟨{ State.about aabc .poll with busy := true, busyPolls := 3 }, [], rfl, rfl⟩

theorem witness_HardwareResetValues : ∃ (s : State) (rest : List HostAction), s.pending = .hwReset :: rest :=
  ⟨State.about coded .hwReset, [], rfl⟩

theorem witness_CommandsAfterReset : Params.defaults.wf ∧ small.wf := by decide +kernel

theorem witness_FtAppendAccepts :
    (∃ (s : State) (sym : Nat) (table : List FtEntry), TableHeld s table ∧ s.ftN ≠ 128 ∧ s.arg ≠ 0#32 ∧
      (∀ e ∈ table, e.sym ≠ BitVec.ofNat 7 sym) ∧ (∀ e, table.getLast? = some e → e.weight ≤ s.arg) ∧
      totalWeight table + s.arg.toNat = 0xFFFFFFFF) ∧
    (∃ (s : State) (sym : Nat), TableHeld s [] ∧ s.ftN ≠ 128 ∧ s.arg = 1#32 ∧ sym = 127) := by
  refine ⟨⟨{ loaded small [(1, 5), (2, 5)] with arg := 0xFFFFFFF5#32 }, 3, [⟨1#7, 5#32⟩, ⟨2#7, 5#32⟩], rfl, by decide, by decide,
    by decide, ?_, by decide⟩, { State.resetWith small with arg := 1#32 }, 127, rfl, by decide, rfl, rfl⟩
  intro e h
  cases h
  decide

theorem witness_FtAppendCheckOrder :
    (∃ (s : State) (table : List FtEntry), TableHeld s table ∧ s.errCode = 0#8 ∧ s.ftN = 128) ∧
    (∃ (s : State) (table : List FtEntry), TableHeld s table ∧ s.errCode = 0#8 ∧ s.ftN ≠ 128 ∧ s.arg = 0#32) ∧
    (∃ (s : State) (table : List FtEntry) (e : FtEntry), TableHeld s table ∧ s.errCode = 0#8 ∧ s.ftN ≠ 128 ∧ s.arg ≠ 0#32 ∧
      table[1]? = some e ∧ e.sym = BitVec.ofNat 7 2 ∧ (∀ j < 1, ∀ d, table[j]? = some d → d.sym ≠ BitVec.ofNat 7 2)) ∧
    (∃ (s : State) (table : List FtEntry) (e : FtEntry), TableHeld s table ∧ s.errCode = 0#8 ∧ s.ftN ≠ 128 ∧ s.arg ≠ 0#32 ∧
      (∀ d ∈ table, d.sym ≠ BitVec.ofNat 7 3) ∧ table.getLast? = some e ∧ s.arg < e.weight) ∧
    (∃ (s : State) (table : List FtEntry), TableHeld s table ∧ s.errCode = 0#8 ∧ s.ftN ≠ 128 ∧ s.arg ≠ 0#32 ∧
      (∀ d ∈ table, d.sym ≠ BitVec.ofNat 7 3) ∧ (∀ e, table.getLast? = some e → e.weight ≤ s.arg) ∧
      totalWeight table + s.arg.toNat = 0x100000000) := by
  refine ⟨⟨full, full.table, by decide +kernel, rfl, by decide +kernel⟩, ⟨loaded small [(1, 5), (2, 5)], [⟨1#7, 5#32⟩, ⟨2#7, 5#32⟩], rfl, rfl, by decide, rfl⟩,
    ⟨{ loaded small [(1, 5), (2, 5)] with arg := 9#32 }, [⟨1#7, 5#32⟩, ⟨2#7, 5#32⟩], ⟨2#7, 5#32⟩, rfl, rfl, by decide, by decide, rfl, rfl, ?_⟩,
    ⟨{ loaded small [(1, 5), (2, 5)] with arg := 4#32 }, [⟨1#7, 5#32⟩, ⟨2#7, 5#32⟩], ⟨2#7, 5#32⟩, rfl, rfl, by decide, by decide, by decide, rfl, by decide⟩,
    ⟨{ loaded small [(1, 5), (2, 5)] with arg := 0xFFFFFFF6#32 }, [⟨1#7, 5#32⟩, ⟨2#7, 5#32⟩], rfl, rfl, by decide, by decide, by decide, ?_, by decide⟩⟩
  · intro j hj d hd
    obtain rfl : j = 0 := by omega
    cases hd
    decide
  · intro e h
    cases h
    decide

theorem witness_StepKeepsTableConforming : ∃ s t : State, s.ftN ≤ 128 ∧ TableForm s ∧ step s = .next t :=
  ⟨issuing { aabc with arg := 2#32 } 0x11000064#32, _, by decide +kernel, by decide +kernel, eq_next (by decide +kernel)⟩

theorem witness_ReferenceTableIsAccepted :
    ∃ (s : State) (text : List Symbol), s.ftN = 0 ∧ s.errCode = 0#8 ∧ text.length ≤ 0xFFFFFFFF ∧ text ≠ [] :=
  ⟨State.resetWith small, [98#7, 97#7, 98#7], by decide +kernel⟩

theorem witness_TbInitResult :
    (∃ (s : State), TableHeld s [] ∧ s.ftN = 0 ∧ s.errCode = 0#8) ∧
    (∃ (s : State) (e : FtEntry), TableHeld s [e] ∧ s.ftN = 1) ∧
    (∃ (s : State) (table : List FtEntry), TableHeld s table ∧ s.ftN = 2) ∧
    (∃ (s : State) (table : List FtEntry), TableHeld s table ∧ s.ftN = 128) :=
  ⟨⟨State.resetWith small, rfl, rfl, rfl⟩, ⟨sole, ⟨97#7, 4#32⟩, rfl, rfl⟩,
    ⟨loaded small [(65, 3), (66, 7)], [⟨65#7, 3#32⟩, ⟨66#7, 7#32⟩], rfl, rfl⟩, full, full.table, by decide +kernel, by decide +kernel⟩

/-- The merge of TB-2 is the last; the first of "aabc" is not; TB_STEP without a build is an error. -/
theorem witness_TbStepResult :
    (aabc.tbState ≠ .running ∧ tree.tbState ≠ .running ∧ tree.errCode = 0#8) ∧
    (∃ (s : State) (na nb : Node), s.tbState = .running ∧ s.tgtHead ≤ s.nodeN ∧ s.nodeN ≤ 254 ∧ 2 ≤ s.srcLen + s.tgtLen ∧
      (∀ i < s.nodeN, (Memory.read s.nodes i).isSome = true) ∧ s.ftN ≤ s.nodeN ∧
      Extracts s 0 1 2 ∧ Extracts { s with srcHead := 1, tgtHead := 2 } 1 2 2 ∧
      Memory.read s.nodes 0 = some na ∧ Memory.read s.nodes 1 = some nb ∧ s.ftN = 2 ∧ s.nodeN = 2) ∧
    (∃ (s : State) (na nb : Node), s.tbState = .running ∧ s.tgtHead ≤ s.nodeN ∧ s.nodeN ≤ 254 ∧ 2 ≤ s.srcLen + s.tgtLen ∧
      (∀ i < s.nodeN, (Memory.read s.nodes i).isSome = true) ∧ s.ftN ≤ s.nodeN ∧
      Extracts s 0 1 3 ∧ Extracts { s with srcHead := 1, tgtHead := 3 } 1 2 3 ∧
      Memory.read s.nodes 0 = some na ∧ Memory.read s.nodes 1 = some nb ∧ ¬ (2 = s.ftN ∧ 3 = s.nodeN) ∧ s.srcHead ≤ s.ftN) := by
  refine ⟨by decide +kernel,
    ⟨stateOf (exec .tbInit (loaded small [(65, 3), (66, 7)])), leafNode ⟨65#7, 3#32⟩, leafNode ⟨66#7, 7#32⟩, by decide +kernel⟩,
    ⟨running, leafNode ⟨98#7, 1#32⟩, leafNode ⟨99#7, 1#32⟩, by decide +kernel⟩⟩

theorem witness_ExtractTakesLeastWeight :
    ∃ (s : State) (x src tgt : Nat), Inv s ∧ s.tbState = .running ∧ Extracts s x src tgt ∧ 0 < s.srcLen :=
  ⟨running, 0, 1, 3, inv_running, by decide +kernel⟩

theorem witness_ExtractIsPriorityQueueMinimum :
    ∃ (s : State) (x src tgt : Nat), Inv s ∧ s.tbState = .running ∧ Extracts s x src tgt :=
  ⟨running, 0, 1, 3, inv_running, by decide +kernel⟩

theorem witness_TbBuildMakesTheTree : full.ftN = 128 ∧
    (TableForm sole ∧ sole.ftN = 1) ∧ (TableForm aabc ∧ 2 ≤ aabc.ftN ∧ aabc.ftN ≤ 128) := by
  decide +kernel

theorem witness_TbBuildEqualsInitAndSteps : TableForm aabc ∧ 1 ≤ aabc.ftN ∧ aabc.ftN ≤ 128 ∧ 1 < aabc.ftN - 1 := by decide +kernel

theorem witness_TreeDependsOnTableOnly :
    ∃ (s s' t t' : State) (table : List FtEntry), table ≠ [] ∧ TableHeld s table ∧ TableHeld s' table ∧
      exec .tbBuild s = .next t ∧ exec .tbBuild s' = .next t' ∧ s ≠ s' :=
  ⟨aabc, coded, _, _, aabc.table, by decide +kernel, by decide +kernel, by decide +kernel, eq_next (by decide +kernel),
    eq_next (by decide +kernel), by decide +kernel⟩

theorem witness_CtGenMakesTheCodes :
    (running.treeValid = false ∧ running.errCode = 0#8) ∧ (Inv tree ∧ tree.treeValid = true ∧ 2 ≤ tree.ftN) ∧
    (Inv soleTree ∧ soleTree.treeValid = true ∧ soleTree.ftN = 1) :=
  ⟨by decide +kernel, ⟨inv_tree, by decide +kernel⟩, inv_soleTree, by decide +kernel⟩

theorem witness_CodesArePrefixFree :
    ∃ (s : State) (c d : Symbol) (e f : CodeEntry), Inv s ∧ s.codesValid = true ∧ c ≠ d ∧
      Memory.read s.codes c.toNat = some e ∧ Memory.read s.codes d.toNat = some f ∧ e.valid = true ∧ f.valid = true :=
  ⟨coded, 97#7, 98#7, entryOfPath [false], entryOfPath [true, false], inv_coded, by decide +kernel⟩

theorem witness_HeavierSymbolsHaveNoLongerCodes :
    ∃ (s : State) (x y : FtEntry) (e f : CodeEntry), Inv s ∧ s.codesValid = true ∧ x ∈ s.table ∧ y ∈ s.table ∧
      y.weight < x.weight ∧ Memory.read s.codes x.sym.toNat = some e ∧ Memory.read s.codes y.sym.toNat = some f :=
  ⟨coded, ⟨97#7, 2#32⟩, ⟨98#7, 1#32⟩, entryOfPath [false], entryOfPath [true, false], inv_coded, by decide +kernel⟩

theorem witness_ByteBoundaryPadding : (digits [0,0,0,1,1,0,1,1]).length % 8 = 0 ∧ ([] : Bits).length % 8 = 0 := by decide

theorem witness_PackImage : ∃ b c : Bits, packBits b = packBits c := ⟨digits [1], digits [1], rfl⟩

theorem witness_PackResult :
    (∃ (s : State) (b : Bits), Memory.readRange s.bits 0 s.bitLen = .ok b ∧ s.bitLen / 8 + 1 = s.cfg.byteCap) ∧
    (∃ s : State, s.cfg.byteCap < s.bitLen / 8 + 1 ∧ s.errCode = 0#8 ∧ s.bitLen = 32) :=
  ⟨⟨State.withBits aabc (List.replicate 31 true), List.replicate 31 true, rfl, by decide +kernel⟩,
    { aabc with bitLen := 32 }, by decide +kernel⟩

theorem witness_UnpackResult :
    (∃ (s : State) (bs : List Byte) (b : Bits), Memory.readRange s.bytes 0 s.byteLen = .ok bs ∧ unpackBytes bs = some b ∧
      b.length ≤ s.cfg.bitCap) ∧
    (aabc.errCode = 0#8 ∧ aabc.byteLen = 0 ∧ Memory.read (State.withBytes aabc [0x00#8]).bytes 0 = some 0x00#8) ∧
    (∃ (s : State) (v : Byte), s.errCode = 0#8 ∧ s.byteLen ≠ 0 ∧ Memory.read s.bytes 0 = some v ∧ v.getLsbD (7 - 7) = true ∧
      (∀ j < 7, v.getLsbD (7 - j) = false) ∧ s.cfg.bitCap < 8 * s.byteLen - 7 - 1) ∧
    (∃ (s : State) (v : Byte), s.errCode = 0#8 ∧ s.byteLen ≠ 0 ∧ Memory.read s.bytes 0 = some v ∧ v.getLsbD (7 - 0) = true ∧
      (∀ j < 0, v.getLsbD (7 - j) = false) ∧ s.cfg.bitCap < 8 * s.byteLen - 0 - 1) :=
  ⟨⟨State.withBytes aabc [0x01#8, 0xB3#8], [0x01#8, 0xB3#8], digits [1,0,1,1,0,0,1,1], rfl, by decide, by decide⟩, by decide +kernel,
    ⟨State.withBytes (loaded ⟨0, 4, 32, 8⟩ []) [0x01#8, 0#8, 0#8, 0#8, 0#8, 0#8], 0x01#8, by decide +kernel⟩,
    ⟨State.withBytes (loaded ⟨0, 4, 32, 8⟩ []) [0x80#8, 0#8, 0#8, 0#8, 0#8], 0x80#8, by decide +kernel⟩⟩

theorem witness_PaddingDescribesItself :
    ∃ (s : State) (b : Bits), Memory.readRange s.bits 0 s.bitLen = .ok b ∧ s.bitLen ≤ s.cfg.bitCap ∧
      s.bitLen / 8 + 1 ≤ s.cfg.byteCap ∧ s.bitLen % 8 = 0 :=
  ⟨State.withBits aabc (digits [0,0,0,1,1,0,1,1]), digits [0,0,0,1,1,0,1,1], rfl, by decide +kernel⟩

/-- "aabc" in SYM_IN beside its codes. -/
def toEncode : State := State.withSymbols coded [0x61#8, 0x61#8, 0x62#8, 0x63#8]

theorem witness_EncBitsResult :
    ∃ (s : State) (cs : List Byte), s.codesValid = true ∧ Memory.readRange s.symIn 0 s.symInLen = .ok cs ∧ Encodable s cs ∧
      (s.codeStream cs).length ≤ s.cfg.bitCap ∧ cs ≠ [] :=
  ⟨toEncode, [0x61#8, 0x61#8, 0x62#8, 0x63#8], by decide +kernel, rfl, by decide +kernel⟩

/-- ED-4, ED-3, and a code that ends one bit past BIT_CAP. -/
theorem witness_EncodingErrors :
    (tree.codesValid = false ∧ tree.errCode = 0#8) ∧
    (∃ s : State, s.errCode = 0#8 ∧ s.codesValid = true ∧ 1 < s.symInLen ∧ Memory.readRange s.symIn 0 1 = .ok [0x61#8] ∧
      Encodable s [0x61#8] ∧ (s.codeStream [0x61#8]).length ≤ s.cfg.bitCap ∧ Memory.read s.symIn 1 = some 0x80#8) ∧
    (∃ (s : State) (e : CodeEntry), s.errCode = 0#8 ∧ s.codesValid = true ∧ 0 < s.symInLen ∧ Memory.readRange s.symIn 0 0 = .ok [] ∧
      Memory.read s.symIn 0 = some 0x64#8 ∧ Memory.read s.codes 0x64 = some e ∧ e.valid = false) ∧
    (∃ (s : State) (cs : List Byte) (e : CodeEntry), s.errCode = 0#8 ∧ s.codesValid = true ∧ 16 < s.symInLen ∧
      Memory.readRange s.symIn 0 16 = .ok cs ∧ Encodable s cs ∧ (s.codeStream cs).length = s.cfg.bitCap ∧
      Memory.read s.symIn 16 = some 0x61#8 ∧ Memory.read s.codes 0x61 = some e ∧ e.valid = true ∧
      s.cfg.bitCap < (s.codeStream cs).length + e.len.toNat) :=
  ⟨by decide +kernel, ⟨State.withSymbols coded [0x61#8, 0x80#8], by decide +kernel, by decide +kernel, by decide +kernel, rfl, by decide +kernel⟩,
    ⟨State.withSymbols coded [0x64#8], absentEntry, by decide +kernel, by decide +kernel, by decide +kernel, rfl, by decide +kernel⟩,
    ⟨{ State.withSymbols coded (List.replicate 16 0x62#8 ++ [0x61#8]) with cfg := ⟨0, 20, 32, 4⟩ }, List.replicate 16 0x62#8,
      entryOfPath [false], by decide +kernel, by decide +kernel, by decide +kernel, rfl, by decide +kernel⟩⟩

theorem witness_EncodeIsEncBitsThenPack :
    (∃ (s : State) (cs : List Byte), s.codesValid = true ∧ Memory.readRange s.symIn 0 s.symInLen = .ok cs ∧ Encodable s cs ∧
      (s.codeStream cs).length ≤ s.cfg.bitCap ∧ (s.codeStream cs).length / 8 + 1 ≤ s.cfg.byteCap) ∧
    (∃ (s : State) (cs : List Byte), s.codesValid = true ∧ Memory.readRange s.symIn 0 s.symInLen = .ok cs ∧ Encodable s cs ∧
      (s.codeStream cs).length ≤ s.cfg.bitCap ∧ s.cfg.byteCap < (s.codeStream cs).length / 8 + 1 ∧ s.errCode = 0#8) :=
  ⟨⟨toEncode, [0x61#8, 0x61#8, 0x62#8, 0x63#8], by decide +kernel, rfl, by decide +kernel⟩,
    ⟨State.withSymbols coded (List.replicate 16 0x62#8), List.replicate 16 0x62#8, by decide +kernel, rfl, by decide +kernel⟩⟩

/-- "ca", then the first bit of a longer code. -/
theorem witness_DecBitsResult :
    ∃ (s : State) (out : List (Symbol × Bits)) (tail : Bits), Inv s ∧ s.treeValid = true ∧
      Memory.readRange s.bits 0 s.bitLen = .ok (out.flatMap Prod.snd ++ tail) ∧ (∀ x ∈ out, LeadsTo s x.2 x.1) ∧
      LeadsInside s tail ∧ out.length ≤ s.cfg.symCap ∧ tail ≠ [] :=
  ⟨State.withBits tree (digits [1,1,0,1]), [(99#7, digits [1,1]), (97#7, digits [0])], digits [1], inv_of_inputs inv_tree rfl (by decide +kernel),
    by decide +kernel, rfl, by decide +kernel⟩

theorem witness_DecBitsCompletesOnAnyBits :
    ∃ (s : State) (b : Bits), Inv s ∧ s.treeValid = true ∧ 2 ≤ s.ftN ∧ Memory.readRange s.bits 0 s.bitLen = .ok b ∧
      s.bitLen = s.cfg.symCap :=
  ⟨State.withBits tree (digits [0,0,0,0]), digits [0,0,0,0], inv_of_inputs inv_tree rfl (by decide +kernel), by decide +kernel, by decide +kernel, rfl,
    by decide +kernel⟩

theorem witness_DecBitsErrors :
    (running.treeValid = false ∧ running.errCode = 0#8) ∧
    (∃ (s : State) (rest : Bits), Inv s ∧ s.treeValid = true ∧ s.errCode = 0#8 ∧ s.ftN = 1 ∧ 4 ≤ s.cfg.symCap ∧
      Memory.readRange s.bits 0 s.bitLen = .ok (List.replicate 4 false ++ [true] ++ rest)) ∧
    (∃ (s : State) (out : List (Symbol × Bits)) (p rest : Bits) (c : Symbol), Inv s ∧ s.treeValid = true ∧ s.errCode = 0#8 ∧
      Memory.readRange s.bits 0 s.bitLen = .ok (out.flatMap Prod.snd ++ p ++ rest) ∧ (∀ x ∈ out, LeadsTo s x.2 x.1) ∧
      LeadsTo s p c ∧ out.length = s.cfg.symCap) :=
  ⟨by decide +kernel,
    ⟨State.withBits soleTree (digits [0,0,0,0,1]), [], inv_of_inputs inv_soleTree rfl (by decide +kernel), by decide +kernel, by decide +kernel,
      by decide +kernel, by decide +kernel, rfl⟩,
    ⟨State.withBits tree (digits [0,0,0,0,1,0]), List.replicate 4 (97#7, digits [0]), digits [1,0], [], 98#7,
      inv_of_inputs inv_tree rfl (by decide +kernel), by decide +kernel, by decide +kernel, rfl, by decide +kernel⟩⟩

theorem witness_DecodeIsUnpackThenDecBits :
    ∃ (s : State) (bs : List Byte) (out : List (Symbol × Bits)) (tail : Bits), Inv s ∧ s.treeValid = true ∧
      Memory.readRange s.bytes 0 s.byteLen = .ok bs ∧ packBits (out.flatMap Prod.snd ++ tail) = bs ∧
      (out.flatMap Prod.snd ++ tail).length ≤ s.cfg.bitCap ∧ (∀ x ∈ out, LeadsTo s x.2 x.1) ∧ LeadsInside s tail ∧
      out.length ≤ s.cfg.symCap :=
  ⟨State.withBytes tree [0x4B#8], [0x4B#8], [(97#7, digits [0]), (97#7, digits [0]), (98#7, digits [1,0]), (99#7, digits [1,1])], [],
    inv_of_inputs inv_tree rfl (by decide +kernel), by decide +kernel, rfl, by decide +kernel⟩

theorem witness_DecodeErrorOrder :
    (∃ s u : State, s.errCode = 0#8 ∧ exec .unpack s = .next u ∧ u.errCode ≠ 0#8) ∧
    (∃ s u v : State, s.errCode = 0#8 ∧ exec .unpack s = .next u ∧ u.errCode = 0#8 ∧ exec .decBits u = .next v ∧ v.errCode ≠ 0#8) :=
  ⟨⟨aabc, _, rfl, eq_next (by decide +kernel), by decide +kernel⟩,
    ⟨State.withBytes aabc [0x01#8], _, _, rfl, eq_next (by decide +kernel), by decide +kernel, eq_next (by decide +kernel), by decide +kernel⟩⟩

theorem witness_EncodeDecodeRoundTrip :
    (∃ (s : State) (text : List Symbol), Inv s ∧ s.errCode = 0#8 ∧ text ≠ [] ∧ s.symInLen = text.length ∧
      Memory.readRange s.symIn 0 s.symInLen = .ok (text.map fun c => c.setWidth 8) ∧
      (∀ c ∈ text, ∃ e ∈ s.table, e.sym = c) ∧ (∀ e ∈ s.table, e.weight.toNat = text.count e.sym)) :=
  ⟨State.withSymbols aabc [0x61#8, 0x61#8, 0x62#8, 0x63#8], [97#7, 97#7, 98#7, 99#7], inv_of_inputs inv_aabc rfl (by decide +kernel), by decide +kernel,
    by decide, by decide +kernel, rfl, by decide +kernel⟩

theorem witness_CommandFrames : ∃ (i : Instr) (s t : State), exec i s = .next t :=
  ⟨.decode, State.withBytes coded [0x4B#8], _, eq_next (by decide +kernel)⟩

theorem witness_ParametersNeverChange : ∃ s t : State, step s = .next t :=
  ⟨State.about coded .hwReset, _, eq_next (by decide +kernel)⟩

theorem witness_TreePersists :
    ∃ (s t : State) (a : HostAction) (rest : List HostAction), BuilderForm s ∧ s.treeValid = true ∧ s.pending = a :: rest ∧
      step s = .next t ∧ a ≠ .hwReset ∧
      (∀ i : Instr, i.WellFormed → a = cmdWrite s.cfg (encode i) →
        i ≠ .ftClear ∧ (∀ sym, i ≠ .ftAppend sym) ∧ i ≠ .tbInit ∧ i ≠ .tbBuild ∧ i ≠ .sreset) :=
  ⟨State.about tree (.write 0x10000 4 0x61616263#32), _, .write 0x10000 4 0x61616263#32, [], by decide +kernel, by decide +kernel, rfl,
    eq_next (by decide +kernel), by decide, fun i _ h => absurd (HostAction.write.inj h).1 (by decide +kernel)⟩

theorem witness_StepKeepsMemoryForm : ∃ s t : State, s.cfg.wf ∧ s.ftN ≤ 128 ∧ MemoryForm s ∧ step s = .next t :=
  ⟨issuing aabc 0x40000000#32, _, by decide +kernel, by decide +kernel, by decide +kernel, eq_next (by decide +kernel)⟩

theorem witness_ResetSatisfiesInv : Params.wf ⟨0x100000, 65536, 524288, 65536⟩ := by decide +kernel

theorem witness_StepKeepsInv : ∃ s t : State, Inv s ∧ step s = .next t ∧ s.tbState = .running :=
  ⟨issuing running 0x21000000#32, _, inv_of_inputs inv_running rfl (by decide +kernel), eq_next (by decide +kernel), by decide +kernel⟩

/-- An access during BUSY, and PACK over a bit never written. -/
theorem witness_OnlyHostMistakesFault :
    (∃ s : State, Inv s ∧ step s = .fault .busyAccess) ∧ (∃ s : State, Inv s ∧ step s = .fault (.unwrittenRead .bits 0)) :=
  ⟨⟨{ State.about tree (.read 0x010 4) with busy := true }, inv_of_inputs inv_tree rfl (by decide +kernel), eq_fault (by decide +kernel)⟩,
    ⟨{ issuing tree 0x40000000#32 with bitLen := 1 }, inv_of_inputs inv_tree rfl (by decide +kernel), eq_fault (by decide +kernel)⟩⟩

end Sys2Proof.Tests
end

section
/-! PROOFS. What a finished command and a bus write have done, and that no step touches the parameters (00_scope R7, 10_state R20, R41). -/

namespace Sys2Proof.Machine

/-! ## The BUSY protocol and bus writes -/

@[simp] theorem State.readStatus_cfg (s : State) : s.readStatus.cfg = s.cfg := by
  unfold State.readStatus; split_ifs <;> rfl

@[simp] theorem hostPoll_cfg (s : State) : (hostPoll s).cfg = s.cfg := by
  unfold hostPoll; split_ifs <;> simp

/-- A register write that lands changes ARG, or one of the three lengths within its capacity (20_memory R54). -/
theorem State.writeReg_eq_some {s t : State} {v : Word} {r : Reg} (h : s.writeReg v r = some t) :
    (r = .arg ∧ t = s.setArg v) ∨
    (r = .symInLen ∧ v.toNat ≤ s.cfg.symCap ∧ t = s.setSymInLen v.toNat) ∨
    (r = .bitLen ∧ v.toNat ≤ s.cfg.bitCap ∧ t = s.setBitLen v.toNat) ∨
    (r = .byteLen ∧ v.toNat ≤ s.cfg.byteCap ∧ t = s.setByteLen v.toNat) := by
  unfold State.writeReg at h
  split at h
  · exact .inl ⟨rfl, (Option.some.inj h).symm⟩
  · split_ifs at h with hv
    exact .inr (.inl ⟨rfl, hv, (Option.some.inj h).symm⟩)
  · split_ifs at h with hv
    exact .inr (.inr (.inl ⟨rfl, hv, (Option.some.inj h).symm⟩))
  · split_ifs at h with hv
    exact .inr (.inr (.inr ⟨rfl, hv, (Option.some.inj h).symm⟩))
  all_goals cases h

/-- A write that lands goes to a writable register or to the SYM_IN, BITS or BYTES window (20_memory R53, R58, R60, R61). -/
theorem State.writeLocation_eq_some {s t : State} {v : Word} {l : Location} (h : s.writeLocation v l = some t) :
    (∃ r, l = .reg r ∧ s.writeReg v r = some t) ∨
    (∃ k, l = .symIn k ∧ t = s.setSymIn (Memory.writeList s.symIn (4 * k) (lanes v))) ∨
    (∃ k, l = .bits k ∧ t = s.setBits (Memory.writeList s.bits (32 * k) (bitsOfWord v))) ∨
    (∃ k, l = .bytes k ∧ t = s.setBytes (Memory.writeList s.bytes (4 * k) (lanes v))) := by
  cases l with
  | reg r => exact .inl ⟨r, rfl, h⟩
  | symIn k => exact .inr (.inl ⟨k, rfl, (Option.some.inj h).symm⟩)
  | bits k => exact .inr (.inr (.inl ⟨k, rfl, (Option.some.inj h).symm⟩))
  | bytes k => exact .inr (.inr (.inr ⟨k, rfl, (Option.some.inj h).symm⟩))
  | ftWord | nodeWord | codeWord | symOut => cases h

theorem State.writeReg_cfg {s t : State} {v : Word} {r : Reg} (h : s.writeReg v r = some t) : t.cfg = s.cfg := by
  obtain ⟨-, rfl⟩ | ⟨-, -, rfl⟩ | ⟨-, -, rfl⟩ | ⟨-, -, rfl⟩ := State.writeReg_eq_some h <;> rfl

theorem State.writeLocation_cfg {s t : State} {v : Word} {l : Location} (h : s.writeLocation v l = some t) :
    t.cfg = s.cfg := by
  obtain ⟨r, -, hr⟩ | ⟨k, -, rfl⟩ | ⟨k, -, rfl⟩ | ⟨k, -, rfl⟩ := State.writeLocation_eq_some h
  · exact State.writeReg_cfg hr
  all_goals simp

/-! ## What a finished body has done -/

/-- FT_APPEND finishes only when every check of 41_freq_table R112 passes, and then appends the entry. -/
theorem appendChecked_eq_done {s t : State} {e : FtEntry} {table : List FtEntry} :
    appendChecked s e table = .done t ↔
      indexOfSymbol e.sym table = none ∧ (table.getLast?.any fun l => decide (e.weight < l.weight)) = false ∧
      totalWeight table + e.weight.toNat ≤ 0xFFFFFFFF ∧ t = s.appendEntry e := by
  unfold appendChecked
  cases indexOfSymbol e.sym table with
  | some i => simp
  | none => split_ifs <;> simp_all [eq_comm (a := t)]

theorem ftAppendBody_eq_done {s t : State} {sym : Nat} :
    ftAppendBody sym s = .done t ↔
      s.ftN ≠ 128 ∧ s.arg ≠ 0#32 ∧ ∃ table, fetchTable s = .done table ∧
        appendChecked s ⟨symOperand sym, s.arg⟩ table = .done t := by
  unfold ftAppendBody
  split_ifs <;> simp_all [Ending.bind_eq_done]

/-- TB_INIT finishes only on a non-empty table (42_tree_builder R122). -/
theorem tbInitBody_eq_done {s t : State} :
    tbInitBody s = .done t ↔ ∃ first rest, fetchTable s = .done (first :: rest) ∧ t = s.startBuild first rest := by
  unfold tbInitBody
  rw [Ending.bind_eq_done]
  constructor
  · rintro ⟨_ | ⟨first, rest⟩, hf, ht⟩
    · simp at ht
    · exact ⟨first, rest, hf, (Ending.done.inj ht).symm⟩
  · rintro ⟨first, rest, hf, rfl⟩
    exact ⟨_, hf, rfl⟩

/-- extract() takes the front of one queue and moves that queue's head past it (42_tree_builder R121). -/
theorem extract_eq_done {s u : State} {x : Nat} (h : extract s = .done (x, u)) :
    (x = s.srcHead ∧ u = s.moveHeads (s.srcHead + 1) s.tgtHead) ∨
    (x = s.tgtHead ∧ u = s.moveHeads s.srcHead (s.tgtHead + 1)) := by
  obtain ⟨fromSource, -, hx⟩ := Ending.bind_eq_done.mp h
  cases fromSource
  · cases hx; exact .inr ⟨rfl, rfl⟩
  · cases hx; exact .inl ⟨rfl, rfl⟩

/-- A finished extract() leaves a state that differs from the old one in the heads alone. -/
theorem extract_moves_heads {s u : State} {x : Nat} (h : extract s = .done (x, u)) :
    ∃ src tgt, u = s.moveHeads src tgt := by
  obtain ⟨-, rfl⟩ | ⟨-, rfl⟩ := extract_eq_done h <;> exact ⟨_, _, rfl⟩

theorem State.addMerged_eq_done {s t : State} {nd : Node} :
    s.addMerged nd = .done t ↔ s.nodeN ≤ 254 ∧ t = (s.enqueue nd).finishIfLast := by
  unfold State.addMerged
  split_ifs <;> simp_all [eq_comm (a := t)]

/-- A finished merge has moved the heads, appended the parent of two written nodes and made the finish test (42_tree_builder R123). -/
theorem mergeOnce_eq_done {s t : State} (h : mergeOnce s = .done t) :
    ∃ a b src tgt na nb, Memory.read s.nodes a = some na ∧ Memory.read s.nodes b = some nb ∧ s.nodeN ≤ 254 ∧
      t = ((s.moveHeads src tgt).enqueue (mergedNode a b na.weight nb.weight)).finishIfLast := by
  simp only [mergeOnce, Ending.bind_eq_done, fetch_eq_done, State.addMerged_eq_done, Prod.exists] at h
  obtain ⟨a, u, hu, b, w, hw, na, hna, nb, hnb, hn, rfl⟩ := h
  obtain ⟨src, tgt, rfl⟩ := extract_moves_heads hu
  obtain ⟨src', tgt', rfl⟩ := extract_moves_heads hw
  exact ⟨a, b, src', tgt', na, nb, hna, hnb, hn, rfl⟩

theorem tbStepBody_eq_done {s t : State} : tbStepBody s = .done t ↔ s.tbState = .running ∧ mergeOnce s = .done t := by
  unfold tbStepBody
  split_ifs <;> simp_all

/-- TB_BUILD's loop keeps what every merge keeps (42_tree_builder R124). -/
theorem buildLoop_induction {P : State → Prop} (hstep : ∀ u v, P u → tbStepBody u = .done v → P v) {k : Nat} {s t : State}
    (hs : P s) (h : buildLoop k s = .done t) : P t := by
  induction k generalizing s with
  | zero =>
    unfold buildLoop at h
    split_ifs at h
    exact Ending.done.inj h ▸ hs
  | succ k ih =>
    unfold buildLoop at h
    split_ifs at h
    · obtain ⟨u, hu, hloop⟩ := Ending.bind_eq_done.mp h
      exact ih (hstep s u hs hu) hloop
    · exact Ending.done.inj h ▸ hs

theorem ctGenBody_eq_done {s t : State} :
    ctGenBody s = .done t ↔
      s.treeValid = true ∧ ∃ leaves, leafPaths s.nodes s.root = .done leaves ∧ t = s.putCodes (codeTableOf leaves) := by
  unfold ctGenBody
  split_ifs <;> simp_all [Ending.bind_eq_done, eq_comm (a := t)]

theorem packBody_eq_done {s t : State} :
    packBody s = .done t ↔
      packedLength s.bitLen ≤ s.cfg.byteCap ∧ ∃ b, fetchRange .bits s.bits s.bitLen = .done b ∧ t = s.putBytes (packBits b) := by
  unfold packBody
  split_ifs <;> simp_all [Ending.bind_eq_done, eq_comm (a := t)]

theorem unpackBody_eq_done {s t : State} : unpackBody s = .done t ↔ ∃ b, unpackedBits s = .done b ∧ t = s.putBits b := by
  simp [unpackBody, Ending.bind_eq_done, eq_comm (a := t)]

theorem encBitsBody_eq_done {s t : State} :
    encBitsBody s = .done t ↔ s.codesValid = true ∧ ∃ b, encodeBits s = .done b ∧ t = s.putBits b := by
  unfold encBitsBody
  split_ifs <;> simp_all [Ending.bind_eq_done, eq_comm (a := t)]

theorem encodeBody_eq_done {s t : State} :
    encodeBody s = .done t ↔
      s.codesValid = true ∧ ∃ b, encodeBits s = .done b ∧ packedLength b.length ≤ s.cfg.byteCap ∧
        t = (s.putBits b).putBytes (packBits b) := by
  unfold encodeBody
  split_ifs with hcodes
  · rw [Ending.bind_eq_done]
    constructor
    · rintro ⟨b, hb, ht⟩
      split_ifs at ht with hcap
      exact ⟨hcodes, b, hb, by omega, (Ending.done.inj ht).symm⟩
    · rintro ⟨-, b, hb, hcap, rfl⟩
      exact ⟨b, hb, if_neg (by omega)⟩
  · simp_all

theorem decBitsBody_eq_done {s t : State} :
    decBitsBody s = .done t ↔ s.treeValid = true ∧ ∃ out p, walkBits s = .done (out, p) ∧ t = s.putSymbols out p := by
  unfold decBitsBody
  split_ifs <;> simp_all [Ending.bind_eq_done, eq_comm (a := t)]

/-- DECODE finishes only when its unpack half and its walk over the unpacked bits both do (45_encode_decode R175). -/
theorem decodeBody_eq_done {s t : State} :
    decodeBody s = .done t ↔
      s.treeValid = true ∧ ∃ b, unpackedBits s = .done b ∧ ∃ out p, walkBits (s.putBits b) = .done (out, p) ∧
        t = (s.putBits b).putSymbols out p := by
  unfold decodeBody
  split_ifs <;> simp_all [Ending.bind_eq_done, eq_comm (a := t)]

/-! ## The parameters through a command -/

@[simp] theorem State.startBuild_cfg (s : State) (first : FtEntry) (rest : List FtEntry) :
    (s.startBuild first rest).cfg = s.cfg := by
  unfold State.startBuild; split_ifs <;> rfl

@[simp] theorem State.finishIfLast_cfg (s : State) : s.finishIfLast.cfg = s.cfg := by
  unfold State.finishIfLast; split_ifs <;> rfl

theorem tbStepBody_cfg {s t : State} (h : tbStepBody s = .done t) : t.cfg = s.cfg := by
  obtain ⟨a, b, src, tgt, na, nb, -, -, -, rfl⟩ := mergeOnce_eq_done (tbStepBody_eq_done.mp h).2
  simp

theorem tbBuildBody_cfg {s t : State} (h : tbBuildBody s = .done t) : t.cfg = s.cfg := by
  obtain ⟨u, hinit, hloop⟩ := Ending.bind_eq_done.mp h
  obtain ⟨first, rest, -, rfl⟩ := tbInitBody_eq_done.mp hinit
  exact buildLoop_induction (P := fun v => v.cfg = s.cfg) (fun v w hv hw => (tbStepBody_cfg hw).trans hv)
    (State.startBuild_cfg s first rest) hloop

/-- A command keeps the parameters when its body does: an error writes three other registers (60_exceptions R202). -/
theorem settle_cfg {op : BitVec 8} {s t : State} {e : Ending State} (h : settle op s e = .next t)
    (hbody : e = .done t → t.cfg = s.cfg) : t.cfg = s.cfg := by
  obtain hdone | ⟨c, w, -, rfl⟩ := settle_eq_next.mp h
  · exact hbody hdone
  · simp

theorem exec_cfg {s t : State} {i : Instr} (h : exec i s = .next t) : t.cfg = s.cfg := by
  cases i with
  | nop | sreset | clrerr | ftClear => cases h; rfl
  | ftAppend sym =>
    refine settle_cfg h fun hb => ?_
    obtain ⟨-, -, table, -, ht⟩ := ftAppendBody_eq_done.mp hb
    obtain ⟨-, -, -, rfl⟩ := appendChecked_eq_done.mp ht
    simp
  | tbInit =>
    exact settle_cfg h fun hb => by obtain ⟨first, rest, -, rfl⟩ := tbInitBody_eq_done.mp hb; simp
  | tbStep => exact settle_cfg h tbStepBody_cfg
  | tbBuild => exact settle_cfg h tbBuildBody_cfg
  | ctGen =>
    exact settle_cfg h fun hb => by obtain ⟨-, leaves, -, rfl⟩ := ctGenBody_eq_done.mp hb; simp
  | pack =>
    exact settle_cfg h fun hb => by obtain ⟨-, b, -, rfl⟩ := packBody_eq_done.mp hb; simp
  | unpack =>
    exact settle_cfg h fun hb => by obtain ⟨b, -, rfl⟩ := unpackBody_eq_done.mp hb; simp
  | encBits =>
    exact settle_cfg h fun hb => by obtain ⟨-, b, -, rfl⟩ := encBitsBody_eq_done.mp hb; simp
  | decBits =>
    exact settle_cfg h fun hb => by obtain ⟨-, out, p, -, rfl⟩ := decBitsBody_eq_done.mp hb; simp
  | encode =>
    exact settle_cfg h fun hb => by obtain ⟨-, b, -, -, rfl⟩ := encodeBody_eq_done.mp hb; simp
  | decode =>
    exact settle_cfg h fun hb => by obtain ⟨-, b, -, out, p, -, rfl⟩ := decodeBody_eq_done.mp hb; simp

theorem issue_cfg {w : Word} {s t : State} (h : issue w s = .next t) : t.cfg = s.cfg := by
  obtain ⟨-, hi⟩ | ⟨-, -, hi⟩ | ⟨-, i, -, hi⟩ := issue_cases w s <;> rw [hi] at h
  · cases h; rfl
  · cases h; simp
  · exact (exec_cfg h).trans s.beginCommand_cfg

/-- Settles O52, by the kinds of step: only a command could do more than write registers and buffers, and no command's finished body touches the parameters. -/
theorem parametersNeverChange : Obligations.ParametersNeverChange := by
  intro s t h
  obtain ⟨-, rfl⟩ | ⟨a, rest, -, hact⟩ := step_cases h
  · rfl
  obtain ⟨-, rfl⟩ | ⟨-, rfl⟩ | ⟨-, -, rfl⟩ | ⟨-, w, -, hissue⟩ | ⟨-, _, v, _, l, u, -, -, -, -, hwrite, rfl⟩ | ⟨-, r, rfl⟩ := hact
  · rfl
  · simp
  · simp
  · simpa using issue_cfg hissue
  · simpa using State.writeLocation_cfg hwrite
  · rfl

end Sys2Proof.Machine
end

section
/-! PROOFS. What a command that goes on has done, and what each command leaves unchanged (10_state R22 to R47, 60_exceptions R200). -/

namespace Sys2Proof.Machine

/-! ## The outcome of a command -/

/-- The state t a command leaves when it finishes from s, with the checks it has passed (30_encoding R84). -/
inductive Finished (s : State) : Instr → State → Prop
  | nop : Finished s .nop s
  | sreset : Finished s .sreset s.resetRegisters
  | clrerr : Finished s .clrerr s.clearError
  | ftClear : Finished s .ftClear s.clearTable
  | ftAppend {sym : Nat} {table : List FtEntry} (hroom : s.ftN ≠ 128) (hweight : s.arg ≠ 0#32)
      (htable : fetchTable s = .done table) (hnew : indexOfSymbol (symOperand sym) table = none)
      (hlast : (table.getLast?.any fun l => decide (s.arg < l.weight)) = false)
      (htotal : totalWeight table + s.arg.toNat ≤ 0xFFFFFFFF) :
      Finished s (.ftAppend sym) (s.appendEntry ⟨symOperand sym, s.arg⟩)
  | tbInit {first : FtEntry} {rest : List FtEntry} (htable : fetchTable s = .done (first :: rest)) :
      Finished s .tbInit (s.startBuild first rest)
  | tbStep {t : State} (hbody : tbStepBody s = .done t) : Finished s .tbStep t
  | tbBuild {first : FtEntry} {rest : List FtEntry} {t : State} (htable : fetchTable s = .done (first :: rest))
      (hloop : buildLoop s.ftN (s.startBuild first rest) = .done t) : Finished s .tbBuild t
  | ctGen {leaves : List (Symbol × Bits)} (htree : s.treeValid = true) (hleaves : leafPaths s.nodes s.root = .done leaves) :
      Finished s .ctGen (s.putCodes (codeTableOf leaves))
  | pack {b : Bits} (hcap : packedLength b.length ≤ s.cfg.byteCap) (hbits : fetchRange .bits s.bits s.bitLen = .done b) :
      Finished s .pack (s.putBytes (packBits b))
  | unpack {b : Bits} (hbits : unpackedBits s = .done b) : Finished s .unpack (s.putBits b)
  | encBits {b : Bits} (hcodes : s.codesValid = true) (hbits : encodeBits s = .done b) : Finished s .encBits (s.putBits b)
  | decBits {out : List Byte} {p : Bool} (htree : s.treeValid = true) (hwalk : walkBits s = .done (out, p)) :
      Finished s .decBits (s.putSymbols out p)
  | encode {b : Bits} (hcodes : s.codesValid = true) (hbits : encodeBits s = .done b)
      (hcap : packedLength b.length ≤ s.cfg.byteCap) : Finished s .encode ((s.putBits b).putBytes (packBits b))
  | decode {b : Bits} {out : List Byte} {p : Bool} (htree : s.treeValid = true) (hbits : unpackedBits s = .done b)
      (hwalk : walkBits (s.putBits b) = .done (out, p)) : Finished s .decode ((s.putBits b).putSymbols out p)

/-- A command with a body ends as the body does: it has finished, or it has only recorded an error (60_exceptions R200, R204). -/
theorem settle_cases {i : Instr} {s t : State} {e : Ending State} (h : settle i.opcode s e = .next t) (hop : i.opcode ≠ 0#8)
    (hdone : e = .done t → Finished s i t) : Finished s i t ∨ ∃ c w, i.opcode ≠ 0#8 ∧ t = s.raiseError c i.opcode w := by
  obtain he | ⟨c, w, -, rfl⟩ := settle_eq_next.mp h
  · exact .inl (hdone he)
  · exact .inr ⟨c, w, hop, rfl⟩

/-- A command that goes on has finished, or has only recorded an error; NOP, whose opcode is 0, raises none. -/
theorem exec_cases {i : Instr} {s t : State} (h : exec i s = .next t) :
    Finished s i t ∨ ∃ c w, i.opcode ≠ 0#8 ∧ t = s.raiseError c i.opcode w := by
  cases i with
  | nop => cases h; exact .inl .nop
  | sreset => cases h; exact .inl .sreset
  | clrerr => cases h; exact .inl .clrerr
  | ftClear => cases h; exact .inl .ftClear
  | ftAppend sym =>
    refine settle_cases h (by simp [Instr.opcode]) fun hb => ?_
    obtain ⟨hroom, hweight, table, htable, ht⟩ := ftAppendBody_eq_done.mp hb
    obtain ⟨hnew, hlast, htotal, rfl⟩ := appendChecked_eq_done.mp ht
    exact .ftAppend hroom hweight htable hnew hlast htotal
  | tbInit =>
    refine settle_cases h (by decide) fun hb => ?_
    obtain ⟨first, rest, htable, rfl⟩ := tbInitBody_eq_done.mp hb
    exact .tbInit htable
  | tbStep => exact settle_cases h (by decide) .tbStep
  | tbBuild =>
    refine settle_cases h (by decide) fun hb => ?_
    obtain ⟨u, hinit, hloop⟩ := Ending.bind_eq_done.mp hb
    obtain ⟨first, rest, htable, rfl⟩ := tbInitBody_eq_done.mp hinit
    exact .tbBuild htable hloop
  | ctGen =>
    refine settle_cases h (by decide) fun hb => ?_
    obtain ⟨htree, leaves, hleaves, rfl⟩ := ctGenBody_eq_done.mp hb
    exact .ctGen htree hleaves
  | pack =>
    refine settle_cases h (by decide) fun hb => ?_
    obtain ⟨hcap, b, hbits, rfl⟩ := packBody_eq_done.mp hb
    exact .pack (by rwa [Memory.readRange_length (fetchRange_eq_done.mp hbits)]) hbits
  | unpack =>
    refine settle_cases h (by decide) fun hb => ?_
    obtain ⟨b, hbits, rfl⟩ := unpackBody_eq_done.mp hb
    exact .unpack hbits
  | encBits =>
    refine settle_cases h (by decide) fun hb => ?_
    obtain ⟨hcodes, b, hbits, rfl⟩ := encBitsBody_eq_done.mp hb
    exact .encBits hcodes hbits
  | decBits =>
    refine settle_cases h (by decide) fun hb => ?_
    obtain ⟨htree, out, p, hwalk, rfl⟩ := decBitsBody_eq_done.mp hb
    exact .decBits htree hwalk
  | encode =>
    refine settle_cases h (by decide) fun hb => ?_
    obtain ⟨hcodes, b, hbits, hcap, rfl⟩ := encodeBody_eq_done.mp hb
    exact .encode hcodes hbits hcap
  | decode =>
    refine settle_cases h (by decide) fun hb => ?_
    obtain ⟨htree, b, hbits, out, p, hwalk, rfl⟩ := decodeBody_eq_done.mp hb
    exact .decode htree hbits hwalk

/-- An error record changes the three error registers and nothing else (60_exceptions R202). -/
theorem State.raiseError_eq_update (s : State) (c : ErrCode) (op : BitVec 8) (w : Word) :
    s.raiseError c op w = { s with
      errCode := (s.raiseError c op w).errCode, errOp := (s.raiseError c op w).errOp, errInfo := (s.raiseError c op w).errInfo } := by
  unfold State.raiseError; split <;> rfl

/-! ## The builder's frame -/

/-- t differs from s at most in node memory and in the registers a merge writes (42_tree_builder R123). -/
def BuilderOnly (s t : State) : Prop :=
  ∃ nodes nodeN src tgt root st tv, t = { s with
    nodes := nodes, nodeN := nodeN, srcHead := src, tgtHead := tgt, root := root, tbState := st, treeValid := tv }

theorem BuilderOnly.refl (s : State) : BuilderOnly s s := ⟨_, _, _, _, _, _, _, rfl⟩

theorem BuilderOnly.trans {s t u : State} (hst : BuilderOnly s t) (htu : BuilderOnly t u) : BuilderOnly s u := by
  obtain ⟨_, _, _, _, _, _, _, rfl⟩ := hst
  obtain ⟨_, _, _, _, _, _, _, rfl⟩ := htu
  exact ⟨_, _, _, _, _, _, _, rfl⟩

theorem BuilderOnly.finishIfLast (s : State) : BuilderOnly s s.finishIfLast := by
  unfold State.finishIfLast
  split_ifs
  · exact ⟨_, _, _, _, _, _, _, rfl⟩
  · exact .refl s

/-- One merge (42_tree_builder R123). -/
theorem builderOnly_of_tbStepBody {s t : State} (h : tbStepBody s = .done t) : BuilderOnly s t := by
  obtain ⟨a, b, src, tgt, na, nb, -, -, -, rfl⟩ := mergeOnce_eq_done (tbStepBody_eq_done.mp h).2
  exact .trans ⟨_, _, _, _, _, _, _, rfl⟩ (.finishIfLast _)

/-- TB_BUILD's loop (42_tree_builder R124). -/
theorem builderOnly_of_buildLoop {k : Nat} {s t : State} (h : buildLoop k s = .done t) : BuilderOnly s t :=
  buildLoop_induction (P := BuilderOnly s) (fun _ _ hu hv => hu.trans (builderOnly_of_tbStepBody hv)) (.refl s) h

/-- TB_INIT (42_tree_builder R122) also clears CODES_VALID. -/
theorem builderOnly_startBuild (s : State) (first : FtEntry) (rest : List FtEntry) :
    BuilderOnly { s with codesValid := false } (s.startBuild first rest) := by
  unfold State.startBuild
  split_ifs <;> exact ⟨_, _, _, _, _, _, _, rfl⟩

/-! ## The frames -/

/-- Settles O51, by what each command has done when it goes on: an error record touches three registers, a build is framed by BuilderOnly, and every other command is one named update. -/
theorem commandFrames : Obligations.CommandFrames := by
  intro i s t h
  obtain hf | ⟨c, w, -, rfl⟩ := exec_cases h
  · cases hf with
    | nop => simp
    | sreset => simp
    | clrerr => simp
    | ftClear => simp
    | ftAppend => simpa using fun a ha => Memory.read_write_other s.ft _ ha
    | tbInit =>
      obtain ⟨_, _, _, _, _, _, _, ht⟩ := builderOnly_startBuild s _ _
      rw [ht]; simp
    | tbStep hbody =>
      obtain ⟨_, _, _, _, _, _, _, rfl⟩ := builderOnly_of_tbStepBody hbody
      simp
    | tbBuild _ hloop =>
      obtain ⟨_, _, _, _, _, _, _, rfl⟩ := (builderOnly_startBuild s _ _).trans (builderOnly_of_buildLoop hloop)
      simp
    | ctGen => simp
    | pack => simpa using fun a ha => Memory.read_writeList_outside s.bytes (.inr (by simpa using ha))
    | unpack | encBits => simpa using fun a ha => Memory.read_writeList_outside s.bits (.inr (by simpa using ha))
    | decBits => simpa using fun a ha => Memory.read_writeList_outside s.symOut (.inr (by simpa using ha))
    | encode =>
      simpa using ⟨fun a ha => Memory.read_writeList_outside s.bits (.inr (by simpa using ha)),
        fun a ha => Memory.read_writeList_outside s.bytes (.inr (by simpa using ha))⟩
    | decode =>
      simpa using ⟨fun a ha => Memory.read_writeList_outside s.symOut (.inr (by simpa using ha)),
        fun a ha => Memory.read_writeList_outside s.bits (.inr (by simpa using ha))⟩
  · simpa using fun _ _ => .inr (State.raiseError_eq_update s c _ w)

end Sys2Proof.Machine
end

section
/-! PROOFS. Every step keeps each memory in canonical form and within its size (10_state R42 to R47). -/

namespace Sys2Proof.Machine

/-! ## Memories written by the block and by the host -/

section Form

variable {α : Type} {n : Nat} {m : Memory α}

theorem Memory.form_nil : Memory.wf ([] : Memory α) ∧ Memory.below n ([] : Memory α) := ⟨.nil, by simp [Memory.below]⟩

theorem Memory.form_write (h : Memory.wf m ∧ Memory.below n m) {a : Nat} (ha : a < n) (v : α) :
    Memory.wf (Memory.write m a v) ∧ Memory.below n (Memory.write m a v) :=
  ⟨Memory.wf_write h.1 a v, Memory.below_write h.2 ha v⟩

theorem Memory.form_writeList (h : Memory.wf m ∧ Memory.below n m) {a : Nat} {vs : List α} (ha : a + vs.length ≤ n) :
    Memory.wf (Memory.writeList m a vs) ∧ Memory.below n (Memory.writeList m a vs) :=
  ⟨Memory.wf_writeList h.1 a vs, Memory.below_writeList h.2 ha⟩

theorem Memory.form_tabulate (n : Nat) (f : Nat → α) : Memory.wf (Memory.tabulate n f) ∧ Memory.below n (Memory.tabulate n f) :=
  ⟨Memory.wf_tabulate n f, Memory.below_tabulate n f⟩

end Form

/-! ## Buffers -/

theorem MemoryForm.setSymIn {s : State} (h : MemoryForm s) {m : Memory Byte}
    (hm : Memory.wf m ∧ Memory.below s.cfg.symCap m) : MemoryForm (s.setSymIn m) := by
  obtain ⟨hft, hnodes, hcodes, -, hrest⟩ := h
  exact ⟨hft, hnodes, hcodes, hm, hrest⟩

theorem MemoryForm.setBits {s : State} (h : MemoryForm s) {m : Memory Bool}
    (hm : Memory.wf m ∧ Memory.below s.cfg.bitCap m) : MemoryForm (s.setBits m) := by
  obtain ⟨hft, hnodes, hcodes, hsymIn, hsymOut, -, hbytes⟩ := h
  exact ⟨hft, hnodes, hcodes, hsymIn, hsymOut, hm, hbytes⟩

theorem MemoryForm.setBytes {s : State} (h : MemoryForm s) {m : Memory Byte}
    (hm : Memory.wf m ∧ Memory.below s.cfg.byteCap m) : MemoryForm (s.setBytes m) := by
  obtain ⟨hft, hnodes, hcodes, hsymIn, hsymOut, hbits, -⟩ := h
  exact ⟨hft, hnodes, hcodes, hsymIn, hsymOut, hbits, hm⟩

theorem MemoryForm.putBits {s : State} (h : MemoryForm s) {b : Bits} (hb : b.length ≤ s.cfg.bitCap) : MemoryForm (s.putBits b) :=
  have ⟨_, _, _, _, _, hbits, _⟩ := h
  h.setBits (Memory.form_writeList hbits (by omega))

theorem MemoryForm.putBytes {s : State} (h : MemoryForm s) {bs : List Byte} (hbs : bs.length ≤ s.cfg.byteCap) :
    MemoryForm (s.putBytes bs) :=
  have ⟨_, _, _, _, _, _, hbytes⟩ := h
  h.setBytes (Memory.form_writeList hbytes (by omega))

theorem MemoryForm.putSymbols {s : State} (h : MemoryForm s) {out : List Byte} (hout : out.length ≤ s.cfg.symCap) (p : Bool) :
    MemoryForm (s.putSymbols out p) := by
  obtain ⟨hft, hnodes, hcodes, hsymIn, hsymOut, hrest⟩ := h
  exact ⟨hft, hnodes, hcodes, hsymIn, Memory.form_writeList hsymOut (by omega), hrest⟩

/-! ## The limits the commands check -/

/-- Pack makes floor(L/8) + 1 bytes (44_bitstream R150). -/
theorem packBits_length (b : Bits) : (packBits b).length = packedLength b.length := by
  refine groupBytes_length ?_
  have := padded_length b.length
  simp only [List.length_append, List.length_replicate, List.length_singleton]
  omega

theorem encodeBits_fits {s : State} {b : Bits} (h : encodeBits s = .done b) : b.length ≤ s.cfg.bitCap :=
  encodeFrom_fits h (Nat.zero_le _)

theorem walkBits_fits {s : State} {out : List Byte} {p : Bool} (h : walkBits s = .done (out, p)) : out.length ≤ s.cfg.symCap :=
  walkFrom_fits h (Nat.zero_le _)

/-! ## The code table and node memory -/

/-- CT_GEN's table lists the 128 symbols and nothing above them (43_code_table R140). -/
theorem codeTableOf_form (leaves : List (Symbol × Bits)) :
    Memory.wf (codeTableOf leaves) ∧ Memory.below 128 (codeTableOf leaves) := by
  refine List.foldlRecOn (motive := fun ct => Memory.wf ct ∧ Memory.below 128 ct) leaves _
    (Memory.form_tabulate 128 _) fun ct hct leaf _ => ?_
  exact Memory.form_write hct leaf.1.isLt _

@[simp] theorem State.finishIfLast_nodes (s : State) : s.finishIfLast.nodes = s.nodes := by
  unfold State.finishIfLast; split_ifs <;> rfl

theorem startBuild_nodes_form (s : State) (first : FtEntry) (rest : List FtEntry) :
    Memory.wf (s.startBuild first rest).nodes ∧ Memory.below 255 (s.startBuild first rest).nodes := by
  have hinit : Memory.wf (initialNodes (first :: rest)) ∧ Memory.below 255 (initialNodes (first :: rest)) :=
    Memory.form_tabulate 255 _
  unfold State.startBuild
  split_ifs
  · exact Memory.form_write hinit (a := 1) (by decide) _
  · exact hinit

/-- A merge writes one slot below 255 (42_tree_builder R123). -/
theorem tbStepBody_nodes_form {s t : State} (h : Memory.wf s.nodes ∧ Memory.below 255 s.nodes) (hb : tbStepBody s = .done t) :
    Memory.wf t.nodes ∧ Memory.below 255 t.nodes := by
  obtain ⟨a, b, src, tgt, na, nb, -, -, hn, rfl⟩ := mergeOnce_eq_done (tbStepBody_eq_done.mp hb).2
  rw [State.finishIfLast_nodes]
  exact Memory.form_write h (a := s.nodeN) (by omega) _

theorem MemoryForm.of_builderOnly {s t : State} (h : MemoryForm s) (hb : BuilderOnly s t)
    (hn : Memory.wf t.nodes ∧ Memory.below 255 t.nodes) : MemoryForm t := by
  obtain ⟨hft, -, hrest⟩ := h
  obtain ⟨_, _, _, _, _, _, _, rfl⟩ := hb
  exact ⟨hft, hn, hrest⟩

/-! ## Commands -/

theorem Finished.keeps_memoryForm {i : Instr} {s t : State} (hf : Finished s i t) (hn : s.ftN ≤ 128) (h : MemoryForm s) :
    t.ftN ≤ 128 ∧ MemoryForm t := by
  have ⟨hft, hnodes, _, hbuffers⟩ := h
  cases hf with
  | nop | sreset | clrerr | ftClear => exact ⟨by simp [hn], h⟩
  | ftAppend hroom => exact ⟨by simp; omega, Memory.form_write hft (by omega) _, h.2⟩
  | @tbInit first rest =>
    have hb := builderOnly_startBuild s first rest
    have hm : MemoryForm { s with codesValid := false } := h
    exact ⟨by obtain ⟨_, _, _, _, _, _, _, ht⟩ := hb; rw [ht]; exact hn, hm.of_builderOnly hb (startBuild_nodes_form s _ _)⟩
  | tbStep hbody =>
    have hb := builderOnly_of_tbStepBody hbody
    exact ⟨by obtain ⟨_, _, _, _, _, _, _, rfl⟩ := hb; exact hn, h.of_builderOnly hb (tbStepBody_nodes_form hnodes hbody)⟩
  | tbBuild _ hloop =>
    have hb := (builderOnly_startBuild s _ _).trans (builderOnly_of_buildLoop hloop)
    have hm : MemoryForm { s with codesValid := false } := h
    refine ⟨by obtain ⟨_, _, _, _, _, _, _, rfl⟩ := hb; exact hn, hm.of_builderOnly hb ?_⟩
    exact buildLoop_induction (P := fun u => Memory.wf u.nodes ∧ Memory.below 255 u.nodes)
      (fun _ _ hu => tbStepBody_nodes_form hu) (startBuild_nodes_form s _ _) hloop
  | ctGen => exact ⟨hn, hft, hnodes, codeTableOf_form _, hbuffers⟩
  | pack hcap => exact ⟨hn, h.putBytes (by rwa [packBits_length])⟩
  | unpack hb => exact ⟨hn, h.putBits (unpackedBits_fits hb)⟩
  | encBits _ hb => exact ⟨hn, h.putBits (encodeBits_fits hb)⟩
  | decBits _ hw => exact ⟨hn, h.putSymbols (walkBits_fits hw) _⟩
  | encode _ hb hcap => exact ⟨hn, (h.putBits (encodeBits_fits hb)).putBytes (by rwa [packBits_length])⟩
  | decode _ hb hw => exact ⟨hn, (h.putBits (unpackedBits_fits hb)).putSymbols (walkBits_fits hw) _⟩

theorem State.raiseError_memoryForm {s : State} (h : MemoryForm s) (c : ErrCode) (op : BitVec 8) (w : Word) :
    MemoryForm (s.raiseError c op w) := by simpa [MemoryForm] using h

theorem exec_keeps_memoryForm {i : Instr} {s t : State} (hx : exec i s = .next t) (hn : s.ftN ≤ 128) (h : MemoryForm s) :
    t.ftN ≤ 128 ∧ MemoryForm t := by
  obtain hf | ⟨c, w, -, rfl⟩ := exec_cases hx
  · exact hf.keeps_memoryForm hn h
  · exact ⟨by simpa using hn, State.raiseError_memoryForm h c _ w⟩

/-! ## Bus writes -/

/-- The elements a mapped word of a window stands for lie within the window's memory (20_memory R53). -/
def Location.Fits (p : Params) : Location → Prop
  | .symIn k | .symOut k => 4 * k + 4 ≤ p.symCap
  | .bits k => 32 * k + 32 ≤ p.bitCap
  | .bytes k => 4 * k + 4 ≤ p.byteCap
  | .reg _ | .ftWord _ _ | .nodeWord _ _ | .codeWord _ _ => True

/-- The map names whole words: each capacity is a multiple of a word's elements (00_scope R7). -/
theorem locate_fits {p : Params} (hp : p.wf) (a : Nat) : ∀ l ∈ locate p a, l.Fits p := by
  obtain ⟨-, ⟨hsym, -⟩, ⟨hbit, -⟩, ⟨hbyte, -⟩⟩ := hp
  unfold locate
  repeat' refine iteInduction (motive := fun o : Option Location => ∀ l ∈ o, l.Fits p) (fun _ => ?_) (fun _ => ?_)
  case refine_1 =>
    intro l hl
    obtain ⟨r, -, rfl⟩ := Option.map_eq_some_iff.mp hl
    trivial
  all_goals rintro _ ⟨⟩
  all_goals simp only [Location.Fits]
  all_goals omega

@[simp] theorem lanes_length (v : Word) : (lanes v).length = 4 := rfl

@[simp] theorem bitsOfWord_length (v : Word) : (bitsOfWord v).length = 32 := by simp [bitsOfWord]

/-- A bus write lands within its memory, and none reaches the Frequency Table (20_memory R54, R58, R60, R61). -/
theorem State.writeLocation_keeps_memoryForm {s t : State} {v : Word} {a : Nat} {l : Location} (hp : s.cfg.wf)
    (hn : s.ftN ≤ 128) (h : MemoryForm s) (hl : locate s.cfg a = some l) (hw : s.writeLocation v l = some t) :
    t.ftN ≤ 128 ∧ MemoryForm t := by
  have hfits := locate_fits hp a l hl
  have ⟨_, _, _, hsymIn, _, hbits, hbytes⟩ := h
  obtain ⟨r, rfl, hr⟩ | ⟨k, rfl, rfl⟩ | ⟨k, rfl, rfl⟩ | ⟨k, rfl, rfl⟩ := State.writeLocation_eq_some hw
  · obtain ⟨-, rfl⟩ | ⟨-, -, rfl⟩ | ⟨-, -, rfl⟩ | ⟨-, -, rfl⟩ := State.writeReg_eq_some hr <;> exact ⟨hn, h⟩
  · exact ⟨by simpa using hn, h.setSymIn (Memory.form_writeList hsymIn (by simpa [Location.Fits] using hfits))⟩
  · exact ⟨by simpa using hn, h.setBits (Memory.form_writeList hbits (by simpa [Location.Fits] using hfits))⟩
  · exact ⟨by simpa using hn, h.setBytes (Memory.form_writeList hbytes (by simpa [Location.Fits] using hfits))⟩

/-! ## A step -/

theorem State.readStatus_keeps_memoryForm {s : State} (hn : s.ftN ≤ 128) (h : MemoryForm s) :
    s.readStatus.ftN ≤ 128 ∧ MemoryForm s.readStatus := by
  unfold State.readStatus; split_ifs <;> exact ⟨hn, h⟩

theorem hostPoll_keeps_memoryForm {s : State} (hn : s.ftN ≤ 128) (h : MemoryForm s) :
    (hostPoll s).ftN ≤ 128 ∧ MemoryForm (hostPoll s) := by
  unfold hostPoll; split_ifs <;> exact State.readStatus_keeps_memoryForm hn h

theorem issue_keeps_memoryForm {w : Word} {s t : State} (hi : issue w s = .next t) (hn : s.ftN ≤ 128) (h : MemoryForm s) :
    t.ftN ≤ 128 ∧ MemoryForm t := by
  obtain ⟨-, he⟩ | ⟨-, -, he⟩ | ⟨-, i, -, he⟩ := issue_cases w s <;> rw [he] at hi
  · cases hi; exact ⟨hn, h⟩
  · cases hi; exact ⟨by simpa using hn, State.raiseError_memoryForm (s := s.beginCommand) h _ _ _⟩
  · exact exec_keeps_memoryForm hi hn h

/-- Settles O54, by the kinds of step: a hardware reset empties the memories, a command keeps their form, a bus write lands within a mapped word, and nothing else touches them. -/
theorem stepKeepsMemoryForm : Obligations.StepKeepsMemoryForm := by
  intro s t hp hn hm h
  obtain ⟨-, rfl⟩ | ⟨a, rest, -, hact⟩ := step_cases h
  · exact ⟨hn, hm⟩
  obtain ⟨-, rfl⟩ | ⟨-, rfl⟩ | ⟨-, -, rfl⟩ | ⟨-, w, -, hissue⟩ | ⟨-, _, v, b, l, u, -, -, -, hl, hwrite, rfl⟩ | ⟨-, r, rfl⟩ := hact
  · exact ⟨by simp [State.resetWith], Memory.form_nil, Memory.form_nil, Memory.form_nil, Memory.form_nil, Memory.form_nil,
      Memory.form_nil, Memory.form_nil⟩
  · exact hostPoll_keeps_memoryForm hn hm
  · exact State.readStatus_keeps_memoryForm hn hm
  · exact issue_keeps_memoryForm hissue hn hm
  · exact State.writeLocation_keeps_memoryForm (s := s.takeAction rest) (t := u) hp hn hm hl hwrite
  · exact ⟨hn, hm⟩

end Sys2Proof.Machine
end

section
/-! PROOFS. The invariant from an idle builder, over an appended table entry, and at the start of a build (41_freq_table R113, 42_tree_builder R122). -/

namespace Sys2Proof.Machine

/-! ## The Frequency Table -/

theorem Memory.filterMap_read_of_readRange {α : Type} {m : Memory α} {a n : Nat} {vs : List α}
    (h : Memory.readRange m a n = .ok vs) : (List.range' a n).filterMap (Memory.read m) = vs := by
  induction n generalizing a vs with
  | zero => simpa using h
  | succ n ih =>
    unfold Memory.readRange at h
    cases hr : Memory.read m a with
    | none => simp [hr] at h
    | some v =>
      cases hrest : Memory.readRange m (a + 1) n with
      | error i => simp [hr, hrest] at h
      | ok us =>
        simp only [hr, hrest, Except.ok.injEq] at h
        rw [List.range'_succ, List.filterMap_cons_some hr, ih hrest, h]

/-- The table a state holds is the one its statements speak of. -/
theorem table_eq_of_held {s : State} {table : List FtEntry} (h : TableHeld s table) : s.table = table := by
  rw [State.table, List.range_eq_range']
  exact Memory.filterMap_read_of_readRange h

theorem table_eq_of_fetchTable {s : State} {table : List FtEntry} (h : fetchTable s = .done table) : s.table = table :=
  table_eq_of_held (fetchRange_eq_done.mp h)

/-- In a table sorted by weight no entry is heavier than the last. -/
theorem weight_le_of_last {table : List FtEntry} {w : Word} (hsorted : table.Pairwise fun x y => x.weight ≤ y.weight)
    (hlast : (table.getLast?.any fun l => decide (w < l.weight)) = false) : ∀ x ∈ table, x.weight ≤ w := by
  obtain rfl | ⟨init, l, rfl⟩ := table.eq_nil_or_concat
  · simp
  · have hl : l.weight ≤ w := by simpa using hlast
    intro x hx
    obtain hx | rfl := by simpa using hx
    · exact BitVec.le_trans ((List.pairwise_append.mp (by simpa using hsorted)).2.2 x hx l (by simp)) hl
    · exact hl

/-- The checks of FT_APPEND are what keeps the table conforming (41_freq_table R112, R113). -/
theorem Conforming.append {table : List FtEntry} {e : FtEntry} (h : Conforming table) (hweight : e.weight ≠ 0#32)
    (hnew : indexOfSymbol e.sym table = none) (hlast : (table.getLast?.any fun l => decide (e.weight < l.weight)) = false)
    (htotal : totalWeight table + e.weight.toNat ≤ 0xFFFFFFFF) : Conforming (table ++ [e]) := by
  obtain ⟨hpos, hsorted, hnodup, -⟩ := h
  have hsym : ∀ x ∈ table, x.sym ≠ e.sym := by simpa [indexOfSymbol] using hnew
  refine ⟨?_, ?_, ?_, by simpa [totalWeight] using htotal⟩
  · simpa [or_imp, forall_and] using ⟨hpos, hweight⟩
  · simpa [List.pairwise_append, hsorted] using weight_le_of_last hsorted hlast
  · simpa [List.nodup_append, hnodup] using fun x hx => hsym x hx

theorem TableHeld.appendEntry {s : State} {table : List FtEntry} (h : TableHeld s table) (e : FtEntry) :
    TableHeld (s.appendEntry e) (table ++ [e]) := by
  obtain ⟨hlen, hread⟩ := (Memory.readRange_eq_ok_iff _ _ _ _).mp h
  refine (Memory.readRange_eq_ok_iff _ _ _ _).mpr ⟨by simp [hlen], fun i hi => ?_⟩
  rw [State.appendEntry_ft, Memory.read_write, Nat.zero_add]
  split_ifs with hin
  · simp [hin, ← hlen]
  · simp only [State.appendEntry_ftN] at hi
    have hlt : i < s.ftN := by omega
    rw [List.getElem?_append_left (by omega), ← hread i hlt, Nat.zero_add]

theorem TableForm.appendEntry {s : State} {e : FtEntry} (h : TableForm s) (hc : Conforming (s.table ++ [e])) :
    TableForm (s.appendEntry e) := by
  have hheld := h.1.appendEntry e
  rw [TableForm, table_eq_of_held hheld]
  exact ⟨hheld, hc⟩

/-! ## An idle builder -/

/-- The builder's registers after InvalidateTree (41_freq_table R110). -/
def Idle (s : State) : Prop :=
  s.tbState = .idle ∧ s.srcHead = 0 ∧ s.tgtHead = 0 ∧ s.nodeN = 0 ∧ s.root = nilRef ∧ s.treeValid = false ∧ s.codesValid = false

/-- With no build the invariant says nothing of node memory, queues or codes. -/
theorem Inv.of_idle {s : State} (hidle : Idle s) (hparams : s.cfg.wf) (hlengths : LengthForm s) (hmemory : MemoryForm s)
    (herrors : ErrorForm s) (htable : TableForm s) (houtput : OutputForm s) : Inv s := by
  obtain ⟨hst, hsrc, htgt, hnode, hroot, htv, hcv⟩ := hidle
  exact {
    params := hparams, lengths := hlengths, memory := hmemory, errors := herrors, table := htable, output := houtput
    builder := by simp [BuilderForm, hst, hsrc, htgt, hnode, hroot, htv, hcv]
    tree := fun hne => absurd hst hne
    weights := by simp [WeightForm, hst]
    queues := by simp [QueueForm, hst]
    codes := by simp [CodesForm, hcv] }

/-- An empty table conforms (41_freq_table R113). -/
theorem TableForm.of_empty {s : State} (h : s.ftN = 0) : TableForm s := by
  simp [TableForm, TableHeld, Conforming, State.table, totalWeight, h]

/-- Registers at their reset values and memories in form (40_control R101, 70_reset R230). -/
theorem inv_of_registers_reset {s : State} (hidle : Idle s) (hparams : s.cfg.wf) (hmemory : MemoryForm s)
    (herr : s.errCode = 0#8 ∧ s.errOp = 0#8 ∧ s.errInfo = 0#32)
    (hlen : s.ftN = 0 ∧ s.symInLen = 0 ∧ s.symOutLen = 0 ∧ s.bitLen = 0 ∧ s.byteLen = 0) : Inv s := by
  obtain ⟨hcode, hop, hinfo⟩ := herr
  obtain ⟨hftN, hin, hout, hbit, hbyte⟩ := hlen
  exact .of_idle hidle hparams (by simp [LengthForm, hftN, hin, hout, hbit, hbyte]) hmemory
    (by simp [ErrorForm, hcode, hop, hinfo]) (.of_empty hftN) (by simp [OutputForm, hout])

theorem Inv.hardwareReset {s : State} (h : Inv s) : Inv s.hardwareReset :=
  inv_of_registers_reset ⟨rfl, rfl, rfl, rfl, rfl, rfl, rfl⟩ h.params
    ⟨Memory.form_nil, Memory.form_nil, Memory.form_nil, Memory.form_nil, Memory.form_nil, Memory.form_nil, Memory.form_nil⟩
    ⟨rfl, rfl, rfl⟩ ⟨rfl, rfl, rfl, rfl, rfl⟩

theorem Inv.resetRegisters {s : State} (h : Inv s) : Inv s.resetRegisters :=
  inv_of_registers_reset ⟨rfl, rfl, rfl, rfl, rfl, rfl, rfl⟩ h.params h.memory ⟨rfl, rfl, rfl⟩ ⟨rfl, rfl, rfl, rfl, rfl⟩

theorem Inv.clearTable {s : State} (h : Inv s) : Inv s.clearTable :=
  .of_idle ⟨rfl, rfl, rfl, rfl, rfl, rfl, rfl⟩ h.params ⟨Nat.zero_le _, h.lengths.2⟩ h.memory h.errors (.of_empty rfl) h.output

theorem Inv.appendEntry {s : State} {e : FtEntry} (h : Inv s) (hroom : s.ftN ≠ 128) (hc : Conforming (s.table ++ [e])) :
    Inv (s.appendEntry e) := by
  have hlen := h.lengths.1
  exact .of_idle ⟨rfl, rfl, rfl, rfl, rfl, rfl, rfl⟩ h.params ⟨show s.ftN + 1 ≤ 128 by omega, h.lengths.2⟩
    ⟨Memory.form_write h.memory.1 (by omega) _, h.memory.2⟩ h.errors (h.table.appendEntry hc) h.output

/-! ## The start of a build -/

theorem Inv.clearCodesValid {s : State} (h : Inv s) : Inv { s with codesValid := false } :=
  ⟨h.params, h.lengths, h.memory, h.errors, h.table,
    by obtain ⟨h1, h2, h3, h4, h5, h6, -⟩ := h.builder; exact ⟨h1, h2, h3, h4, h5, h6, by simp⟩,
    h.tree, h.weights, h.queues, by simp [CodesForm], h.output⟩

/-- The clauses of the invariant about the tree under construction (42_tree_builder R120 to R129). -/
abbrev BuildForms (s : State) : Prop := BuilderForm s ∧ TreeForm s ∧ WeightForm s ∧ QueueForm s

/-- What a change to the build leaves to show. -/
theorem Inv.of_builderOnly {s t : State} (h : Inv s) (hb : BuilderOnly s t) (hcodes : s.codesValid = false)
    (hnodes : Memory.wf t.nodes ∧ Memory.below 255 t.nodes) (hforms : BuildForms t) : Inv t := by
  have hmemory := h.memory.of_builderOnly hb hnodes
  obtain ⟨hbuilder, htree, hweights, hqueues⟩ := hforms
  obtain ⟨_, _, _, _, _, _, _, rfl⟩ := hb
  exact ⟨h.params, h.lengths, hmemory, h.errors, h.table, hbuilder, htree, hweights, hqueues, by simp [CodesForm, hcodes], h.output⟩

theorem read_initialNodes {table : List FtEntry} {i : Nat} (hi : i < 255) :
    Memory.read (initialNodes table) i = some (((table[i]?).map leafNode).getD blankNode) := by
  simp [initialNodes, hi]

/-- The leaves stand in table order (42_tree_builder R122 step 1). -/
theorem read_initialNodes_leaf {table : List FtEntry} {i : Nat} (hi : i < 255) (hlt : i < table.length) :
    Memory.read (initialNodes table) i = (table[i]?).map leafNode := by
  simp [read_initialNodes hi, hlt]

theorem read_initialNodes_blank {table : List FtEntry} {i : Nat} (hi : i < 255) (hge : table.length ≤ i) :
    Memory.read (initialNodes table) i = some blankNode := by
  simp [read_initialNodes hi, hge]

/-- The leaves' weights add up to FT_TOTAL. -/
theorem sum_leaf_weights {s : State} {table : List FtEntry}
    (hleaf : ∀ i < table.length, Memory.read s.nodes i = (table[i]?).map leafNode) :
    ((List.range' 0 table.length).map s.nodeWeight).sum = totalWeight table := by
  unfold totalWeight
  congr 1
  refine List.ext_getElem (by simp) fun i hi hi' => ?_
  have hlt : i < table.length := by simpa using hi
  simp [State.nodeWeight, hleaf i hlt, hlt, leafNode]

@[simp] theorem State.startSingle_table (s : State) (nodes : Memory Node) : (s.startSingle nodes).table = s.table := rfl

@[simp] theorem State.startQueues_table (s : State) (nodes : Memory Node) : (s.startQueues nodes).table = s.table := rfl

/-- TB_INIT on one entry: the leaf, the wrapper over it, and a finished build (42_tree_builder R122 step 2). -/
theorem startSingle_forms {s : State} {e : FtEntry} (hn : s.ftN = 1) (htable : s.table = [e]) :
    BuildForms (s.startSingle (Memory.write (initialNodes [e]) 1 (wrapperNode e.weight))) := by
  set t := s.startSingle (Memory.write (initialNodes [e]) 1 (wrapperNode e.weight))
  have hftN : t.ftN = 1 := hn
  have htab : t.table = [e] := htable
  have hst : t.tbState = .done := rfl
  have hregs : t.nodeN = 2 ∧ t.srcHead = 1 ∧ t.tgtHead = 2 ∧ t.root = 1#8 ∧ t.treeValid = true := ⟨rfl, rfl, rfl, rfl, rfl⟩
  have hread0 : Memory.read t.nodes 0 = some (leafNode e) :=
    (Memory.read_write_other _ _ (by decide)).trans (read_initialNodes_leaf (table := [e]) (by decide) (by simp))
  have hread1 : Memory.read t.nodes 1 = some (wrapperNode e.weight) := Memory.read_write_same _ _ _
  have hblank : ∀ i < 255, 2 ≤ i → Memory.read t.nodes i = some blankNode := fun i hi hge =>
    (Memory.read_write_other _ _ (by omega)).trans (read_initialNodes_blank (table := [e]) hi (by simp; omega))
  clear_value t
  obtain ⟨hnodeN, hsrc, htgt, hroot, htv⟩ := hregs
  have hchildren : (wrapperNode e.weight).children = [0] := rfl
  have hchildIndices : t.childIndices = [0] := by simp [State.childIndices, hftN, hnodeN, hread1, hchildren]
  refine ⟨?_, fun _ => ⟨?_, ?_, ?_, ?_, ?_⟩, ⟨?_, fun _ => ?_⟩, ?_⟩
  · simp [BuilderForm, hftN, hnodeN, hsrc, htgt, hroot, htv, hst, nodeRef]
  · intro i hi
    obtain rfl : i = 0 := by omega
    simp [hread0, htab]
  · intro i hi hge
    obtain rfl : i = 1 := by omega
    have hsum : ((wrapperNode e.weight).children.map t.nodeWeight).sum = e.weight.toNat := by
      simp [hchildren, State.nodeWeight, hread0, leafNode]
    rw [State.internalAt, hread1, Option.any_some, hsum]
    simp [wrapperNode, hftN]
  · exact fun i hi hge => hblank i hi (by omega)
  · simp [hchildIndices, hftN, hsrc]
  · simp [hchildIndices, State.adoptedInternal, hst, hftN, hnodeN]
  · simp [hst]
  · simp [State.nodeWeight, hroot, hread1, wrapperNode, State.ftTotal, htab, totalWeight]
  · simp [QueueForm, hst]

/-- TB_INIT on several entries: the leaves in the source queue and an empty target queue (42_tree_builder R122 step 1). -/
theorem startQueues_forms {s : State} {table : List FtEntry} (htwo : 2 ≤ s.ftN) (hmax : s.ftN ≤ 128)
    (hlen : table.length = s.ftN) (htable : s.table = table) :
    BuildForms (s.startQueues (initialNodes table)) := by
  set t := s.startQueues (initialNodes table) with ht
  have hleaf : ∀ i < table.length, Memory.read t.nodes i = (table[i]?).map leafNode :=
    fun i hi => read_initialNodes_leaf (by omega) hi
  refine ⟨?_, fun _ => ⟨?_, ?_, ?_, ?_, ?_⟩, ⟨fun _ => ?_, ?_⟩, ?_⟩
  · simp [BuilderForm, ht, State.srcLen, State.tgtLen]; omega
  · simpa [ht, htable, hlen] using hleaf
  · intro i hi hge
    simp [ht] at hi hge; omega
  · exact fun i hi hge => read_initialNodes_blank hi (by simpa [ht, hlen] using hge)
  · simp [State.childIndices, ht]
  · simp [State.childIndices, State.adoptedInternal, ht]
  · have := sum_leaf_weights hleaf
    simpa [State.queued, State.srcLen, State.tgtLen, State.ftTotal, ht, hlen, htable] using this
  · simp [ht]
  · simp [QueueForm, ht, State.tgtLen]

/-- TB_INIT keeps the invariant (42_tree_builder R122). -/
theorem Inv.startBuild {s : State} {first : FtEntry} {rest : List FtEntry} (h : Inv s)
    (htable : fetchTable s = .done (first :: rest)) : Inv (s.startBuild first rest) := by
  have hb := builderOnly_startBuild s first rest
  have hnodes := startBuild_nodes_form s first rest
  have htab := table_eq_of_fetchTable htable
  have hlen : rest.length + 1 = s.ftN := Memory.readRange_length (fetchRange_eq_done.mp htable)
  have hforms : BuildForms (s.startBuild first rest) := by
    by_cases hone : s.ftN = 1
    · obtain rfl : rest = [] := List.eq_nil_of_length_eq_zero (by omega)
      rw [State.startBuild, if_pos hone]
      exact startSingle_forms hone htab
    · rw [State.startBuild, if_neg hone]
      exact startQueues_forms (by omega) h.lengths.1 (by simpa using hlen) htab
  exact h.clearCodesValid.of_builderOnly hb rfl hnodes hforms

end Sys2Proof.Machine
end

section
/-! PROOFS. A merge keeps the invariant: the two nodes it takes, the queues it leaves, the parent it adds (42_tree_builder R121 to R129). -/

namespace Sys2Proof.Machine

/-! ## What a merge takes -/

/-- A queue further on is the end of the queue. -/
theorem range'_sublist_of_le {a b n : Nat} (h : a ≤ b) : (List.range' b (n - b)).Sublist (List.range' a (n - a)) := by
  by_cases hb : b ≤ n
  · have happ : List.range' a (n - a) = List.range' a (b - a) ++ List.range' b (n - b) := by
      rw [show n - a = (b - a) + (n - b) by omega, ← List.range'_append_1, show a + (b - a) = b by omega]
    rw [happ]
    exact List.sublist_append_right _ _
  · rw [Nat.sub_eq_zero_of_le (by omega)]
    exact List.nil_sublist _

/-- An extraction goes on with the FIFO order of the node indices below FT_N and of those from it on (42_tree_builder R120). -/
theorem Extracts.fifo {s : State} {x src tgt : Nat} (h : Extracts s x src tgt) (hpos : 0 < s.srcLen + s.tgtLen)
    (hftN : s.ftN ≤ s.tgtHead) {l : List Nat} (hsrc : l.filter (fun i => decide (i < s.ftN)) = List.range' 0 s.srcHead)
    (htgt : l.filter (fun i => decide (s.ftN ≤ i)) = List.range' s.ftN (s.tgtHead - s.ftN)) :
    (l ++ [x]).filter (fun i => decide (i < s.ftN)) = List.range' 0 src ∧
    (l ++ [x]).filter (fun i => decide (s.ftN ≤ i)) = List.range' s.ftN (tgt - s.ftN) := by
  have hlen : s.srcLen = s.ftN - s.srcHead := rfl
  rw [List.filter_append, List.filter_append, hsrc, htgt]
  obtain ⟨rfl, rfl, rfl, hp, -⟩ | ⟨rfl, rfl, rfl, hp, -⟩ := h.cases hpos
  · have hlt : s.srcHead < s.ftN := by omega
    simp [hlt, List.range'_1_concat]
  · rw [show s.tgtHead + 1 - s.ftN = s.tgtHead - s.ftN + 1 by omega, List.range'_1_concat,
      show s.ftN + (s.tgtHead - s.ftN) = s.tgtHead by omega]
    simp [hftN]

/-- What a merge of a running build takes from the queues: a, then b, leaving the heads at src and tgt. -/
structure Takes (s : State) (a b src tgt : Nat) : Prop where
  below : a < s.nodeN ∧ b < s.nodeN
  heads : s.srcHead ≤ src ∧ src ≤ s.ftN ∧ s.tgtHead ≤ tgt ∧ tgt ≤ s.nodeN ∧ src + tgt = s.srcHead + s.tgtHead + 2
  perm : s.queued.Perm (a :: b :: (s.moveHeads src tgt).queued)
  leastFirst : ∀ i ∈ s.queued, s.nodeWeight a ≤ s.nodeWeight i
  leastSecond : ∀ i ∈ (s.moveHeads src tgt).queued, s.nodeWeight b ≤ s.nodeWeight i
  fifo : ∀ l : List Nat, l.filter (fun i => decide (i < s.ftN)) = List.range' 0 s.srcHead →
    l.filter (fun i => decide (s.ftN ≤ i)) = List.range' s.ftN (s.tgtHead - s.ftN) →
    (l ++ [a, b]).filter (fun i => decide (i < s.ftN)) = List.range' 0 src ∧
    (l ++ [a, b]).filter (fun i => decide (s.ftN ≤ i)) = List.range' s.ftN (tgt - s.ftN)

/-- The builder's registers in a running build (42_tree_builder R127). -/
theorem running_registers {s : State} (h : Inv s) (hr : s.tbState = .running) :
    s.srcHead ≤ s.ftN ∧ 2 ≤ s.ftN ∧ s.ftN ≤ 128 ∧ s.ftN ≤ s.tgtHead ∧ s.tgtHead ≤ s.nodeN ∧
    2 ≤ (s.ftN - s.srcHead) + (s.nodeN - s.tgtHead) ∧ s.srcHead + s.tgtHead + s.ftN = 2 * s.nodeN := by
  obtain ⟨hsrc, -, hbuilding, hrunning, -⟩ := h.builder
  obtain ⟨hone, htgt, hnode, -, hsingle⟩ := hbuilding (by simp [hr])
  obtain ⟨htwo, -, hbalance⟩ := hrunning hr
  have hmax := h.lengths.1
  have hlens : s.srcLen + s.tgtLen = (s.ftN - s.srcHead) + (s.nodeN - s.tgtHead) := rfl
  omega

/-- The state of a merge before its finish test: the heads moved, the parent of nodes a and b appended (42_tree_builder R123). -/
def State.merged (s : State) (a b src tgt : Nat) (na nb : Node) : State :=
  (s.moveHeads src tgt).enqueue (mergedNode a b na.weight nb.weight)

/-- One merge of a running build takes two nodes in the way Takes says and appends their parent (42_tree_builder R123). -/
theorem mergeOnce_takes {s t : State} (h : Inv s) (hr : s.tbState = .running) (hm : mergeOnce s = .done t) :
    ∃ a b src tgt na nb, Takes s a b src tgt ∧ Memory.read s.nodes a = some na ∧ Memory.read s.nodes b = some nb ∧
      t = (s.merged a b src tgt na nb).finishIfLast := by
  obtain ⟨a, b, src₁, tgt₁, src₂, tgt₂, na, nb, ha, hb, hna, hnb, hdone⟩ := merge_facts h hr
  obtain rfl := Ending.done.inj (hm.symm.trans hdone)
  refine ⟨a, b, src₂, tgt₂, na, nb, ?_, hna, hnb, rfl⟩
  obtain ⟨hsrc, htwo, -, hftN, htgt, hlen, -⟩ := running_registers h hr
  have hs : s.srcLen = s.ftN - s.srcHead := rfl
  have ht : s.tgtLen = s.nodeN - s.tgtHead := rfl
  have hs₁ : (s.moveHeads src₁ tgt₁).srcLen = s.ftN - src₁ := rfl
  have ht₁ : (s.moveHeads src₁ tgt₁).tgtLen = s.nodeN - tgt₁ := rfl
  have hpos : 0 < s.srcLen + s.tgtLen := by omega
  have hca := ha.cases hpos
  have hpos₁ : 0 < (s.moveHeads src₁ tgt₁).srcLen + (s.moveHeads src₁ tgt₁).tgtLen := by omega
  have hcb := hb.cases hpos₁
  simp only [State.moveHeads_srcHead, State.moveHeads_tgtHead] at hcb
  have hsorted := source_sorted h hr
  have hsorted' := (h.queues hr).1
  have hle₁ : s.srcHead ≤ src₁ ∧ s.tgtHead ≤ tgt₁ := by omega
  exact {
    below := by omega
    heads := by omega
    perm := (queued_perm ha hpos).trans ((queued_perm hb hpos₁).cons a)
    leastFirst := least_of_sorted ha hpos hsorted hsorted'
    leastSecond := fun i hi => least_of_sorted hb hpos₁ (hsorted.sublist (range'_sublist_of_le hle₁.1))
      (hsorted'.sublist (range'_sublist_of_le hle₁.2)) i ((queued_perm hb hpos₁).mem_iff.mpr (List.mem_cons_of_mem _ hi))
    fifo := fun l hl hl' => by
      obtain ⟨h1, h2⟩ := ha.fifo hpos hftN hl hl'
      have := hb.fifo hpos₁ (show s.ftN ≤ tgt₁ by omega) h1 h2
      rwa [List.append_assoc] at this }

/-- A sorted run of indices is sorted between any two of them. -/
theorem rel_of_pairwise_range' {R : Nat → Nat → Prop} {x n i j : Nat} (h : (List.range' x n).Pairwise R) (hi : x ≤ i) (hij : i < j)
    (hj : j < x + n) : R i j := by
  have := List.pairwise_iff_getElem.mp h (i - x) (j - x) (by simp; omega) (by simp; omega) (by omega)
  simpa [show x + (i - x) = i by omega, show x + (j - x) = j by omega] using this

/-! ## The parent a merge adds -/

/-- What a node that passes for internal is. -/
theorem State.internalAt_iff {s : State} {i : Nat} : s.internalAt i = true ↔
    ∃ nd, Memory.read s.nodes i = some nd ∧ nd.valid = true ∧ nd.leaf = false ∧ nd.sym = 0#7 ∧ nd.left.toNat < i ∧
      (if s.ftN = 1 then nd.right = nilRef else nd.right.toNat < i) ∧ nd.weight.toNat = (nd.children.map s.nodeWeight).sum := by
  unfold State.internalAt
  rw [Option.any_eq_true]
  split_ifs <;> simp [and_assoc]

theorem Node.mem_children {nd : Node} {j : Nat} (h : j ∈ nd.children) :
    j = nd.left.toNat ∨ (nd.right ≠ nilRef ∧ j = nd.right.toNat) := by
  simp only [Node.children, List.mem_map, List.mem_filter, List.mem_cons, List.not_mem_nil, or_false, bne_iff_ne] at h
  obtain ⟨r, ⟨rfl | rfl, hne⟩, rfl⟩ := h
  · exact .inl rfl
  · exact .inr ⟨hne, rfl⟩

/-- An internal node stays one while it, the nodes below it and the number of leaves stay. -/
theorem State.internalAt_of_reads {s t : State} {i : Nat} (h : s.internalAt i = true) (hftN : t.ftN = s.ftN)
    (hread : ∀ j ≤ i, Memory.read t.nodes j = Memory.read s.nodes j) : t.internalAt i = true := by
  obtain ⟨nd, hnd, hvalid, hleaf, hsym, hleft, hright, hweight⟩ := State.internalAt_iff.mp h
  have hchildren : ∀ j ∈ nd.children, t.nodeWeight j = s.nodeWeight j := by
    intro j hj
    have hlt : j < i := by
      obtain rfl | ⟨hne, rfl⟩ := Node.mem_children hj
      · exact hleft
      · split_ifs at hright
        · exact absurd hright hne
        · exact hright
    rw [State.nodeWeight, State.nodeWeight, hread j (by omega)]
  exact State.internalAt_iff.mpr ⟨nd, by rw [hread i le_rfl, hnd], hvalid, hleaf, hsym, hleft, by rwa [hftN],
    by rw [hweight, List.map_congr_left hchildren]⟩

/-! ### Its nodes and queues -/

section Merged

variable {s : State} {a b src tgt : Nat} {na nb : Node}

@[simp] theorem State.merged_ftN : (s.merged a b src tgt na nb).ftN = s.ftN := rfl
@[simp] theorem State.merged_nodeN : (s.merged a b src tgt na nb).nodeN = s.nodeN + 1 := rfl
@[simp] theorem State.merged_srcHead : (s.merged a b src tgt na nb).srcHead = src := rfl
@[simp] theorem State.merged_tgtHead : (s.merged a b src tgt na nb).tgtHead = tgt := rfl
@[simp] theorem State.merged_tbState : (s.merged a b src tgt na nb).tbState = s.tbState := rfl
@[simp] theorem State.merged_root : (s.merged a b src tgt na nb).root = s.root := rfl
@[simp] theorem State.merged_treeValid : (s.merged a b src tgt na nb).treeValid = s.treeValid := rfl
@[simp] theorem State.merged_codesValid : (s.merged a b src tgt na nb).codesValid = s.codesValid := rfl
@[simp] theorem State.merged_table : (s.merged a b src tgt na nb).table = s.table := rfl
@[simp] theorem State.merged_ftTotal : (s.merged a b src tgt na nb).ftTotal = s.ftTotal := rfl

theorem State.merged_read_self :
    Memory.read (s.merged a b src tgt na nb).nodes s.nodeN = some (mergedNode a b na.weight nb.weight) :=
  Memory.read_write_same _ _ _

theorem State.merged_read_other {i : Nat} (hi : i ≠ s.nodeN) :
    Memory.read (s.merged a b src tgt na nb).nodes i = Memory.read s.nodes i :=
  Memory.read_write_other _ _ hi

theorem State.merged_nodeWeight_other {i : Nat} (hi : i ≠ s.nodeN) :
    (s.merged a b src tgt na nb).nodeWeight i = s.nodeWeight i := by
  rw [State.nodeWeight, State.merged_read_other hi, State.nodeWeight]

/-- The parent joins the end of the target queue. -/
theorem State.merged_queued (htgt : tgt ≤ s.nodeN) :
    (s.merged a b src tgt na nb).queued = (s.moveHeads src tgt).queued ++ [s.nodeN] := by
  simp only [State.queued, State.srcLen, State.tgtLen, State.merged_ftN, State.merged_nodeN, State.merged_srcHead,
    State.merged_tgtHead, State.moveHeads_ftN, State.moveHeads_nodeN, State.moveHeads_srcHead, State.moveHeads_tgtHead]
  rw [show s.nodeN + 1 - tgt = s.nodeN - tgt + 1 by omega, List.range'_1_concat, show tgt + (s.nodeN - tgt) = s.nodeN by omega,
    List.append_assoc]

theorem State.queued_lt {i : Nat} (hftN : s.ftN ≤ s.nodeN) (hi : i ∈ s.queued) : i < s.nodeN := by
  simp only [State.queued, State.srcLen, State.tgtLen, List.mem_append, List.mem_range'_1] at hi
  omega

/-- The parent's children come last in merge order. -/
theorem State.merged_childIndices (hftN : s.ftN ≤ s.nodeN) (ha : a < 255) (hb : b < 255) :
    (s.merged a b src tgt na nb).childIndices = s.childIndices ++ [a, b] := by
  unfold State.childIndices
  rw [State.merged_ftN, State.merged_nodeN, show s.nodeN + 1 - s.ftN = s.nodeN - s.ftN + 1 by omega, List.range'_1_concat,
    show s.ftN + (s.nodeN - s.ftN) = s.nodeN by omega, List.flatMap_append, List.flatMap_singleton, State.merged_read_self]
  congr 1
  · refine List.flatMap_congr fun i hi => ?_
    rw [List.mem_range'_1] at hi
    rw [State.merged_read_other (by omega)]
  · simp [children_merged ha hb]

/-! ### The invariant's clauses -/

variable (h : Inv s) (hr : s.tbState = .running) (ht : Takes s a b src tgt) (hna : Memory.read s.nodes a = some na)
  (hnb : Memory.read s.nodes b = some nb)

include h hr ht

/-- The weights of the two nodes taken and of the queued rest add up to FT_TOTAL (42_tree_builder R129). -/
theorem Takes.sum_eq :
    s.nodeWeight a + (s.nodeWeight b + ((s.moveHeads src tgt).queued.map s.nodeWeight).sum) = s.ftTotal := by
  have hsum := (ht.perm.map s.nodeWeight).sum_eq
  rw [h.weights.1 hr] at hsum
  simpa using hsum.symm

/-- No node of the old target queue is heavier than the parent: it is no heavier than the last merge, and that is at most twice either node taken (42_tree_builder R128). -/
theorem Takes.target_le_sum {i : Nat} (hi : s.tgtHead ≤ i) (hiN : i < s.nodeN) :
    s.nodeWeight i ≤ s.nodeWeight a + s.nodeWeight b := by
  obtain ⟨-, -, -, hftN, -⟩ := running_registers h hr
  obtain ⟨hsorted, htwice⟩ := h.queues hr
  have htgtLen : s.tgtLen = s.nodeN - s.tgtHead := rfl
  have hlast : s.nodeWeight i ≤ s.nodeWeight (s.nodeN - 1) := by
    obtain rfl | hlt : i = s.nodeN - 1 ∨ i < s.nodeN - 1 := by omega
    · exact le_rfl
    · exact rel_of_pairwise_range' (R := fun i j => s.nodeWeight i ≤ s.nodeWeight j) hsorted hi hlt (by omega)
  have ha := htwice (by omega) a (ht.perm.mem_iff.mpr (by simp))
  have hb := htwice (by omega) b (ht.perm.mem_iff.mpr (by simp))
  omega

/-- A merge that was not the last leaves a running build (42_tree_builder R123, R127). -/
theorem State.merged_running_builderForm (hmore : ¬((s.merged a b src tgt na nb).srcLen = 0 ∧ (s.merged a b src tgt na nb).tgtLen = 1)) :
    BuilderForm (s.merged a b src tgt na nb) := by
  obtain ⟨hsrc, htwo, hmax, hftN, htgt, hlen, hbalance⟩ := running_registers h hr
  obtain ⟨hsrc', hsrcN, htgt', htgtN, hheads⟩ := ht.heads
  obtain ⟨-, -, -, hrunning, -, htree, hcodes⟩ := h.builder
  obtain ⟨-, hroot, -⟩ := hrunning hr
  have htv : s.treeValid = false := by simpa [hr] using htree
  have hcv : s.codesValid = false := by simpa [htv] using hcodes
  simp only [State.srcLen, State.tgtLen, State.merged_ftN, State.merged_nodeN, State.merged_srcHead, State.merged_tgtHead] at hmore
  simp [BuilderForm, State.srcLen, State.tgtLen, hr, hroot, htv, hcv]
  omega

/-- The last merge finishes the build with the parent as root (42_tree_builder R123, R127). -/
theorem State.merged_done_builderForm (hlast : (s.merged a b src tgt na nb).srcLen = 0 ∧ (s.merged a b src tgt na nb).tgtLen = 1) :
    BuilderForm (s.merged a b src tgt na nb).finishBuild := by
  obtain ⟨hsrc, htwo, hmax, hftN, htgt, hlen, hbalance⟩ := running_registers h hr
  obtain ⟨hsrc', hsrcN, htgt', htgtN, hheads⟩ := ht.heads
  simp only [State.srcLen, State.tgtLen, State.merged_ftN, State.merged_nodeN, State.merged_srcHead, State.merged_tgtHead] at hlast
  have hroot : tgt = s.nodeN := by omega
  simp [BuilderForm, nodeRef, hroot]
  omega

include hna hnb

/-- The merged weight is the exact sum: it cannot pass FT_TOTAL (42_tree_builder R129). -/
theorem State.merged_nodeWeight_self :
    (s.merged a b src tgt na nb).nodeWeight s.nodeN = s.nodeWeight a + s.nodeWeight b := by
  have hsum := ht.sum_eq h hr
  obtain ⟨-, -, -, -, htotal⟩ := h.table
  have hmax : s.ftTotal ≤ 0xFFFFFFFF := htotal
  rw [State.nodeWeight_of_read State.merged_read_self, State.nodeWeight_of_read hna, State.nodeWeight_of_read hnb]
  rw [State.nodeWeight_of_read hna, State.nodeWeight_of_read hnb] at hsum
  simp only [mergedNode, BitVec.toNat_add]
  omega

/-- The queues still add up to FT_TOTAL (42_tree_builder R129). -/
theorem State.merged_sum_queued :
    ((s.merged a b src tgt na nb).queued.map (s.merged a b src tgt na nb).nodeWeight).sum = s.ftTotal := by
  obtain ⟨-, -, -, htgt, -⟩ := ht.heads
  have hftN : s.ftN ≤ s.nodeN := by have := running_registers h hr; omega
  have hrest : ∀ i ∈ (s.moveHeads src tgt).queued, (s.merged a b src tgt na nb).nodeWeight i = s.nodeWeight i :=
    fun i hi => State.merged_nodeWeight_other (State.queued_lt (s := s.moveHeads src tgt) hftN hi).ne
  rw [State.merged_queued htgt, List.map_append, List.map_congr_left hrest, List.sum_append, List.map_singleton, List.sum_singleton,
    State.merged_nodeWeight_self h hr ht hna hnb, ← ht.sum_eq h hr]
  omega

/-- The tree with the parent added, whether or not the build is then finished (42_tree_builder R122, R123, R125). -/
theorem State.merged_tree :
    (∀ i < s.ftN, Memory.read (s.merged a b src tgt na nb).nodes i = (s.table[i]?).map leafNode) ∧
    (∀ i < s.nodeN + 1, s.ftN ≤ i → (s.merged a b src tgt na nb).internalAt i = true) ∧
    (∀ i < 255, s.nodeN + 1 ≤ i → Memory.read (s.merged a b src tgt na nb).nodes i = some blankNode) ∧
    (s.merged a b src tgt na nb).childIndices.filter (fun i => decide (i < s.ftN)) = List.range' 0 src ∧
    (s.merged a b src tgt na nb).childIndices.filter (fun i => decide (s.ftN ≤ i)) = List.range' s.ftN (tgt - s.ftN) := by
  obtain ⟨hleaves, hinternal, hblank, hsource, htarget⟩ := h.tree (by simp [hr])
  obtain ⟨hsrc, htwo, hmax, hftN, htgt, hlen, hbalance⟩ := running_registers h hr
  obtain ⟨ha, hb⟩ := ht.below
  refine ⟨?_, ?_, ?_, ?_⟩
  · exact fun i hi => (State.merged_read_other (by omega)).trans (hleaves i hi)
  · intro i hi hge
    obtain hlt | rfl : i < s.nodeN ∨ i = s.nodeN := by omega
    · exact State.internalAt_of_reads (hinternal i hlt hge) rfl fun j hj => State.merged_read_other (by omega)
    · have hnodeRef : ∀ j < s.nodeN, (nodeRef j).toNat < s.nodeN := fun j hj => by rwa [nodeRef_toNat (by omega)]
      refine State.internalAt_iff.mpr ⟨_, State.merged_read_self, rfl, rfl, rfl, hnodeRef a ha, ?_, ?_⟩
      · rw [State.merged_ftN, if_neg (by omega)]
        exact hnodeRef b hb
      · rw [children_merged (by omega) (by omega), ← State.nodeWeight_of_read State.merged_read_self,
          State.merged_nodeWeight_self h hr ht hna hnb]
        simp [State.merged_nodeWeight_other ha.ne, State.merged_nodeWeight_other hb.ne]
  · exact fun i hi hge => (State.merged_read_other (by omega)).trans (hblank i hi (by omega))
  · rw [State.merged_childIndices (by omega) (by omega) (by omega)]
    refine ht.fifo _ hsource ?_
    rw [htarget, State.adoptedInternal, if_neg (by simp [hr])]

/-- The target queue stays sorted, and the parent is at most twice any queued node: the two nodes taken were the lightest (42_tree_builder R128). -/
theorem State.merged_queueForm : QueueForm (s.merged a b src tgt na nb) := by
  intro _
  obtain ⟨-, -, -, hftN, htgtN, -⟩ := running_registers h hr
  obtain ⟨-, -, htgt, htgtN', -⟩ := ht.heads
  have hself := State.merged_nodeWeight_self h hr ht hna hnb
  have hother : ∀ i < s.nodeN, (s.merged a b src tgt na nb).nodeWeight i = s.nodeWeight i :=
    fun i hi => State.merged_nodeWeight_other hi.ne
  constructor
  · rw [State.tgtLen, State.merged_tgtHead, State.merged_nodeN, show s.nodeN + 1 - tgt = s.nodeN - tgt + 1 by omega,
      List.range'_1_concat, show tgt + (s.nodeN - tgt) = s.nodeN by omega]
    have hold : ∀ i ∈ List.range' tgt (s.nodeN - tgt), s.tgtHead ≤ i ∧ i < s.nodeN := by
      intro i hi
      rw [List.mem_range'_1] at hi
      omega
    refine List.pairwise_append.mpr ⟨?_, List.pairwise_singleton _ _, ?_⟩
    · refine ((h.queues hr).1.sublist (range'_sublist_of_le htgt)).imp_of_mem fun hi hj hle => ?_
      rwa [hother _ (hold _ hi).2, hother _ (hold _ hj).2]
    · intro i hi j hj
      obtain rfl := List.mem_singleton.mp hj
      rw [hother _ (hold i hi).2, hself]
      exact ht.target_le_sum h hr (hold i hi).1 (hold i hi).2
  · intro _ i hi
    rw [State.merged_nodeN, Nat.add_sub_cancel, hself]
    rw [State.merged_queued htgtN', List.mem_append, List.mem_singleton] at hi
    obtain hi | rfl := hi
    · have hlt : i < s.nodeN := State.queued_lt (s := s.moveHeads src tgt) (show s.ftN ≤ s.nodeN by omega) hi
      have ha := ht.leastFirst i (ht.perm.mem_iff.mpr (by simp [hi]))
      have hb := ht.leastSecond i hi
      rw [hother i hlt]
      omega
    · omega

/-- A merge leaves a build in form, whether or not it is the last (42_tree_builder R123). -/
theorem State.merged_forms : BuildForms (s.merged a b src tgt na nb).finishIfLast := by
  obtain ⟨hsrc, htwo, hmax, hftN, htgt, hlen, hbalance⟩ := running_registers h hr
  obtain ⟨hsrc', hsrcN, htgt', htgtN, hheads⟩ := ht.heads
  obtain ⟨hleaves, hinternal, hblank, hsource, htarget⟩ := State.merged_tree h hr ht hna hnb
  have hsum := State.merged_sum_queued h hr ht hna hnb
  by_cases hlast : (s.merged a b src tgt na nb).srcLen = 0 ∧ (s.merged a b src tgt na nb).tgtLen = 1
  · have hdone : (s.merged a b src tgt na nb).finishIfLast = (s.merged a b src tgt na nb).finishBuild := if_pos hlast
    have hbuilder := State.merged_done_builderForm h hr ht hlast
    simp only [State.srcLen, State.tgtLen, State.merged_ftN, State.merged_nodeN, State.merged_srcHead, State.merged_tgtHead] at hlast
    obtain rfl : tgt = s.nodeN := by omega
    rw [hdone]
    refine ⟨hbuilder, fun _ => ⟨hleaves, hinternal, hblank, hsource, htarget⟩, ⟨nofun, fun _ => ?_⟩, nofun⟩
    have hqueued : (s.merged a b src s.nodeN na nb).queued = [s.nodeN] := by
      simp [State.queued, State.srcLen, State.tgtLen, hlast.1]
    have hroot : (s.merged a b src s.nodeN na nb).finishBuild.root.toNat = s.nodeN :=
      nodeRef_toNat (a := s.nodeN) (by omega)
    rw [hroot]
    show (s.merged a b src s.nodeN na nb).nodeWeight s.nodeN = s.ftTotal
    simpa [hqueued] using hsum
  · have hmore : (s.merged a b src tgt na nb).finishIfLast = s.merged a b src tgt na nb := if_neg hlast
    rw [hmore]
    refine ⟨State.merged_running_builderForm h hr ht hlast, fun _ => ⟨hleaves, hinternal, hblank, hsource, ?_⟩,
      ⟨fun _ => hsum, by simp [hr]⟩, State.merged_queueForm h hr ht hna hnb⟩
    rw [State.adoptedInternal, if_neg (by simp [hr])]
    exact htarget

end Merged

/-- TB_STEP keeps the invariant (42_tree_builder R123). -/
theorem Inv.tbStepBody {s t : State} (h : Inv s) (hb : tbStepBody s = .done t) : Inv t := by
  obtain ⟨hr, hm⟩ := tbStepBody_eq_done.mp hb
  obtain ⟨a, b, src, tgt, na, nb, ht, hna, hnb, rfl⟩ := mergeOnce_takes h hr hm
  obtain ⟨-, hnodes, -⟩ := h.memory
  have hcodes : s.codesValid = false := by
    obtain ⟨-, -, -, -, -, htv, hcv⟩ := h.builder
    simpa [hr] using fun hc => htv.mp (hcv hc)
  exact h.of_builderOnly (builderOnly_of_tbStepBody hb) hcodes (tbStepBody_nodes_form hnodes hb)
    (State.merged_forms h hr ht hna hnb)

/-- TB_BUILD keeps the invariant: TB_INIT does, and so does each merge of its loop (42_tree_builder R124). -/
theorem Inv.buildLoop {k : Nat} {s t : State} (h : Inv s) (hb : buildLoop k s = .done t) : Inv t :=
  buildLoop_induction (P := Inv) (fun _ _ hu hv => hu.tbStepBody hv) h hb

end Sys2Proof.Machine
end

section
/-! PROOFS. Every step keeps the whole invariant (10_state R48). -/

namespace Sys2Proof.Machine

variable {s t : State}

/-! ## Errors -/

/-- An error record keeps ERR.CODE, ERR.OP and ERR_INFO zero together when ERR.OP or ERR_INFO is not zero (10_state R48). -/
theorem Inv.raiseError (h : Inv s) (c : ErrCode) {op : BitVec 8} {w : Word} (hne : ¬(op = 0#8 ∧ w = 0#32)) :
    Inv (s.raiseError c op w) := by
  by_cases hclear : s.errCode = 0#8
  · rw [State.raiseError_of_clear hclear]
    exact ⟨h.params, h.lengths, h.memory, ⟨iff_of_false c.code_ne_zero hne, c.code_le⟩, h.table, h.builder, h.tree, h.weights,
      h.queues, h.codes, h.output⟩
  · rwa [State.raiseError_of_recorded hclear]

theorem Inv.clearError (h : Inv s) : Inv s.clearError :=
  ⟨h.params, h.lengths, h.memory, by simp [ErrorForm], h.table, h.builder, h.tree, h.weights, h.queues, h.codes, h.output⟩

/-- The word of all zeros is NOP, so an illegal one is not zero (30_encoding R84). -/
theorem ne_zero_of_decode_error {w : Word} {r : DecodeReject} (h : decode w = .error r) : w ≠ 0#32 := by
  rintro rfl
  cases h

/-! ## Codes and buffers -/

/-- CT_GEN keeps the invariant: its table is the one derived from the tree (43_code_table R140). -/
theorem Inv.putCodes (h : Inv s) (htree : s.treeValid = true) {leaves : List (Symbol × Bits)}
    (hleaves : leafPaths s.nodes s.root = .done leaves) : Inv (s.putCodes (codeTableOf leaves)) := by
  obtain ⟨hft, hnodes, -, hbuffers⟩ := h.memory
  obtain ⟨hsrc, hidle, hbuilding, hrunning, hdone, htv, -⟩ := h.builder
  exact ⟨h.params, h.lengths, ⟨hft, hnodes, codeTableOf_form leaves, hbuffers⟩, h.errors, h.table,
    ⟨hsrc, hidle, hbuilding, hrunning, hdone, htv, fun _ => htree⟩, h.tree, h.weights, h.queues,
    fun _ => by rw [State.putCodes_nodes, State.putCodes_root, hleaves]; rfl, h.output⟩

theorem Inv.putBits (h : Inv s) {b : Bits} (hb : b.length ≤ s.cfg.bitCap) : Inv (s.putBits b) := by
  obtain ⟨hftN, hin, hout, -, hbyte⟩ := h.lengths
  exact ⟨h.params, ⟨hftN, hin, hout, hb, hbyte⟩, h.memory.putBits hb, h.errors, h.table, h.builder, h.tree, h.weights, h.queues,
    h.codes, h.output⟩

theorem Inv.putBytes (h : Inv s) {bs : List Byte} (hbs : bs.length ≤ s.cfg.byteCap) : Inv (s.putBytes bs) := by
  obtain ⟨hftN, hin, hout, hbit, -⟩ := h.lengths
  exact ⟨h.params, ⟨hftN, hin, hout, hbit, hbs⟩, h.memory.putBytes hbs, h.errors, h.table, h.builder, h.tree, h.weights, h.queues,
    h.codes, h.output⟩

theorem Inv.putSymbols (h : Inv s) {out : List Byte} (hout : out.length ≤ s.cfg.symCap) (p : Bool) : Inv (s.putSymbols out p) := by
  obtain ⟨hftN, hin, -, hrest⟩ := h.lengths
  refine ⟨h.params, ⟨hftN, hin, hout, hrest⟩, h.memory.putSymbols hout p, h.errors, h.table, h.builder, h.tree, h.weights, h.queues,
    h.codes, fun i hi => ?_⟩
  have hlt : i < out.length := hi
  rw [State.putSymbols_symOut, Memory.read_writeList, if_pos (by omega)]
  simpa using hlt

/-! ## Commands -/

theorem Finished.keeps_inv {i : Instr} (hf : Finished s i t) (h : Inv s) : Inv t := by
  cases hf with
  | nop => exact h
  | sreset => exact h.resetRegisters
  | clrerr => exact h.clearError
  | ftClear => exact h.clearTable
  | ftAppend hroom hweight htable hnew hlast htotal =>
    obtain rfl := table_eq_of_fetchTable htable
    exact h.appendEntry hroom (h.table.2.append hweight hnew hlast htotal)
  | tbInit htable => exact h.startBuild htable
  | tbStep hbody => exact h.tbStepBody hbody
  | tbBuild htable hloop => exact (h.startBuild htable).buildLoop hloop
  | ctGen htree hleaves => exact h.putCodes htree hleaves
  | pack hcap => exact h.putBytes (by rwa [packBits_length])
  | unpack hb => exact h.putBits (unpackedBits_fits hb)
  | encBits _ hb => exact h.putBits (encodeBits_fits hb)
  | decBits _ hw => exact h.putSymbols (walkBits_fits hw) _
  | encode _ hb hcap => exact (h.putBits (encodeBits_fits hb)).putBytes (by rwa [packBits_length])
  | decode _ hb hw => exact (h.putBits (unpackedBits_fits hb)).putSymbols (walkBits_fits hw) _

theorem exec_keeps_inv {i : Instr} (hx : exec i s = .next t) (h : Inv s) : Inv t := by
  obtain hf | ⟨c, w, hop, rfl⟩ := exec_cases hx
  · exact hf.keeps_inv h
  · exact h.raiseError c fun h0 => hop h0.1

/-! ## The host's actions -/

/-- The invariant says nothing of BUSY, of the actions to come, of what the run has shown or of the free values (log 1, log 3, log 7). -/
theorem Inv.of_run (h : Inv s) (busy : Bool) (busyPolls : Nat) (pending : List HostAction) (shown : List BusResponse) (draws : Nat) :
    Inv { s with busy := busy, busyPolls := busyPolls, pending := pending, shown := shown, draws := draws } :=
  ⟨h.params, h.lengths, h.memory, h.errors, h.table, h.builder, h.tree, h.weights, h.queues, h.codes, h.output⟩

theorem Inv.takeAction (h : Inv s) (rest : List HostAction) : Inv (s.takeAction rest) := h.of_run ..

theorem Inv.respond (h : Inv s) (r : BusResponse) : Inv (s.respond r) := h.of_run ..

theorem Inv.beginCommand (h : Inv s) : Inv s.beginCommand := h.of_run ..

theorem Inv.readStatus (h : Inv s) : Inv s.readStatus := by
  unfold State.readStatus; split_ifs <;> exact h.of_run ..

theorem Inv.hostPoll (h : Inv s) : Inv (hostPoll s) := by
  unfold Machine.hostPoll
  split_ifs
  · exact h.readStatus.of_run ..
  · exact h.readStatus

theorem issue_keeps_inv {w : Word} (hi : issue w s = .next t) (h : Inv s) : Inv t := by
  obtain ⟨-, he⟩ | ⟨-, ⟨r, hr⟩, he⟩ | ⟨-, i, -, he⟩ := issue_cases w s <;> rw [he] at hi
  · cases hi; exact h.beginCommand
  · cases hi; exact h.beginCommand.raiseError _ fun h0 => ne_zero_of_decode_error hr h0.2
  · exact exec_keeps_inv hi h.beginCommand

/-- The invariant asks only a range of the registers the host writes (10_state R22, R37, R39, R40). -/
theorem Inv.of_inputs (h : Inv s) (arg : Word) {symInLen bitLen byteLen : Nat} (hin : symInLen ≤ s.cfg.symCap)
    (hbit : bitLen ≤ s.cfg.bitCap) (hbyte : byteLen ≤ s.cfg.byteCap) :
    Inv { s with arg := arg, symInLen := symInLen, bitLen := bitLen, byteLen := byteLen } :=
  have ⟨hftN, _, hout, _⟩ := h.lengths
  ⟨h.params, ⟨hftN, hin, hout, hbit, hbyte⟩, h.memory, h.errors, h.table, h.builder, h.tree, h.weights, h.queues,
    h.codes, h.output⟩

/-- A register write that lands stays in the register's range (20_memory R54). -/
theorem State.writeReg_keeps_inv {v : Word} {r : Reg} (h : Inv s) (hw : s.writeReg v r = some t) : Inv t := by
  obtain ⟨-, hin, -, hbit, hbyte⟩ := h.lengths
  obtain ⟨-, rfl⟩ | ⟨-, hv, rfl⟩ | ⟨-, hv, rfl⟩ | ⟨-, hv, rfl⟩ := State.writeReg_eq_some hw
  · exact h.of_inputs _ hin hbit hbyte
  · exact h.of_inputs _ hv hbit hbyte
  · exact h.of_inputs _ hin hv hbyte
  · exact h.of_inputs _ hin hbit hv

theorem Inv.setSymIn (h : Inv s) {m : Memory Byte} (hm : MemoryForm (s.setSymIn m)) : Inv (s.setSymIn m) :=
  ⟨h.params, h.lengths, hm, h.errors, h.table, h.builder, h.tree, h.weights, h.queues, h.codes, h.output⟩

theorem Inv.setBits (h : Inv s) {m : Memory Bool} (hm : MemoryForm (s.setBits m)) : Inv (s.setBits m) :=
  ⟨h.params, h.lengths, hm, h.errors, h.table, h.builder, h.tree, h.weights, h.queues, h.codes, h.output⟩

theorem Inv.setBytes (h : Inv s) {m : Memory Byte} (hm : MemoryForm (s.setBytes m)) : Inv (s.setBytes m) :=
  ⟨h.params, h.lengths, hm, h.errors, h.table, h.builder, h.tree, h.weights, h.queues, h.codes, h.output⟩

theorem State.writeLocation_keeps_inv {v : Word} {a : Nat} {l : Location} (h : Inv s) (hl : locate s.cfg a = some l)
    (hw : s.writeLocation v l = some t) : Inv t := by
  have hmemory := (State.writeLocation_keeps_memoryForm h.params h.lengths.1 h.memory hl hw).2
  obtain ⟨r, -, hr⟩ | ⟨k, -, rfl⟩ | ⟨k, -, rfl⟩ | ⟨k, -, rfl⟩ := State.writeLocation_eq_some hw
  · exact State.writeReg_keeps_inv h hr
  · exact h.setSymIn hmemory
  · exact h.setBits hmemory
  · exact h.setBytes hmemory

/-- Settles O56, by the kinds of step: a hardware reset leaves an idle block, a command keeps the invariant when it finishes (each merge of a build by Takes) and when it records an error, a bus write lands within its register's range or its memory, and nothing else changes the block. -/
theorem stepKeepsInv : Obligations.StepKeepsInv := by
  intro s t hs h
  obtain ⟨-, rfl⟩ | ⟨a, rest, -, hact⟩ := step_cases h
  · exact hs
  have hs' := hs.takeAction rest
  obtain ⟨-, rfl⟩ | ⟨-, rfl⟩ | ⟨-, -, rfl⟩ | ⟨-, w, -, hissue⟩ | ⟨-, _, v, b, l, u, -, -, -, hl, hwrite, rfl⟩ | ⟨-, r, rfl⟩ := hact
  · exact hs'.hardwareReset
  · exact hs'.hostPoll
  · exact hs'.readStatus
  · exact issue_keeps_inv hissue (hs'.respond _)
  · exact (State.writeLocation_keeps_inv hs' hl hwrite).respond _
  · exact hs'.respond r

end Sys2Proof.Machine
end

section
/-! PROOFS. The address map by location: where each location stands, and what a whole-word access to it does (20_memory R50 to R54, R64). -/

namespace Sys2Proof.Machine

/-! ## Where each location stands -/

/-- The offset of a location's word (20_memory R53, R55 to R61). -/
def Location.offset : Location → Nat
  | .reg r        => r.offset
  | .ftWord i q   => 0x1000 + 8 * i + 4 * q
  | .nodeWord i q => 0x2000 + 8 * i + 4 * q
  | .codeWord c q => 0x3000 + 32 * c + 4 * q
  | .symIn k      => 0x10000 + 4 * k
  | .symOut k     => 0x20000 + 4 * k
  | .bits k       => 0x30000 + 4 * k
  | .bytes k      => 0x40000 + 4 * k

/-- The locations the map names: the entries of the tables and their words, and the words of a buffer below its capacity, within the 64 KiB its window may take. -/
def Location.Mapped (p : Params) : Location → Prop
  | .reg _               => True
  | .ftWord i q          => i < 128 ∧ q < 2
  | .nodeWord i q        => i < 256 ∧ q < 2
  | .codeWord c q        => c < 128 ∧ q < 8
  | .symIn k | .symOut k => 4 * k < p.symCap ∧ 4 * k < 0x10000
  | .bits k              => 4 * k < p.bitCap / 8 ∧ 4 * k < 0x10000
  | .bytes k             => 4 * k < p.byteCap ∧ 4 * k < 0x10000

/-- The map finds every mapped location at its offset. -/
theorem locate_offset {p : Params} {l : Location} (hl : l.Mapped p) : locate p l.offset = some l := by
  cases l with
  | reg r => exact locate_eq_reg.mpr rfl
  | ftWord i q =>
    obtain ⟨hi, hq⟩ := hl
    rw [Location.offset, locate]
    repeat rw [if_neg (by omega)]
    rw [if_pos (by omega)]
    exact congrArg₂ (fun i q => some (Location.ftWord i q)) (by omega) (by omega)
  | nodeWord i q =>
    obtain ⟨hi, hq⟩ := hl
    rw [Location.offset, locate]
    repeat rw [if_neg (by omega)]
    rw [if_pos (by omega)]
    exact congrArg₂ (fun i q => some (Location.nodeWord i q)) (by omega) (by omega)
  | codeWord c q =>
    obtain ⟨hc, hq⟩ := hl
    rw [Location.offset, locate]
    repeat rw [if_neg (by omega)]
    rw [if_pos (by omega)]
    exact congrArg₂ (fun c q => some (Location.codeWord c q)) (by omega) (by omega)
  | symIn k =>
    obtain ⟨hcap, hk⟩ := hl
    rw [Location.offset, locate]
    repeat rw [if_neg (by omega)]
    rw [if_pos (by omega), if_pos (by omega)]
    exact congrArg (fun k => some (Location.symIn k)) (by omega)
  | symOut k =>
    obtain ⟨hcap, hk⟩ := hl
    rw [Location.offset, locate]
    repeat rw [if_neg (by omega)]
    rw [if_pos (by omega), if_pos (by omega)]
    exact congrArg (fun k => some (Location.symOut k)) (by omega)
  | bits k =>
    obtain ⟨hcap, hk⟩ := hl
    rw [Location.offset, locate]
    repeat rw [if_neg (by omega)]
    rw [if_pos (by omega), if_pos (by omega)]
    exact congrArg (fun k => some (Location.bits k)) (by omega)
  | bytes k =>
    obtain ⟨hcap, hk⟩ := hl
    rw [Location.offset, locate]
    repeat rw [if_neg (by omega)]
    rw [if_pos (by omega), if_pos (by omega)]
    exact congrArg (fun k => some (Location.bytes k)) (by omega)

theorem Location.offset_lt {p : Params} {l : Location} (hl : l.Mapped p) : l.offset < 0x100000 := by
  cases l with
  | reg r => exact Nat.lt_trans r.offset_lt (by decide)
  | _ => simp only [Location.Mapped, Location.offset] at *; omega

theorem Location.offset_mod (l : Location) : l.offset % 4 = 0 := by
  cases l with
  | reg r => exact r.offset_mod
  | _ => simp only [Location.offset]; omega

/-- The register map is full below 0x050 and empty from there on. -/
theorem regAt_eq_none {a : Nat} (ha : a % 4 = 0) : regAt a = none ↔ 0x050 ≤ a := by
  constructor
  · intro hnone
    by_contra hlow
    have hfull : ∀ j < 20, regAt (4 * j) ≠ none := by decide
    exact hfull (a / 4) (by omega) (by rwa [Nat.mul_div_cancel' (Nat.dvd_of_mod_eq_zero ha)])
  · intro hhigh
    by_contra hsome
    obtain ⟨r, hr⟩ := Option.ne_none_iff_exists'.mp hsome
    have := regAt_eq_some hr ▸ r.offset_lt
    omega

/-- Settles O11, by the branches of the map: below 0x1000 the registers fill [0, 0x050), and above it each branch is a window or the gap behind one. -/
theorem unmappedOffsets : Obligations.UnmappedOffsets := by
  intro p a hp ha
  obtain ⟨-, hsym, hbit, hbyte⟩ := hp
  rw [locate]
  repeat' refine iteInduction (motive := fun o : Option Location => o = none ↔ _) (fun _ => ?_) (fun _ => ?_)
  case refine_1 =>
    rw [Option.map_eq_none_iff, regAt_eq_none ha]
    omega
  all_goals simp only [reduceCtorEq, false_iff, true_iff]
  all_goals omega

/-! ## Whole-word accesses -/

/-- A step whose action is a read while BUSY = 0. -/
theorem step_read {s : State} {addr size : Nat} {rest : List HostAction} (hp : s.pending = .read addr size :: rest)
    (hb : s.busy = false) : step s = .next ((s.takeAction rest).respond ((s.takeAction rest).readResponse addr size)) := by
  have hb' : (s.takeAction rest).busy = false := hb
  simp only [step, hp, act, hostRead, hb', Bool.false_eq_true, if_false]

/-- Settles O16: with BUSY = 0 the only state a read reaches is the host's record. -/
theorem busReadsHaveNoSideEffect : Obligations.BusReadsHaveNoSideEffect :=
  fun _ _ _ _ hp hb => step_read hp hb

/-- A word read at a mapped location answers its value, or BUSERR where it has none to read (20_memory R52). -/
theorem State.readResponse_at {s : State} {addr : Nat} (l : Location) (haddr : addr = s.cfg.base + l.offset)
    (hl : l.Mapped s.cfg) : s.readResponse addr 4 = (s.readLocation l).elim readErr readOk := by
  rw [haddr, State.readResponse, offsetOf_base (Location.offset_lt hl)]
  simp only [wordAligned_iff.mpr ⟨rfl, l.offset_mod⟩, if_true, locate_offset hl, Option.bind_some]
  cases s.readLocation l <;> rfl

/-- A write at a mapped location other than CMD lands or answers BUSERR (20_memory R52). -/
theorem writeAt_offset {s : State} {l : Location} (hl : l.Mapped s.cfg) (hcmd : l ≠ .reg .cmd) (v : Word) :
    writeAt s l.offset v = .next ((s.writeLocation v l).elim (s.respond writeErr) (·.respond writeOk)) := by
  unfold writeAt
  rw [locate_offset hl]
  split
  · rename_i h
    exact absurd (Option.some.inj h) hcmd
  · rename_i h
    cases h
    cases s.writeLocation v l <;> rfl
  · rename_i h
    cases h

/-- A step whose action writes a word to a mapped location other than CMD while BUSY = 0. -/
theorem step_write {s : State} {addr : Nat} {v : Word} {rest : List HostAction} (hb : s.busy = false)
    (hp : s.pending = .write addr 4 v :: rest) (l : Location) (haddr : addr = s.cfg.base + l.offset)
    (hl : l.Mapped s.cfg) (hcmd : l ≠ .reg .cmd) :
    step s = .next (((s.takeAction rest).writeLocation v l).elim ((s.takeAction rest).respond writeErr)
      (·.respond writeOk)) := by
  have hb' : (s.takeAction rest).busy = false := hb
  have ho : offsetOf (s.takeAction rest).cfg addr = some l.offset := by
    rw [haddr]; exact offsetOf_base (Location.offset_lt hl)
  simp only [step, hp, act, hostWrite, hb', Bool.false_eq_true, if_false, busWrite, ho,
    wordAligned_iff.mpr ⟨rfl, l.offset_mod⟩, if_true]
  exact writeAt_offset (s := s.takeAction rest) hl hcmd v

/-! ## The registers -/

/-- A read of a register's offset answers its value; only CMD has none (20_memory R53, 10_state R21). -/
theorem State.readResponse_reg (s : State) (r : Reg) :
    s.readResponse (s.cfg.base + r.offset) 4 = (s.readReg r).elim readErr readOk :=
  State.readResponse_at (.reg r) rfl trivial

/-- A step whose action writes a word to a register other than CMD while BUSY = 0. -/
theorem step_writeReg {s : State} {v : Word} {rest : List HostAction} (hb : s.busy = false) (r : Reg) (hcmd : r ≠ .cmd)
    (hp : s.pending = .write (s.cfg.base + r.offset) 4 v :: rest) :
    step s = .next (((s.takeAction rest).writeReg v r).elim ((s.takeAction rest).respond writeErr) (·.respond writeOk)) :=
  step_write hb hp (.reg r) rfl trivial fun h => hcmd (Location.reg.inj h)

/-- The answer to a write that lands exactly when its value is in range (20_memory R54). -/
theorem respond_of_inRange (c : Prop) [Decidable c] (s t : State) :
    (if c then some t else none).elim (s.respond writeErr) (·.respond writeOk) =
      if c then t.respond writeOk else s.respond writeErr := by
  split <;> rfl

/-- Settles O12: what writeReg does with the value at each of the four registers a write can change. -/
theorem lengthRegisterWrites : Obligations.LengthRegisterWrites := by
  intro s v rest hb
  refine ⟨fun hp => ?_, fun hp => ?_, fun hp => ?_, fun hp => ?_⟩
  · rw [step_writeReg hb .symInLen nofun hp]
    exact congrArg _ (respond_of_inRange ..)
  · rw [step_writeReg hb .bitLen nofun hp]
    exact congrArg _ (respond_of_inRange ..)
  · rw [step_writeReg hb .byteLen nofun hp]
    exact congrArg _ (respond_of_inRange ..)
  · exact step_writeReg hb .arg nofun hp

/-! ### The fields of STATUS and ERR -/

/-- The fields of the STATUS layout (10_state R23). -/
theorem statusOf_fields (decPartial codesValid treeValid err busy : Bool) :
    (statusOf decPartial codesValid treeValid err busy).getLsbD 0 = busy ∧
    (statusOf decPartial codesValid treeValid err busy).getLsbD 1 = err ∧
    (statusOf decPartial codesValid treeValid err busy).getLsbD 2 = treeValid ∧
    (statusOf decPartial codesValid treeValid err busy).getLsbD 3 = codesValid ∧
    (statusOf decPartial codesValid treeValid err busy).getLsbD 4 = decPartial ∧
    statusOf decPartial codesValid treeValid err busy >>> 5 = 0#32 := by
  revert decPartial codesValid treeValid err busy
  decide

/-- STATUS.ERR tells whether an error is recorded (10_state R25). -/
theorem State.errFlag_eq (s : State) : s.errFlag = decide (s.errCode ≠ 0#8) := by
  simp [State.errFlag, bne, Bool.beq_eq_decide_eq]

/-- The fields of STATUS (10_state R23). -/
theorem State.statusWord_fields (s : State) :
    s.statusWord.getLsbD 0 = s.busy ∧ s.statusWord.getLsbD 1 = decide (s.errCode ≠ 0#8) ∧
    s.statusWord.getLsbD 2 = s.treeValid ∧ s.statusWord.getLsbD 3 = s.codesValid ∧
    s.statusWord.getLsbD 4 = s.decPartial ∧ s.statusWord >>> 5 = 0#32 := by
  rw [← s.errFlag_eq]
  exact statusOf_fields ..

/-- The fields of ERR (10_state R25). -/
theorem State.errWord_fields (s : State) :
    s.errWord.extractLsb' 0 8 = s.errCode ∧ s.errWord.extractLsb' 8 8 = s.errOp ∧ s.errWord >>> 16 = 0#32 := by
  refine ⟨?_, ?_, ?_⟩
  · simp (disch := decide) only [State.errWord, BitVec.extractLsb'_append_eq_of_add_le]
    exact BitVec.extractLsb'_eq_self
  · simp (disch := decide) only [State.errWord, BitVec.extractLsb'_append_eq_of_add_le, BitVec.extractLsb'_append_eq_of_le]
    exact BitVec.extractLsb'_eq_self
  · refine BitVec.eq_of_getLsbD_eq fun j _ => ?_
    simp (disch := omega) only [State.errWord, BitVec.getLsbD_ushiftRight, BitVec.getLsbD_append, if_neg, BitVec.getLsbD_zero]

/-- Settles O9: each offset is a register's, and the register reads as readReg says. -/
theorem registerMapReads : Obligations.RegisterMapReads := by
  intro s v hv
  simp only [hv]
  refine ⟨s.readResponse_reg .id, s.readResponse_reg .cmd, s.readResponse_reg .arg,
    ⟨_, s.readResponse_reg .status, s.statusWord_fields⟩, ⟨_, s.readResponse_reg .err, s.errWord_fields⟩,
    s.readResponse_reg .errInfo,
    s.readResponse_reg .ftN, s.readResponse_reg .ftTotal, ?_, s.readResponse_reg .tbSrcHead,
    s.readResponse_reg .tbTgtHead, s.readResponse_reg .nodeN, ?_, s.readResponse_reg .symInLen,
    s.readResponse_reg .symOutLen, s.readResponse_reg .bitLen, s.readResponse_reg .byteLen,
    s.readResponse_reg .capSym, s.readResponse_reg .capBit, s.readResponse_reg .capByte⟩
  · exact s.readResponse_reg .tbState
  · rw [BitVec.ofNat_toNat]
    exact s.readResponse_reg .root

end Sys2Proof.Machine
end

section
/-! PROOFS. The layout of a bus word and the windows: lanes and bits, a window write and its readback, the tables (20_memory R55 to R61, R71). -/

namespace Sys2Proof.Machine

/-! ## The lanes of a word -/

theorem laneByte_eq_shift (v : Word) (i : Nat) : laneByte v i = (v >>> (24 - 8 * i)).setWidth 8 := by
  refine BitVec.eq_of_getLsbD_eq fun j hj => ?_
  simp [laneByte, hj]

/-- A word is its four lanes. -/
theorem wordOfBytes_laneByte (v : Word) :
    wordOfBytes (laneByte v 0) (laneByte v 1) (laneByte v 2) (laneByte v 3) = v := by
  unfold wordOfBytes laneByte
  rw [BitVec.extractLsb'_append_extractLsb'_eq_extractLsb' (by rfl),
    BitVec.extractLsb'_append_extractLsb'_eq_extractLsb' (by rfl),
    BitVec.extractLsb'_append_extractLsb'_eq_extractLsb' (by rfl)]
  exact BitVec.extractLsb'_eq_self

/-- Lane i of a word of four bytes is its byte i. -/
theorem laneByte_wordOfBytes (b : Nat → Byte) {i : Nat} (hi : i < 4) :
    laneByte (wordOfBytes (b 0) (b 1) (b 2) (b 3)) i = b i := by
  interval_cases i <;>
    simp (disch := decide) only [laneByte, wordOfBytes, BitVec.extractLsb'_append_eq_of_le,
      BitVec.extractLsb'_append_eq_of_add_le] <;>
    exact BitVec.extractLsb'_eq_self

theorem lanes_getElem? (v : Word) {i : Nat} (hi : i < 4) : (lanes v)[i]? = some (laneByte v i) := by
  interval_cases i <;> rfl

/-! ## The bits of a word -/

theorem wordOfBits_congr {f g : Nat → Bool} (h : ∀ r < 32, f r = g r) : wordOfBits f = wordOfBits g := by
  rw [wordOfBits, wordOfBits, List.map_congr_left fun r hr => h r (List.mem_range.mp hr)]

/-- A word is its thirty-two bits. -/
theorem wordOfBits_getMsbD (v : Word) : wordOfBits (fun r => v.getMsbD r) = v := by
  refine BitVec.eq_of_getMsbD_eq fun r hr => ?_
  rw [wordOfBits, BitVec.getMsbD_setWidth, BitVec.getMsbD_ofBoolListBE]
  simp [List.getD_eq_getElem?_getD, hr]

theorem bitsOfWord_getElem? (v : Word) {r : Nat} (hr : r < 32) : (bitsOfWord v)[r]? = some (v.getMsbD r) := by
  simp [bitsOfWord, hr]

/-- The bits of an appended vector, first bit first. -/
theorem map_getMsbD_append {n m : Nat} (x : BitVec n) (y : BitVec m) :
    (List.range (n + m)).map (x ++ y).getMsbD = (List.range n).map x.getMsbD ++ (List.range m).map y.getMsbD := by
  rw [List.range_add, List.map_append, List.map_map]
  congr 1
  · refine List.map_congr_left fun r hr => ?_
    rw [BitVec.getMsbD_append, if_neg (by simpa using hr)]
  · refine List.map_congr_left fun r _ => ?_
    rw [Function.comp_apply, BitVec.getMsbD_append, if_pos (by omega), Nat.add_sub_cancel_left]

/-- The bits of a word of four bytes are the bytes' expansion (00_scope R11). -/
theorem bitsOfWord_wordOfBytes (b0 b1 b2 b3 : Byte) : bitsOfWord (wordOfBytes b0 b1 b2 b3) = expandAll [b0, b1, b2, b3] :=
  calc bitsOfWord (wordOfBytes b0 b1 b2 b3)
    _ = (List.range (8 + 8 + 8 + 8)).map (b0 ++ b1 ++ b2 ++ b3).getMsbD := rfl
    _ = expand b0 ++ expand b1 ++ expand b2 ++ expand b3 := by
      rw [map_getMsbD_append, map_getMsbD_append, map_getMsbD_append]
      rfl
    _ = expandAll [b0, b1, b2, b3] := by simp

/-! ## Reading a word of a buffer -/

/-- Where the bits of word k are written, the BITS window shows the word they are the bits of. -/
theorem State.readBitWord_eq {s : State} {k : Nat} {w : Word}
    (h : ∀ r < 32, Memory.read s.bits (32 * k + r) = some (w.getMsbD r)) : s.readBitWord k = w := by
  rw [State.readBitWord, wordOfBits_congr (g := fun r => w.getMsbD r) fun r hr => by rw [h r hr]; rfl]
  exact wordOfBits_getMsbD w

/-- A written element shows in its lane. -/
theorem State.byteLane_of_read {s : State} {m : Memory Byte} {k i : Nat} {b : Byte}
    (h : Memory.read m (4 * k + i) = some b) : s.byteLane m k i = b := by
  rw [State.byteLane, h]
  rfl

/-- A lane of a byte window's word is its element's, whatever its neighbours are (20_memory R71). -/
theorem State.laneByte_readByteWord (s : State) (m : Memory Byte) (k : Nat) {i : Nat} (hi : i < 4) :
    laneByte (s.readByteWord m k) i = s.byteLane m k i :=
  laneByte_wordOfBytes (s.byteLane m k) hi

/-- Where the bytes of word k are written, a byte window shows the word they are the lanes of. -/
theorem State.readByteWord_eq {s : State} {m : Memory Byte} {k : Nat} {w : Word}
    (h : ∀ i < 4, Memory.read m (4 * k + i) = some (laneByte w i)) : s.readByteWord m k = w := by
  rw [State.readByteWord, State.byteLane_of_read (h 0 (by decide)), State.byteLane_of_read (h 1 (by decide)),
    State.byteLane_of_read (h 2 (by decide)), State.byteLane_of_read (h 3 (by decide)), wordOfBytes_laneByte]

/-- Settles O15: both windows show the word whose bits are the bytes' expansion. -/
theorem bitsWordEqualsBytesWord : Obligations.BitsWordEqualsBytesWord := by
  intro s k bs hbytes hbits
  obtain ⟨hlen, hbyte⟩ := (Memory.readRange_eq_ok_iff ..).mp hbytes
  obtain ⟨-, hbit⟩ := (Memory.readRange_eq_ok_iff ..).mp hbits
  match bs, hlen with
  | [b0, b1, b2, b3], _ =>
  have hword : s.readByteWord s.bytes k = wordOfBytes b0 b1 b2 b3 := by
    rw [State.readByteWord, State.byteLane_of_read (hbyte 0 (by decide)), State.byteLane_of_read (hbyte 1 (by decide)),
      State.byteLane_of_read (hbyte 2 (by decide)), State.byteLane_of_read (hbyte 3 (by decide))]
  rw [hword]
  refine State.readBitWord_eq fun r hr => ?_
  rw [hbit r hr, ← bitsOfWord_wordOfBytes, bitsOfWord_getElem? _ hr]

/-! ## Writing a word of a buffer -/

/-- A word written to a byte buffer lands lane by lane. -/
theorem Memory.read_writeList_lanes (m : Memory Byte) (k : Nat) (v : Word) {i : Nat} (hi : i < 4) :
    Memory.read (Memory.writeList m (4 * k) (lanes v)) (4 * k + i) = some (laneByte v i) := by
  rw [Memory.read_writeList, if_pos (by simp [hi]), Nat.add_sub_cancel_left, lanes_getElem? v hi]

/-- A word written to BITS lands bit by bit. -/
theorem Memory.read_writeList_bitsOfWord (m : Memory Bool) (k : Nat) (v : Word) {r : Nat} (hr : r < 32) :
    Memory.read (Memory.writeList m (32 * k) (bitsOfWord v)) (32 * k + r) = some (v.getMsbD r) := by
  rw [Memory.read_writeList, if_pos (by simp [hr]), Nat.add_sub_cancel_left, bitsOfWord_getElem? v hr]

/-- What a word written to a byte buffer changes there, and what a byte window then shows (20_memory R58, R61). -/
theorem byteWord_written (m : Memory Byte) (k : Nat) (v : Word) :
    (∀ i < 4, Memory.read (Memory.writeList m (4 * k) (lanes v)) (4 * k + i) = some ((v >>> (24 - 8 * i)).setWidth 8)) ∧
    (∀ i, i < 4 * k ∨ 4 * k + 4 ≤ i → Memory.read (Memory.writeList m (4 * k) (lanes v)) i = Memory.read m i) ∧
    ∀ t : State, t.readByteWord (Memory.writeList m (4 * k) (lanes v)) k = v := by
  refine ⟨fun i hi => ?_, fun i hi => ?_, fun t => ?_⟩
  · rw [← laneByte_eq_shift]
    exact Memory.read_writeList_lanes m k v hi
  · exact Memory.read_writeList_outside m hi
  · exact State.readByteWord_eq fun i hi => Memory.read_writeList_lanes m k v hi

/-- What a word written to BITS leaves there, as some contents m, and what the BITS window then shows (20_memory R60). -/
theorem State.writeLocation_bits (s : State) (k : Nat) (v : Word) :
    ∃ m, s.writeLocation v (.bits k) = some (s.setBits m) ∧
      (∀ r < 32, Memory.read m (32 * k + r) = some (v.getLsbD (31 - r))) ∧
      (∀ r, r < 32 * k ∨ 32 * k + 32 ≤ r → Memory.read m r = Memory.read s.bits r) ∧
      ∀ t : State, t.bits = m → t.readBitWord k = v := by
  refine ⟨_, rfl, fun r hr => ?_, fun r hr => ?_, fun t ht => ?_⟩
  · rw [Memory.read_writeList_bitsOfWord s.bits k v hr, BitVec.getMsbD, decide_eq_true hr, Bool.true_and]
  · exact Memory.read_writeList_outside s.bits (by simpa using hr)
  · exact State.readBitWord_eq fun r hr => ht ▸ Memory.read_writeList_bitsOfWord s.bits k v hr

/-- A step whose action writes a word that lands at a mapped location, and the word read there afterwards. -/
theorem step_write_lands {s u : State} {addr : Nat} {v : Word} {rest : List HostAction} {l : Location}
    (hb : s.busy = false) (hp : s.pending = .write addr 4 v :: rest) (haddr : addr = s.cfg.base + l.offset)
    (hl : l.Mapped s.cfg) (hcmd : l ≠ .reg .cmd) (hw : (s.takeAction rest).writeLocation v l = some u) :
    step s = .next (u.respond writeOk) ∧
      ∀ w, (u.respond writeOk).readLocation l = some w → (u.respond writeOk).readResponse addr 4 = readOk w := by
  have hcfg : u.cfg = (s.takeAction rest).cfg := State.writeLocation_cfg hw
  constructor
  · rw [step_write hb hp l haddr hl hcmd, hw]
    rfl
  · intro w hread
    rw [State.readResponse_at l (by simpa [hcfg] using haddr) (by simpa [hcfg] using hl), hread]
    rfl

/-- Settles O13: the write lands at the window's location, and the memory laws say what it left there. -/
theorem windowWriteReadsBack : Obligations.WindowWriteReadsBack := by
  intro s k v rest hwf hb
  obtain ⟨-, ⟨-, -, hsym⟩, ⟨hbit32, -, hbit⟩, -, -, hbyte⟩ := hwf
  refine ⟨fun hk hp => ?_, fun hk hp => ?_, fun hk hp => ?_⟩
  · obtain ⟨hlands, hframe, hback⟩ := byteWord_written s.symIn k v
    obtain ⟨hstep, hread⟩ := step_write_lands (l := .symIn k) hb hp (Nat.add_assoc ..) ⟨hk, by omega⟩ nofun rfl
    exact ⟨_, hstep, rfl, hlands, hframe, hread v (congrArg some (hback _))⟩
  · obtain ⟨m, hwrite, hlands, hframe, hback⟩ := (s.takeAction rest).writeLocation_bits k v
    obtain ⟨hstep, hread⟩ := step_write_lands (l := .bits k) hb hp (Nat.add_assoc ..) ⟨by omega, by omega⟩ nofun hwrite
    exact ⟨_, hstep, rfl, hlands, hframe, hread v (congrArg some (hback _ rfl))⟩
  · obtain ⟨hlands, hframe, hback⟩ := byteWord_written s.bytes k v
    obtain ⟨hstep, hread⟩ := step_write_lands (l := .bytes k) hb hp (Nat.add_assoc ..) ⟨hk, by omega⟩ nofun rfl
    exact ⟨_, hstep, rfl, hlands, hframe, hread v (congrArg some (hback _))⟩

/-! ## The words of the tables -/

/-- The fields of a node's word 1 (20_memory R56). -/
theorem Node.linkWord_fields (nd : Node) :
    nd.linkWord.getLsbD 31 = nd.valid ∧ nd.linkWord.getLsbD 30 = nd.leaf ∧ nd.linkWord.extractLsb' 23 7 = 0#7 ∧
    nd.linkWord.extractLsb' 16 7 = nd.sym ∧ nd.linkWord.extractLsb' 8 8 = nd.left ∧
    nd.linkWord.extractLsb' 0 8 = nd.right := by
  simp (disch := decide) only [Node.linkWord, BitVec.getLsbD_append, BitVec.extractLsb'_append_eq_of_le,
    BitVec.extractLsb'_append_eq_of_add_le]
  refine ⟨by simp, by simp, rfl, ?_, ?_, ?_⟩ <;> exact BitVec.extractLsb'_eq_self

/-- The fields of a code entry's word 0 (20_memory R57). -/
theorem CodeEntry.busWord_zero_fields (e : CodeEntry) :
    (e.busWord 0).getLsbD 31 = e.valid ∧ (e.busWord 0).extractLsb' 8 23 = 0#23 ∧ (e.busWord 0).extractLsb' 0 8 = e.len := by
  simp (disch := decide) only [CodeEntry.busWord, if_true, BitVec.getLsbD_append, BitVec.extractLsb'_append_eq_of_le,
    BitVec.extractLsb'_append_eq_of_add_le]
  exact ⟨by simp, rfl, BitVec.extractLsb'_eq_self⟩

/-- The code bits of words 1 to 4, the first code bit at bit 31 of word 1 (20_memory R57). -/
theorem CodeEntry.busWord_code (e : CodeEntry) {q r : Nat} (hlo : 1 ≤ q) (hhi : q ≤ 4) (hr : r < 32) :
    (e.busWord q).getLsbD (31 - r) = e.code.getMsbD (32 * (q - 1) + r) := by
  rw [CodeEntry.busWord, if_neg (by omega), if_pos hhi, BitVec.getLsbD_extractLsb', BitVec.getMsbD]
  have hin : 31 - r < 32 ∧ 32 * (q - 1) + r < 128 := by omega
  simp only [hin, decide_true, Bool.true_and]
  congr 1
  omega

/-- Words 5 to 7 of a code entry are 0 (20_memory R57). -/
theorem CodeEntry.busWord_high (e : CodeEntry) {q : Nat} (hq : 5 ≤ q) : e.busWord q = 0#32 := by
  rw [CodeEntry.busWord, if_neg (by omega), if_neg (by omega)]

/-! ## The windows -/

section Windows

variable {s : State} {addr : Nat}

theorem State.readResponse_ft {i q : Nat} (hi : i < 128) (hq : q < 2) (haddr : addr = s.cfg.base + (0x1000 + 8 * i + 4 * q)) :
    s.readResponse addr 4 = readOk (s.readFtWord i q) :=
  State.readResponse_at (.ftWord i q) haddr ⟨hi, hq⟩

theorem State.readResponse_node {i q : Nat} (hi : i < 256) (hq : q < 2)
    (haddr : addr = s.cfg.base + (0x2000 + 8 * i + 4 * q)) : s.readResponse addr 4 = readOk (s.readNodeWord i q) :=
  State.readResponse_at (.nodeWord i q) haddr ⟨hi, hq⟩

theorem State.readResponse_code {c q : Nat} (hc : c < 128) (hq : q < 8)
    (haddr : addr = s.cfg.base + (0x3000 + 32 * c + 4 * q)) : s.readResponse addr 4 = readOk (s.readCodeWord c q) :=
  State.readResponse_at (.codeWord c q) haddr ⟨hc, hq⟩

theorem State.readResponse_symOut {k : Nat} (hwf : s.cfg.wf) (hk : 4 * k < s.cfg.symCap)
    (haddr : addr = s.cfg.base + (0x20000 + 4 * k)) : s.readResponse addr 4 = readOk (s.readByteWord s.symOut k) := by
  obtain ⟨-, ⟨-, -, hsym⟩, -⟩ := hwf
  exact State.readResponse_at (.symOut k) haddr ⟨hk, by omega⟩

theorem State.readFtWord_of_read {i : Nat} {e : FtEntry} (h : Memory.read s.ft i = some e) (hi : i < s.ftN) (q : Nat) :
    s.readFtWord i q = if q = 0 then e.symWord else e.weight := by
  rw [State.readFtWord, if_pos hi, h]
  rfl

theorem State.readFtWord_above {i : Nat} (hi : s.ftN ≤ i) (q : Nat) : s.readFtWord i q = 0#32 :=
  if_neg (Nat.not_lt.mpr hi)

theorem State.readNodeWord_of_read {i : Nat} {nd : Node} (h : Memory.read s.nodes i = some nd) (hi : i ≤ 254) (q : Nat) :
    s.readNodeWord i q = if q = 0 then nd.weight else nd.linkWord := by
  rw [State.readNodeWord, if_pos hi, h]
  rfl

theorem State.readCodeWord_of_read {c : Nat} {e : CodeEntry} (h : Memory.read s.codes c = some e) (q : Nat) :
    s.readCodeWord c q = e.busWord q := by
  rw [State.readCodeWord, h]
  rfl

/-- A written node's link word, or a free one: of the layout of 20_memory R56 either way. -/
theorem State.readNodeWord_one {i : Nat} (hi : i ≤ 254) : ∃ nd : Node, s.readNodeWord i 1 = nd.linkWord :=
  ⟨_, if_pos hi⟩

end Windows

/-- Settles O14, window by window: each word is the location's, and its fields are those of the element's word. -/
theorem tableWindowLayout : Obligations.TableWindowLayout := by
  intro s
  refine ⟨?ftEntry, ?ftAbove, ?nodeSlot, ?lastSlot, ?codeEntry, ?codeHigh, ?codeGap, ?nodeGap, ?symOutLane⟩
  case ftEntry =>
    intro i e hi he hn
    rw [State.readResponse_ft hi (q := 0) (by decide) (by omega), State.readResponse_ft hi (q := 1) (by decide) (by omega),
      State.readFtWord_of_read he hn, State.readFtWord_of_read he hn]
    exact ⟨rfl, rfl⟩
  case ftAbove =>
    intro i hi hn
    rw [State.readResponse_ft hi (q := 0) (by decide) (by omega), State.readResponse_ft hi (q := 1) (by decide) (by omega),
      State.readFtWord_above hn, State.readFtWord_above hn]
    exact ⟨rfl, rfl⟩
  case nodeSlot =>
    intro i nd hi hnd
    rw [State.readResponse_node (i := i) (q := 0) (by omega) (by decide) (by omega),
      State.readResponse_node (i := i) (q := 1) (by omega) (by decide) (by omega), State.readNodeWord_of_read hnd hi,
      State.readNodeWord_of_read hnd hi]
    exact ⟨rfl, _, rfl, nd.linkWord_fields⟩
  case lastSlot =>
    exact ⟨State.readResponse_node (i := 255) (q := 0) (by decide) (by decide) (by omega),
      State.readResponse_node (i := 255) (q := 1) (by decide) (by decide) (by omega)⟩
  case codeEntry =>
    intro c e hc he
    refine ⟨⟨_, ?_, e.busWord_zero_fields⟩, fun q hlo hhi => ⟨_, ?_, fun r => e.busWord_code hlo hhi⟩⟩
    · rw [State.readResponse_code hc (q := 0) (by decide) (by omega), State.readCodeWord_of_read he]
    · rw [State.readResponse_code hc (q := q) (by omega) (by omega), State.readCodeWord_of_read he]
  case codeHigh =>
    intro c q hc hlo hhi
    rw [State.readResponse_code hc (q := q) (by omega) (by omega), State.readCodeWord, CodeEntry.busWord_high _ hlo]
  case codeGap =>
    intro c hc
    obtain ⟨-, hgap, -⟩ := CodeEntry.busWord_zero_fields ((Memory.read s.codes c).getD (freeCodeEntry s.draws))
    exact ⟨_, State.readResponse_code hc (q := 0) (by decide) (by omega), hgap⟩
  case nodeGap =>
    intro i hi
    obtain ⟨nd, hnd⟩ := State.readNodeWord_one (s := s) hi
    obtain ⟨-, -, hgap, -⟩ := nd.linkWord_fields
    exact ⟨_, State.readResponse_node (i := i) (q := 1) (by omega) (by decide) (by omega), hnd ▸ hgap⟩
  case symOutLane =>
    intro k hwf hk
    refine ⟨_, State.readResponse_symOut hwf hk (by omega), fun i b hi hb => ?_⟩
    exact (State.laneByte_readByteWord s s.symOut k hi).trans (State.byteLane_of_read hb)

end Sys2Proof.Machine
end

section
/-! PROOFS. Command words: what a word of each opcode decodes to, and that decode and encode undo each other (30_encoding R80 to R86). -/

namespace Sys2Proof

/-! ## The commands by format -/

/-- The commands of format N, in the order of the opcode map (30_encoding R80, R84). -/
def formatNCommands : List Instr :=
  [.nop, .sreset, .clrerr, .ftClear, .tbInit, .tbStep, .tbBuild, .ctGen, .pack, .unpack, .encBits, .decBits, .encode, .decode]

/-- The opcodes of format N. -/
def formatNOpcodes : List Nat := formatNCommands.map fun i => i.opcode.toNat

/-- FT_APPEND is the one command of format S. -/
theorem Instr.formatN_or_ftAppend (i : Instr) : i ∈ formatNCommands ∨ ∃ sym, i = .ftAppend sym := by
  cases i with
  | ftAppend sym => exact .inr ⟨sym, rfl⟩
  | _ => exact .inl (by decide)

/-- A command of format N has no operand (30_encoding R83). -/
theorem operandField_of_formatN {i : Instr} (hi : i ∈ formatNCommands) : i.operandField = 0#24 ∧ i.WellFormed := by
  revert i
  decide

theorem exists_formatN_of_opcode {op : BitVec 8} (h : op.toNat ∈ formatNOpcodes) : ∃ i ∈ formatNCommands, op = i.opcode := by
  obtain ⟨i, hi, hop⟩ := List.mem_map.mp h
  exact ⟨i, hi, BitVec.eq_of_toNat_eq hop.symm⟩

/-! ## The fields of a word -/

/-- OPCODE as the shifted word (30_encoding R81). -/
theorem opcodeField_toNat (w : Word) : (opcodeField w).toNat = (w >>> 24).toNat := by
  have := w.isLt
  simp only [opcodeField, BitVec.extractLsb'_toNat, BitVec.toNat_ushiftRight]
  omega

theorem bitVec_append_eq_append_iff {n m : Nat} {x x' : BitVec n} {y y' : BitVec m} : x ++ y = x' ++ y' ↔ x = x' ∧ y = y' := by
  constructor
  · intro h
    have hleft := congrArg (BitVec.extractLsb' m n) h
    have hright := congrArg (BitVec.extractLsb' 0 m) h
    rw [BitVec.extractLsb'_append_eq_left, BitVec.extractLsb'_append_eq_left] at hleft
    rw [BitVec.extractLsb'_append_eq_right, BitVec.extractLsb'_append_eq_right] at hright
    exact ⟨hleft, hright⟩
  · rintro ⟨rfl, rfl⟩
    rfl

/-- A word is a command's exactly when its opcode and its operand bits are (30_encoding R80). -/
theorem eq_encode_iff {w : Word} {i : Instr} : w = encode i ↔ opcodeField w = i.opcode ∧ w.extractLsb' 0 24 = i.operandField := by
  have hfields : w = opcodeField w ++ w.extractLsb' 0 24 := 
    (BitVec.extractLsb'_append_extractLsb' (w := 8) (len := 24)).symm
  rw [← bitVec_append_eq_append_iff, ← hfields, encode]

/-- The operand bits of a word are a symbol's exactly when its must-be-0 bits are 0 and SYM is the symbol (30_encoding R80, R82). -/
theorem operand_eq_ftAppend_iff {w : Word} {sym : Nat} (hsym : sym ≤ 127) :
    w.extractLsb' 0 24 = (Instr.ftAppend sym).operandField ↔ w.extractLsb' 7 17 = 0#17 ∧ (w.extractLsb' 0 7).toNat = sym := by
  have hfields : w.extractLsb' 0 24 = w.extractLsb' 7 17 ++ w.extractLsb' 0 7 :=
    (BitVec.extractLsb'_append_extractLsb'_eq_extractLsb' (len₁ := 7) (len₂ := 17) rfl).symm
  rw [hfields, Instr.operandField, bitVec_append_eq_append_iff, BitVec.toNat_eq (x := w.extractLsb' 0 7), BitVec.toNat_ofNat,
    Nat.mod_eq_of_lt (by omega)]

/-! ## The decoder by opcode -/

theorem decode_formatN {w : Word} {i : Instr} (hi : i ∈ formatNCommands) (hop : opcodeField w = i.opcode) :
    decode w = formatN w i := by
  rw [decode, hop]
  cases i with
  | ftAppend sym => exact absurd hi (by simp [formatNCommands])
  | _ => rfl

theorem decode_formatS {w : Word} (hop : opcodeField w = 0x11#8) : decode w = formatS w .ftAppend := by
  rw [decode, hop]
  rfl

/-- An opcode of neither format is reserved (30_encoding R85). -/
theorem decode_reserved {w : Word} (hN : (opcodeField w).toNat ∉ formatNOpcodes) (hS : (opcodeField w).toNat ≠ 0x11) :
    decode w = .error .reservedOpcode := by
  unfold decode
  split
  case h_5 hop => exact absurd hop hS
  case h_16 => rfl
  all_goals exact absurd (by rw [‹(opcodeField w).toNat = _›]; decide) hN

theorem formatN_eq_ok {w : Word} {i j : Instr} : formatN w i = .ok j ↔ w.extractLsb' 0 24 = 0#24 ∧ i = j := by
  unfold formatN
  split <;> simp [*]

theorem formatS_eq_ok {w : Word} {make : Nat → Instr} {j : Instr} :
    formatS w make = .ok j ↔ w.extractLsb' 7 17 = 0#17 ∧ make (w.extractLsb' 0 7).toNat = j := by
  unfold formatS
  split <;> simp [*]

/-- A word of format N with a must-be-0 bit set (30_encoding R86). -/
theorem decode_formatN_mustBeZero {w : Word} (hop : (opcodeField w).toNat ∈ formatNOpcodes) (hbits : w.extractLsb' 0 24 ≠ 0#24) :
    decode w = .error .mustBeZero := by
  obtain ⟨i, hi, hi'⟩ := exists_formatN_of_opcode hop
  rw [decode_formatN hi hi', formatN, if_neg hbits]

/-- A word of format S with a must-be-0 bit set (30_encoding R86). -/
theorem decode_formatS_mustBeZero {w : Word} (hop : (opcodeField w).toNat = 0x11) (hbits : w.extractLsb' 7 17 ≠ 0#17) :
    decode w = .error .mustBeZero := by
  rw [decode_formatS (BitVec.eq_of_toNat_eq hop), formatS, if_neg hbits]

/-! ## Decode and encode -/

/-- A decoded word is the encoding of its command, and the command is well formed: by the opcode's format. -/
theorem encode_of_decode {w : Word} {i : Instr} (h : decode w = .ok i) : i.WellFormed ∧ w = encode i := by
  by_cases hN : (opcodeField w).toNat ∈ formatNOpcodes
  · obtain ⟨j, hj, hop⟩ := exists_formatN_of_opcode hN
    obtain ⟨hoperand, hwf⟩ := operandField_of_formatN hj
    obtain ⟨hzero, rfl⟩ := formatN_eq_ok.mp (decode_formatN hj hop ▸ h)
    exact ⟨hwf, eq_encode_iff.mpr ⟨hop, hzero.trans hoperand.symm⟩⟩
  by_cases hS : (opcodeField w).toNat = 0x11
  · have hop : opcodeField w = 0x11#8 := BitVec.eq_of_toNat_eq hS
    obtain ⟨hzero, rfl⟩ := formatS_eq_ok.mp (decode_formatS hop ▸ h)
    have hsym : (w.extractLsb' 0 7).toNat ≤ 127 := Nat.le_of_lt_succ (w.extractLsb' 0 7).isLt
    exact ⟨decide_eq_true hsym, eq_encode_iff.mpr ⟨hop, (operand_eq_ftAppend_iff hsym).mpr ⟨hzero, rfl⟩⟩⟩
  · cases (decode_reserved hN hS).symm.trans h

/-- A well-formed command is read back from its word: its opcode selects its format, which finds its operand. -/
theorem decode_encode {i : Instr} (hwf : i.WellFormed) : decode (encode i) = .ok i := by
  obtain ⟨hop, hoperand⟩ := eq_encode_iff.mp (rfl : encode i = encode i)
  obtain hi | ⟨sym, rfl⟩ := i.formatN_or_ftAppend
  · rw [decode_formatN hi hop]
    exact formatN_eq_ok.mpr ⟨hoperand.trans (operandField_of_formatN hi).1, rfl⟩
  · obtain ⟨hzero, hsym⟩ := (operand_eq_ftAppend_iff (of_decide_eq_true hwf)).mp hoperand
    rw [decode_formatS hop]
    exact formatS_eq_ok.mpr ⟨hzero, congrArg _ hsym⟩

/-- Settles O1: a decoded word is its command's encoding, and a well-formed command's encoding decodes to it. -/
theorem decodeInvertsEncode : Obligations.DecodeInvertsEncode := by
  intro w i
  constructor
  · exact encode_of_decode
  · rintro ⟨hwf, rfl⟩
    exact decode_encode hwf

/-! ## The words of the opcode map -/

/-- FT_APPEND's word as the opcode map writes it (30_encoding R84). -/
theorem encode_ftAppend {sym : Nat} (hsym : sym ≤ 127) : encode (.ftAppend sym) = 0x11000000#32 ||| BitVec.ofNat 32 sym := by
  apply BitVec.eq_of_toNat_eq
  simp only [encode, Instr.opcode, Instr.operandField, BitVec.toNat_append, BitVec.toNat_or, BitVec.toNat_ofNat]
  rw [Nat.mod_eq_of_lt (show sym < 2 ^ 7 by omega), Nat.mod_eq_of_lt (show sym < 2 ^ 32 by omega)]
  simp

/-- Settles O2: the fixed words are read by evaluation, FT_APPEND's word is its encoding, and an opcode outside the map is of neither format. -/
theorem opcodeMapWords : Obligations.OpcodeMapWords := by
  refine ⟨by decide, fun sym hsym => ?_, fun w hw => ?_⟩
  · rw [← encode_ftAppend hsym]
    exact decode_encode (decide_eq_true hsym)
  · rw [← opcodeField_toNat] at hw
    have hN : formatNOpcodes ⊆ [0x00, 0x01, 0x02, 0x10, 0x11, 0x20, 0x21, 0x22, 0x30, 0x40, 0x41, 0x50, 0x51, 0x52, 0x53] := by
      decide
    exact decode_reserved (fun h => hw (hN h)) fun h => hw (by rw [h]; decide)

end Sys2Proof
end

section
/-! PROOFS. The CMD write by what its word decodes to (30_encoding R85 to R87, 60_exceptions R205), and the end of POLL (30_encoding R90, 70_reset R240, R244). -/

namespace Sys2Proof.Machine

/-! ## Command issue -/

/-- With no error recorded the gate holds nothing (60_exceptions R205). -/
theorem State.gated_of_clear {s : State} (h : s.errCode = 0#8) (op : BitVec 8) : s.gated op = false := by
  simp [State.gated, State.errFlag, h]

/-- The gate lets NOP, SRESET and CLRERR through (60_exceptions R205). -/
theorem State.gated_of_ungated (s : State) {op : BitVec 8} (h : ungated op = true) : s.gated op = false := by
  simp [State.gated, h]

/-- A CMD write that the gate lets through runs the command of its word (30_encoding R87). -/
theorem step_command {s : State} {w : Word} {rest : List HostAction} {i : Instr} (hp : s.pending = cmdWrite s.cfg w :: rest)
    (hb : s.busy = false) (hg : s.gated (opcodeField w) = false) (hd : decode w = .ok i) :
    step s = exec i (s.atCommand rest) := by
  have hg' : ((s.takeAction rest).respond writeOk).gated (opcodeField w) = false := hg
  simp only [step_cmdWrite hp hb, issue, hg', hd, Bool.false_eq_true, if_false]
  rfl

/-- With no error recorded a CMD write of a word that is no command raises ILLEGAL_CMD and has no other effect (30_encoding R85, R86). -/
theorem step_illegal {s : State} {w : Word} {rest : List HostAction} {r : DecodeReject} (hp : s.pending = cmdWrite s.cfg w :: rest)
    (hb : s.busy = false) (hclear : s.errCode = 0#8) (hd : decode w = .error r) :
    step s = .next { s.atCommand rest with errCode := 0x01#8, errOp := opcodeField w, errInfo := w } := by
  have hg : ((s.takeAction rest).respond writeOk).gated (opcodeField w) = false := State.gated_of_clear hclear _
  simp only [step_cmdWrite hp hb, issue, hg, hd, Bool.false_eq_true, if_false]
  exact congrArg _ (State.raiseError_of_clear (s := s.atCommand rest) hclear .illegalCmd _ w)

/-- Settles O3: the word is its command's encoding, so its opcode is the command's, and the gate lets it through. -/
theorem cmdWriteRunsDecodedCommand : Obligations.CmdWriteRunsDecodedCommand := by
  intro s w rest i hp hb hd hgate
  have hop : opcodeField w = i.opcode := (eq_encode_iff.mp (encode_of_decode hd).2).1
  refine step_command hp hb ?_ hd
  rw [hop]
  obtain hclear | rfl | rfl | rfl := hgate
  · exact State.gated_of_clear hclear _
  all_goals exact s.gated_of_ungated rfl

/-- Settles O4: no opcode of a format lies in the reserved ranges. -/
theorem reservedOpcodeIsIllegal : Obligations.ReservedOpcodeIsIllegal := by
  intro s w rest hp hb hclear hreserved
  rw [← opcodeField_toNat] at hreserved
  have hN : ∀ n ∈ formatNOpcodes, ¬ReservedOpcode n := by decide
  exact step_illegal hp hb hclear (decode_reserved (fun h => hN _ h hreserved) fun h => by omega)

/-- Settles O5, by the opcode's format. -/
theorem mustBeZeroBitIsIllegal : Obligations.MustBeZeroBitIsIllegal := by
  intro s w rest hp hb hclear hbits
  rw [← opcodeField_toNat] at hbits
  obtain ⟨hop, hbits⟩ | ⟨hop, hbits⟩ := hbits
  · exact step_illegal hp hb hclear (decode_formatN_mustBeZero hop hbits)
  · exact step_illegal hp hb hclear (decode_formatS_mustBeZero hop hbits)

/-! ## POLL -/

/-- A POLL that has ended: BUSY is 0 and was seen to be, and only the model's counters and the host's record have changed besides (30_encoding R90). -/
def PollEnded (s t : State) (rest : List HostAction) : Prop :=
  t = { s with busy := false, busyPolls := t.busyPolls, pending := rest, shown := t.shown, draws := t.draws } ∧
  ∃ (x : Word) (seen : List BusResponse), t.shown = readOk x :: (seen ++ s.shown) ∧ x.getLsbD 0 = false

theorem step_poll {s : State} {rest : List HostAction} (hp : s.pending = .poll :: rest) :
    step s = .next (hostPoll (s.takeAction rest)) := by
  simp only [step, hp, act]

theorem core_run_succ {s u : State} (h : step s = .next u) (n : Nat) : core.run (n + 1) s = core.run n u := by
  have hcore : core.step s = .next u := h
  simp only [Host.Core.run, hcore]

theorem State.endBusy_of_idle {s : State} (h : s.busy = false) : s.endBusy = s := by
  rw [State.endBusy, ← h]

/-- The STATUS read that shows BUSY = 0: none runs, or no more reads find the command running (70_reset R240). -/
theorem State.readStatus_ended {s : State} (h : s.busy = false ∨ s.busyPolls = 0) :
    s.readStatus = s.endBusy.respond (readOk s.endBusy.statusWord) := by
  cases hb : s.busy with
  | false => simp only [State.readStatus, hb, Bool.false_eq_true, if_false, State.endBusy_of_idle hb]
  | true =>
    have hpolls : s.busyPolls = 0 := h.resolve_left (by simp [hb])
    simp only [State.readStatus, hb, hpolls, if_true]

theorem State.readStatus_running {s : State} (hb : s.busy = true) (hpolls : s.busyPolls ≠ 0) :
    s.readStatus = s.countPoll.respond (readOk s.busyStatusWord) := by
  simp only [State.readStatus, hb, hpolls, if_true, if_false]

/-- The read that finds the command finished ends the POLL (70_reset R240). -/
theorem pollEnded_hostPoll {s : State} (h : s.busy = false ∨ s.busyPolls = 0) (rest : List HostAction) :
    PollEnded s (hostPoll (s.takeAction rest)) rest := by
  rw [hostPoll, State.readStatus_ended (s := s.takeAction rest) h]
  exact ⟨rfl, _, [], rfl, (State.statusWord_fields _).1⟩

/-- A read that finds BUSY = 1 leaves the POLL to do (log 24). -/
theorem hostPoll_running {s : State} (hb : s.busy = true) (hpolls : s.busyPolls ≠ 0) :
    hostPoll s = (s.countPoll.respond (readOk s.busyStatusWord)).requeue .poll := by
  rw [hostPoll, State.readStatus_running hb hpolls]
  exact if_pos hb

/-- A read that finds BUSY = 1 takes no part in how the POLL ends. -/
theorem PollEnded.of_running {s t : State} {rest : List HostAction} {r : BusResponse}
    (h : PollEnded (((s.takeAction rest).countPoll.respond r).requeue .poll) t rest) : PollEnded s t rest := by
  obtain ⟨ht, x, seen, hshown, hx⟩ := h
  exact ⟨ht, x, seen ++ [r], hshown.trans (by rw [List.append_assoc]; rfl), hx⟩

/-- A POLL ends: by induction on the reads that still find BUSY = 1 (70_reset R244, log 3). -/
theorem poll_terminates {s : State} {rest : List HostAction} (hp : s.pending = .poll :: rest) :
    ∃ (n : Nat) (t : State), core.run n s = .next t ∧ PollEnded s t rest := by
  induction hk : s.busyPolls generalizing s with
  | zero => exact ⟨1, _, core_run_succ (step_poll hp) 0, pollEnded_hostPoll (.inr hk) rest⟩
  | succ k ih =>
    cases hb : s.busy with
    | false => exact ⟨1, _, core_run_succ (step_poll hp) 0, pollEnded_hostPoll (.inl hb) rest⟩
    | true =>
      have hstep := step_poll hp
      rw [hostPoll_running (s := s.takeAction rest) hb (hk.trans_ne k.succ_ne_zero)] at hstep
      have hpolls : (s.takeAction rest).countPoll.busyPolls = k := congrArg (· - 1) hk
      obtain ⟨n, t, hrun, ht⟩ :=
        ih (s := ((s.takeAction rest).countPoll.respond (readOk (s.takeAction rest).busyStatusWord)).requeue .poll) rfl hpolls
      exact ⟨n + 1, t, (core_run_succ hstep n).trans hrun, ht.of_running⟩

/-- Settles O18: the state in which a POLL has ended is the one the statement describes. -/
theorem pollTerminates : Obligations.PollTerminates := by
  intro s rest hp
  obtain ⟨n, t, hrun, ht, hshown⟩ := poll_terminates hp
  exact ⟨n, t, hrun, congrArg State.busy ht, congrArg State.pending ht, ht, hshown⟩

end Sys2Proof.Machine
end

section
/-! PROOFS. The commands that complete in every state: NOP, SRESET, CLRERR and FT_CLEAR (40_control R100 to R102, 41_freq_table R111). -/

namespace Sys2Proof.Machine

/-! ## What each of them runs -/

@[simp] theorem exec_nop (s : State) : exec .nop s = .next s := rfl
@[simp] theorem exec_sreset (s : State) : exec .sreset s = .next s.resetRegisters := rfl
@[simp] theorem exec_clrerr (s : State) : exec .clrerr s = .next s.clearError := rfl
@[simp] theorem exec_ftClear (s : State) : exec .ftClear s = .next s.clearTable := rfl

/-! ## The state they leave -/

/-- FT_CLEAR empties the table by its count alone, and InvalidateTree withdraws the tree and the codes (41_freq_table R110, R111). -/
theorem State.clearTable_eq (s : State) : s.clearTable =
    { s with ftN := 0, tbState := .idle, srcHead := 0, tgtHead := 0, nodeN := 0, root := 0xFF#8,
             treeValid := false, codesValid := false } := rfl

/-- A soft reset is a hardware reset that keeps the memories (70_reset R232); BUSY, the host's actions and the draws are not SRESET's to write. -/
theorem State.resetRegisters_eq_resetWith (s : State) : s.resetRegisters =
    { State.resetWith s.cfg with
      busy := s.busy, busyPolls := s.busyPolls, ft := s.ft, nodes := s.nodes, codes := s.codes, symIn := s.symIn, symOut := s.symOut,
      bits := s.bits, bytes := s.bytes, pending := s.pending, shown := s.shown, draws := s.draws } := rfl

/-- Settles O21: each command's update, written out field by field. -/
theorem controlCommandResults : Obligations.ControlCommandResults := by
  intro s
  refine ⟨exec_nop s, exec_clrerr s, ?ftClear, ?sreset⟩
  case ftClear => rw [exec_ftClear, State.clearTable_eq]
  case sreset => rw [exec_sreset, State.resetRegisters_eq_resetWith]

end Sys2Proof.Machine
end

section
/-! PROOFS. FT_APPEND by its five checks (41_freq_table R112, 60_exceptions R206). -/

namespace Sys2Proof.Machine

/-! ## The checks that read the table -/

theorem indexOfSymbol_eq_none {c : Symbol} {table : List FtEntry} :
    indexOfSymbol c table = none ↔ ∀ e ∈ table, e.sym ≠ c := by
  simp [indexOfSymbol]

/-- FT_APPEND finds the lowest index of a symbol (41_freq_table R112, 92 D19). -/
theorem indexOfSymbol_of_first {c : Symbol} {table : List FtEntry} {i : Nat} {e : FtEntry} (hi : table[i]? = some e)
    (hsym : e.sym = c) (hfirst : ∀ j < i, ∀ d, table[j]? = some d → d.sym ≠ c) : indexOfSymbol c table = some i := by
  obtain ⟨hlt, rfl⟩ := List.getElem?_eq_some_iff.mp hi
  refine List.findIdx?_eq_some_iff_getElem.mpr ⟨hlt, by simpa using hsym, fun j hj => ?_⟩
  simpa using hfirst j hj _ (List.getElem?_eq_getElem (hj.trans hlt))

/-- The order check looks at the last entry alone (41_freq_table R112). -/
theorem last_not_heavier_iff {table : List FtEntry} {w : Word} :
    (table.getLast?.any fun l => decide (w < l.weight)) = false ↔ ∀ e, table.getLast? = some e → e.weight ≤ w := by
  cases table.getLast? <;> simp

section Append

variable {s : State} {sym : Nat} {table : List FtEntry}

theorem appendChecked_dup {e : FtEntry} {i : Nat} (h : indexOfSymbol e.sym table = some i) :
    appendChecked s e table = .raised .ftDupSymbol (info i) := by
  simp only [appendChecked, h]

theorem appendChecked_unsorted {e l : FtEntry} (hnew : ∀ d ∈ table, d.sym ≠ e.sym) (hl : table.getLast? = some l)
    (hlt : e.weight < l.weight) : appendChecked s e table = .raised .ftUnsorted (info s.ftN) := by
  simp only [appendChecked, indexOfSymbol_eq_none.mpr hnew, hl, Option.any_some, hlt, decide_true, if_true]

theorem appendChecked_overflow {e : FtEntry} (hnew : ∀ d ∈ table, d.sym ≠ e.sym)
    (hlast : ∀ l, table.getLast? = some l → l.weight ≤ e.weight) (htotal : 0xFFFFFFFF < totalWeight table + e.weight.toNat) :
    appendChecked s e table = .raised .ftTotalOverflow (info s.ftN) := by
  simp only [appendChecked, indexOfSymbol_eq_none.mpr hnew, last_not_heavier_iff.mpr hlast, Bool.false_eq_true, if_false,
    gt_iff_lt, htotal, if_true]

/-! ## FT_APPEND as a command -/

/-- An FT_APPEND whose body raises an error records it and changes nothing else (60_exceptions R202). -/
theorem exec_ftAppend_of_raised {c : ErrCode} {w : Word} (hclear : s.errCode = 0#8) (h : ftAppendBody sym s = .raised c w) :
    exec (.ftAppend sym) s = .next { s with errCode := c.code, errOp := 0x11#8, errInfo := w } := by
  rw [← State.raiseError_of_clear hclear]
  exact congrArg (settle _ s) h

/-- With room and a weight, FT_APPEND comes to the checks that read the table (41_freq_table R112). -/
theorem ftAppendBody_of_held (h : TableHeld s table) (hroom : s.ftN ≠ 128) (hweight : s.arg ≠ 0#32) :
    ftAppendBody sym s = appendChecked s ⟨symOperand sym, s.arg⟩ table := by
  have hfetch : fetchTable s = .done table := fetchRange_eq_done.mpr h
  simp only [ftAppendBody, hroom, hweight, if_false, hfetch, Ending.bind_done]

/-- When the five checks of 41_freq_table R112 pass, FT_APPEND appends the entry. -/
theorem exec_ftAppend_of_checks (h : TableHeld s table) (hroom : s.ftN ≠ 128) (hweight : s.arg ≠ 0#32)
    (hnew : ∀ e ∈ table, e.sym ≠ symOperand sym) (hlast : ∀ e, table.getLast? = some e → e.weight ≤ s.arg)
    (htotal : totalWeight table + s.arg.toNat ≤ 0xFFFFFFFF) :
    exec (.ftAppend sym) s = .next (s.appendEntry ⟨symOperand sym, s.arg⟩) := by
  have hbody : ftAppendBody sym s = .done (s.appendEntry ⟨symOperand sym, s.arg⟩) := by
    rw [ftAppendBody_of_held h hroom hweight]
    exact appendChecked_eq_done.mpr ⟨indexOfSymbol_eq_none.mpr hnew, last_not_heavier_iff.mpr hlast, htotal, rfl⟩
  exact congrArg (settle _ s) hbody

end Append

/-- Settles O22: the checks pass, and the appended entry is the one write to table memory. -/
theorem ftAppendAccepts : Obligations.FtAppendAccepts := by
  intro s sym table hheld hroom hweight hnew hlast htotal
  exact ⟨_, exec_ftAppend_of_checks hheld hroom hweight hnew hlast htotal, rfl, hheld.appendEntry _,
    fun i hi => Memory.read_write_other s.ft _ hi⟩

/-- Settles O23, check by check in the order of 41_freq_table R112. -/
theorem ftAppendCheckOrder : Obligations.FtAppendCheckOrder := by
  intro s sym table hheld hclear
  refine ⟨fun hfull => ?full, fun hroom hzero => ?zeroWeight, fun i e hroom hweight hi hsym hfirst => ?dupSymbol,
    fun e hroom hweight hnew hl hlt => ?unsorted, fun hroom hweight hnew hlast htotal => ?totalOverflow⟩
  case full => exact exec_ftAppend_of_raised (c := .ftFull) hclear (if_pos hfull)
  case zeroWeight => exact exec_ftAppend_of_raised (c := .ftZeroWeight) hclear ((if_neg hroom).trans (if_pos hzero))
  case dupSymbol =>
    exact exec_ftAppend_of_raised (c := .ftDupSymbol) hclear
      ((ftAppendBody_of_held hheld hroom hweight).trans (appendChecked_dup (indexOfSymbol_of_first hi hsym hfirst)))
  case unsorted =>
    exact exec_ftAppend_of_raised (c := .ftUnsorted) hclear
      ((ftAppendBody_of_held hheld hroom hweight).trans (appendChecked_unsorted hnew hl hlt))
  case totalOverflow =>
    exact exec_ftAppend_of_raised (c := .ftTotalOverflow) hclear
      ((ftAppendBody_of_held hheld hroom hweight).trans (appendChecked_overflow hnew hlast htotal))

end Sys2Proof.Machine
end

section
/-! PROOFS. Every step keeps the Frequency Table conforming (41_freq_table R113). -/

namespace Sys2Proof.Machine

/-! ## What leaves the table alone -/

/-- t has the table memory and FT_N of s, so the same table (10_state R27, R42). -/
def SameTable (s t : State) : Prop := t.ft = s.ft ∧ t.ftN = s.ftN

theorem SameTable.refl (s : State) : SameTable s s := ⟨rfl, rfl⟩

theorem SameTable.readStatus (s : State) : SameTable s s.readStatus := by
  unfold State.readStatus; split_ifs <;> exact .refl s

theorem SameTable.hostPoll (s : State) : SameTable s (hostPoll s) := by
  unfold Machine.hostPoll; split_ifs <;> exact .readStatus s

/-- No bus write reaches the table (20_memory R52, R55). -/
theorem SameTable.writeLocation {s t : State} {v : Word} {l : Location} (h : s.writeLocation v l = some t) : SameTable s t := by
  obtain ⟨r, -, hr⟩ | ⟨k, -, rfl⟩ | ⟨k, -, rfl⟩ | ⟨k, -, rfl⟩ := State.writeLocation_eq_some h
  · obtain ⟨-, rfl⟩ | ⟨-, -, rfl⟩ | ⟨-, -, rfl⟩ | ⟨-, -, rfl⟩ := State.writeReg_eq_some hr <;> exact ⟨rfl, rfl⟩
  all_goals simp [SameTable]

theorem SameTable.raiseError (s : State) (c : ErrCode) (op : BitVec 8) (w : Word) : SameTable s (s.raiseError c op w) :=
  ⟨s.raiseError_ft c op w, s.raiseError_ftN c op w⟩

/-- A command other than SRESET, FT_CLEAR and FT_APPEND leaves the table alone: two clauses of its frame (10_state R27, R42). -/
theorem SameTable.exec {i : Instr} {s t : State} (h : Machine.exec i s = .next t) (hclear : i ∉ [.sreset, .ftClear])
    (happend : ∀ sym, i ≠ .ftAppend sym) : SameTable s t := by
  obtain ⟨-, -, -, hftN, -, -, -, -, -, hft, -⟩ := commandFrames i s t h
  exact ⟨hft happend, hftN hclear happend⟩

/-! ## The table conforms -/

/-- Between commands the table conforms and has at most 128 entries (41_freq_table R113, 10_state R27). -/
def TableOk (s : State) : Prop := s.ftN ≤ 128 ∧ TableForm s

theorem TableOk.of_same {s t : State} (h : TableOk s) (hsame : SameTable s t) : TableOk t := by
  obtain ⟨hft, hftN⟩ := hsame
  simpa only [TableOk, TableForm, TableHeld, State.table, hft, hftN] using h

theorem TableOk.of_empty {s : State} (h : s.ftN = 0) : TableOk s := ⟨by omega, .of_empty h⟩

theorem exec_keeps_tableOk {i : Instr} {s t : State} (hx : exec i s = .next t) (h : TableOk s) : TableOk t := by
  cases i with
  | sreset | ftClear => cases hx; exact .of_empty rfl
  | ftAppend sym =>
    obtain hf | ⟨c, w, -, rfl⟩ := exec_cases hx
    · cases hf with
      | ftAppend hroom hweight htable hnew hlast htotal =>
        obtain rfl := table_eq_of_fetchTable htable
        obtain ⟨hle, hform⟩ := h
        have hc := hform.2.append (e := ⟨symOperand sym, s.arg⟩) hweight hnew hlast htotal
        exact ⟨show s.ftN + 1 ≤ 128 by omega, hform.appendEntry hc⟩
    · exact h.of_same (.raiseError s c _ w)
  | _ => exact h.of_same (.exec hx (by simp) (by simp))

theorem issue_keeps_tableOk {w : Word} {s t : State} (hi : issue w s = .next t) (h : TableOk s) : TableOk t := by
  obtain ⟨-, he⟩ | ⟨-, -, he⟩ | ⟨-, i, -, he⟩ := issue_cases w s <;> rw [he] at hi
  · cases hi; exact h
  · cases hi; exact TableOk.of_same (s := s.beginCommand) h (.raiseError _ _ _ _)
  · exact exec_keeps_tableOk (s := s.beginCommand) hi h

theorem step_keeps_tableOk {s t : State} (hstep : step s = .next t) (h : TableOk s) : TableOk t := by
  obtain ⟨-, rfl⟩ | ⟨a, rest, -, hact⟩ := step_cases hstep
  · exact h
  have h' : TableOk (s.takeAction rest) := h
  obtain ⟨-, rfl⟩ | ⟨-, rfl⟩ | ⟨-, -, rfl⟩ | ⟨-, w, -, hissue⟩ | ⟨-, _, v, _, l, u, -, -, -, -, hwrite, rfl⟩ | ⟨-, r, rfl⟩ := hact
  · exact .of_empty rfl
  · exact h'.of_same (.hostPoll _)
  · exact h'.of_same (.readStatus _)
  · exact issue_keeps_tableOk hissue h'
  · exact TableOk.of_same (t := u) h' (.writeLocation hwrite)
  · exact h'

/-- Settles O24: the reset table is empty, every step keeps TableOk, and Conforming is the four properties, its order and its zero being those of the weights as numbers. -/
theorem stepKeepsTableConforming : Obligations.StepKeepsTableConforming := by
  refine ⟨fun p => TableOk.of_empty rfl, fun s t hn hform hstep => ?_⟩
  obtain ⟨hle, hheld, hpos, hsorted, hnodup, htotal⟩ := step_keeps_tableOk hstep ⟨hn, hform⟩
  exact ⟨hle, ⟨hheld, hpos, hsorted, hnodup, htotal⟩,
    fun e he => Nat.one_le_iff_ne_zero.mpr fun h0 => hpos e he (BitVec.eq_of_toNat_eq h0),
    hsorted, List.pairwise_map.mp hnodup, rfl, htotal⟩

end Sys2Proof.Machine
end

section
/-! PROOFS. A conforming table loads without an error, and the reference analyzer's table conforms (41_freq_table R112, R115). -/

namespace Sys2Proof.Machine

/-! ## A conforming table is accepted -/

/-- The entry a pair of the reference analyzer is loaded as. -/
def entryOfPair (x : Symbol × Nat) : FtEntry := ⟨x.1, BitVec.ofNat 32 x.2⟩

/-- What FT_APPEND checks of the last entry of a conforming table (41_freq_table R112, R113). -/
theorem Conforming.checks {table : List FtEntry} {e : FtEntry} (h : Conforming (table ++ [e])) :
    e.weight ≠ 0#32 ∧ (∀ x ∈ table, x.sym ≠ e.sym) ∧ (∀ x ∈ table, x.weight ≤ e.weight) ∧
      totalWeight table + e.weight.toNat ≤ 0xFFFFFFFF := by
  obtain ⟨hpos, hsorted, hnodup, htotal⟩ := h
  refine ⟨hpos e (by simp), fun x hx => ?_, fun x hx => ?_, by simpa [totalWeight] using htotal⟩
  · exact (List.pairwise_append.mp (List.pairwise_map.mp hnodup)).2.2 x hx e (by simp)
  · exact (List.pairwise_append.mp hsorted).2.2 x hx e (by simp)

theorem Conforming.of_append {table rest : List FtEntry} (h : Conforming (table ++ rest)) : Conforming table := by
  obtain ⟨hpos, hsorted, hnodup, htotal⟩ := h
  refine ⟨fun e he => hpos e (by simp [he]), (List.pairwise_append.mp hsorted).1, ?_, ?_⟩
  · exact (List.nodup_append.mp (List.map_append ▸ hnodup)).1
  · simp only [totalWeight, List.map_append, List.sum_append] at htotal ⊢
    omega

theorem card_symbol : Fintype.card Symbol = 128 := by rw [← FinEnum.card_eq_fintypeCard]; rfl

/-- A conforming table has no more entries than there are symbols. -/
theorem Conforming.length_le {table : List FtEntry} (h : Conforming table) : table.length ≤ 128 := by
  obtain ⟨-, -, hnodup, -⟩ := h
  simpa [card_symbol] using hnodup.length_le_card

theorem symOperand_toNat (c : Symbol) : symOperand c.toNat = c := BitVec.ofNat_toNat ..

/-- An FT_APPEND that makes the table a conforming one is accepted. -/
theorem exec_ftAppend_of_conforming {s : State} {sym : Nat} {table : List FtEntry} (hheld : TableHeld s table)
    (hc : Conforming (table ++ [⟨symOperand sym, s.arg⟩])) :
    exec (.ftAppend sym) s = .next (s.appendEntry ⟨symOperand sym, s.arg⟩) := by
  obtain ⟨hweight, hnew, hlast, htotal⟩ := hc.checks
  have hroom : s.ftN ≠ 128 := by
    have hlen : table.length = s.ftN := Memory.readRange_length hheld
    have hle : table.length + 1 ≤ 128 := by simpa using hc.length_le
    omega
  exact exec_ftAppend_of_checks hheld hroom hweight hnew (fun e he => hlast e (List.mem_of_getLast? he)) htotal

/-- Loading is an FT_APPEND per pair: when the table held and the pairs make one conforming table, so do the table held and the next pair, and each append is accepted. -/
theorem loadTable_of_conforming {pairs : List (Symbol × Nat)} {s : State} {table : List FtEntry} (hheld : TableHeld s table)
    (hc : Conforming (table ++ pairs.map entryOfPair)) :
    ∃ t, loadTable pairs s = .next t ∧ t.errCode = s.errCode ∧ TableHeld t (table ++ pairs.map entryOfPair) := by
  induction pairs generalizing s table with
  | nil => exact ⟨s, rfl, rfl, by simpa using hheld⟩
  | cons x xs ih =>
    rw [List.map_cons, List.append_cons] at hc ⊢
    have harg : TableHeld { s with arg := BitVec.ofNat 32 x.2 } table := hheld
    have happend := exec_ftAppend_of_conforming (sym := x.1.toNat) harg (by rw [symOperand_toNat]; exact hc.of_append)
    rw [symOperand_toNat] at happend
    obtain ⟨t, hload, herr, ht⟩ := ih (harg.appendEntry (entryOfPair x)) hc
    exact ⟨t, by rw [loadTable, happend]; exact hload, herr, ht⟩

/-! ## The reference analyzer's table -/

section FreqTable

variable {text : List Symbol}

/-- The analyzer lists the symbols that occur, each with its count (41_freq_table R115). -/
theorem mem_freqTable {x : Symbol × Nat} : x ∈ freqTable text ↔ x.2 = text.count x.1 ∧ 0 < x.2 := by
  simp only [freqTable, List.mem_insertionSort, List.mem_filter, List.mem_map, List.mem_range, decide_eq_true_eq]
  refine and_congr_left fun _ => ⟨?_, fun hcount => ⟨x.1.toNat, x.1.isLt, ?_⟩⟩
  · rintro ⟨c, -, rfl⟩; rfl
  · rw [symOperand_toNat, ← hcount]

theorem freqTable_sorted (text : List Symbol) : (freqTable text).Pairwise fun x y => x.2 ≤ y.2 := by
  have : Std.Total fun x y : Symbol × Nat => x.2 ≤ y.2 := ⟨fun x y => Nat.le_total x.2 y.2⟩
  have : IsTrans (Symbol × Nat) fun x y => x.2 ≤ y.2 := ⟨fun _ _ _ => Nat.le_trans⟩
  exact List.pairwise_insertionSort _ _

theorem symbols_nodup : ((List.range 128).map symOperand).Nodup := by
  refine List.nodup_range.map_on fun i hi j hj hij => ?_
  have hij := congrArg BitVec.toNat hij
  rw [List.mem_range] at hi hj
  simpa [symOperand, Nat.mod_eq_of_lt, hi, hj] using hij

theorem freqTable_symbols_nodup (text : List Symbol) : ((freqTable text).map Prod.fst).Nodup := by
  rw [freqTable, ((List.perm_insertionSort _ _).map _).nodup_iff]
  refine List.Nodup.sublist (List.filter_sublist.map _) ?_
  rw [List.map_map]
  exact symbols_nodup

/-- Each position of the stream is counted once. -/
theorem freqTable_counts_sum (text : List Symbol) : ((freqTable text).map Prod.snd).sum = text.length := by
  have hcounts : (freqTable text).map Prod.snd = ((freqTable text).map Prod.fst).map text.count := by
    rw [List.map_map]
    exact List.map_congr_left fun x hx => (mem_freqTable.mp hx).1
  rw [hcounts, ← List.sum_toFinset _ (freqTable_symbols_nodup text)]
  simp only [← Multiset.coe_count]
  refine Multiset.sum_count_eq_card fun c hc => List.mem_toFinset.mpr (List.mem_map.mpr ⟨(c, text.count c), ?_, rfl⟩)
  exact mem_freqTable.mpr ⟨rfl, List.count_pos_iff.mpr (Multiset.mem_coe.mp hc)⟩

variable (hlen : text.length ≤ 0xFFFFFFFF)
include hlen

/-- A count fits the 32 bits of a weight. -/
theorem entryOfPair_weight_toNat {x : Symbol × Nat} (hx : x ∈ freqTable text) : (entryOfPair x).weight.toNat = x.2 := by
  have hcount := (mem_freqTable.mp hx).1
  have hle : text.count x.1 ≤ text.length := List.count_le_length
  exact Nat.mod_eq_of_lt (by omega)

theorem totalWeight_freqTable : totalWeight ((freqTable text).map entryOfPair) = text.length := by
  rw [← freqTable_counts_sum text, totalWeight, List.map_map]
  exact congrArg _ (List.map_congr_left fun x hx => entryOfPair_weight_toNat hlen hx)

theorem freqTable_conforming : Conforming ((freqTable text).map entryOfPair) := by
  refine ⟨?weights, ?sorted, ?symbols, (totalWeight_freqTable hlen).trans_le hlen⟩
  case weights =>
    intro e he h0
    obtain ⟨x, hx, rfl⟩ := List.mem_map.mp he
    have hpos := (mem_freqTable.mp hx).2
    rw [← entryOfPair_weight_toNat hlen hx, h0] at hpos
    exact absurd hpos (by decide)
  case sorted =>
    refine List.pairwise_map.mpr ((freqTable_sorted text).imp_of_mem fun hx hy hle => ?_)
    rwa [BitVec.le_def, entryOfPair_weight_toNat hlen hx, entryOfPair_weight_toNat hlen hy]
  case symbols => simpa [Function.comp_def, entryOfPair] using freqTable_symbols_nodup text

end FreqTable

/-- Settles O25: the analyzer's table conforms, so an empty table takes every entry of it, and its counts add up to the length. -/
theorem referenceTableIsAccepted : Obligations.ReferenceTableIsAccepted := by
  intro s text hempty hclear hlen
  have hheld : TableHeld s [] := by rw [TableHeld, hempty]; rfl
  obtain ⟨t, hload, herr, ht⟩ := loadTable_of_conforming hheld (freqTable_conforming hlen)
  refine ⟨t, hload, herr.trans hclear, ht, ?_⟩
  rw [State.ftTotal, table_eq_of_held ht]
  exact totalWeight_freqTable hlen

end Sys2Proof.Machine
end

section
/-! PROOFS. TB_INIT and TB_STEP as commands (42_tree_builder R120 to R123). -/

namespace Sys2Proof.Machine

variable {s : State}

/-! ## TB_INIT -/

theorem exec_tbInit_of_empty (hheld : TableHeld s []) (hclear : s.errCode = 0#8) :
    exec .tbInit s = .next { s with errCode := 0x07#8, errOp := 0x20#8, errInfo := 0#32 } := by
  have hbody : tbInitBody s = .raised .emptyAlphabet (info 0) := by
    rw [tbInitBody, fetchTable, fetchRange_eq_done.mpr hheld, Ending.bind_done]
  rw [show exec .tbInit s = settle 0x20#8 s (tbInitBody s) from rfl, hbody, settle_raised, State.raiseError_of_clear hclear]
  rfl

theorem tbInitBody_of_held {first : FtEntry} {rest : List FtEntry} (hheld : TableHeld s (first :: rest)) :
    tbInitBody s = .done (s.startBuild first rest) :=
  tbInitBody_eq_done.mpr ⟨first, rest, fetchRange_eq_done.mpr hheld, rfl⟩

theorem exec_tbInit_of_held {first : FtEntry} {rest : List FtEntry} (hheld : TableHeld s (first :: rest)) :
    exec .tbInit s = .next (s.startBuild first rest) :=
  congrArg (settle _ s) (tbInitBody_of_held hheld)

theorem State.startBuild_of_one {first : FtEntry} {rest : List FtEntry} (h : s.ftN = 1) :
    s.startBuild first rest = s.startSingle (Memory.write (initialNodes (first :: rest)) 1 (wrapperNode first.weight)) :=
  if_pos h

theorem State.startBuild_of_several {first : FtEntry} {rest : List FtEntry} (h : 2 ≤ s.ftN) :
    s.startBuild first rest = s.startQueues (initialNodes (first :: rest)) :=
  if_neg (by omega)

/-- Settles O26, by the length of the table: TB_INIT's body is startBuild unless the table is empty, and node memory is read off initialNodes. -/
theorem tbInitResult : Obligations.TbInitResult := by
  intro s table hheld hmax
  have hlen : table.length = s.ftN := Memory.readRange_length hheld
  refine ⟨fun hzero hclear => ?empty, fun e hone htable => ?single, fun htwo => ?several⟩
  case empty =>
    obtain rfl : table = [] := List.eq_nil_of_length_eq_zero (hlen.trans hzero)
    exact exec_tbInit_of_empty hheld hclear
  case single =>
    subst htable
    refine ⟨_, exec_tbInit_of_held hheld, ?_⟩
    rw [State.startBuild_of_one hone]
    refine ⟨rfl, ?_, Memory.read_write_same _ _ _, fun i hi hi' => ?_⟩
    · exact (Memory.read_write_other _ _ (by decide)).trans (read_initialNodes_leaf (by decide) (by simp))
    · exact (Memory.read_write_other _ _ (by omega)).trans (read_initialNodes_blank hi' (by simp; omega))
  case several =>
    obtain ⟨first, rest, rfl⟩ := List.exists_cons_of_length_pos (l := table) (by omega)
    refine ⟨_, exec_tbInit_of_held hheld, ?_⟩
    rw [State.startBuild_of_several htwo]
    refine ⟨rfl, fun i e hi => ?_, fun i hi hi' => read_initialNodes_blank hi' (by omega)⟩
    obtain ⟨hlt, -⟩ := List.getElem?_eq_some_iff.mp hi
    exact (read_initialNodes_leaf (by omega) hlt).trans (congrArg _ hi)

/-! ## TB_STEP -/

theorem exec_tbStep_of_not_running (hst : s.tbState ≠ .running) (hclear : s.errCode = 0#8) :
    exec .tbStep s = .next { s with errCode := 0x08#8, errOp := 0x21#8, errInfo := s.tbState.code } := by
  rw [show exec .tbStep s = settle 0x21#8 s (tbStepBody s) from rfl, tbStepBody, if_neg hst, settle_raised,
    State.raiseError_of_clear hclear]
  rfl

theorem exec_tbStep_of_done {t : State} (h : tbStepBody s = .done t) : exec .tbStep s = .next t :=
  congrArg (settle _ s) h

/-- The fronts of the queues are written when every node below NODE_N is (42_tree_builder R120). -/
theorem FrontsRead.of_reads (hreads : ∀ i < s.nodeN, (Memory.read s.nodes i).isSome = true) (hftN : s.ftN ≤ s.nodeN) :
    FrontsRead s := by
  unfold FrontsRead State.srcLen State.tgtLen
  exact ⟨fun _ => hreads _ (by omega), fun _ => hreads _ (by omega)⟩

/-- Two extractions from written queues with two nodes at least, and the merge of what they took (42_tree_builder R123). -/
theorem mergeOnce_of_extracts {a b src₁ tgt₁ src₂ tgt₂ : Nat} {na nb : Node} (hroom : s.nodeN ≤ 254)
    (hreads : ∀ i < s.nodeN, (Memory.read s.nodes i).isSome = true) (hftN : s.ftN ≤ s.nodeN)
    (ha : Extracts s a src₁ tgt₁) (hb : Extracts (s.moveHeads src₁ tgt₁) b src₂ tgt₂)
    (hna : Memory.read s.nodes a = some na) (hnb : Memory.read s.nodes b = some nb) :
    mergeOnce s = .done (s.merged a b src₂ tgt₂ na nb).finishIfLast := by
  have hfronts : FrontsRead s := .of_reads hreads hftN
  have hfronts₁ : FrontsRead (s.moveHeads src₁ tgt₁) := .of_reads (by simpa using hreads) (by simpa using hftN)
  simp only [mergeOnce, extract_of_extracts hfronts ha, extract_of_extracts hfronts₁ hb, Ending.bind_done, State.moveHeads_nodes,
    fetch_of_read hna, fetch_of_read hnb]
  exact if_pos hroom

/-- Two extractions do not move the source head past the last leaf (42_tree_builder R121). -/
theorem Extracts.source_le_of_two {a b src₁ tgt₁ src₂ tgt₂ : Nat} (hsrc : s.srcHead ≤ s.ftN) (htwo : 2 ≤ s.srcLen + s.tgtLen)
    (ha : Extracts s a src₁ tgt₁) (hb : Extracts (s.moveHeads src₁ tgt₁) b src₂ tgt₂) : src₂ ≤ s.ftN := by
  have hs : s.srcLen = s.ftN - s.srcHead := rfl
  have ht : s.tgtLen = s.nodeN - s.tgtHead := rfl
  have hs₁ : (s.moveHeads src₁ tgt₁).srcLen = s.ftN - src₁ := rfl
  have ht₁ : (s.moveHeads src₁ tgt₁).tgtLen = s.nodeN - tgt₁ := rfl
  have hca := ha.cases (by omega)
  have hcb := hb.cases (by omega)
  simp only [State.moveHeads_srcHead, State.moveHeads_tgtHead] at hcb
  omega

/-- The finish test asks whether the merge emptied both queues before it added the parent (42_tree_builder R123). -/
theorem State.merged_last_iff {a b src tgt : Nat} {na nb : Node} :
    (s.merged a b src tgt na nb).srcLen = 0 ∧ (s.merged a b src tgt na nb).tgtLen = 1 ↔ s.ftN ≤ src ∧ tgt = s.nodeN := by
  simp only [State.srcLen, State.tgtLen, State.merged_ftN, State.merged_srcHead, State.merged_nodeN, State.merged_tgtHead]
  omega

/-- Settles O27: without a build TB_STEP is an error; in a running one it writes one node, and the finish test is whether both queues were emptied. -/
theorem tbStepResult : Obligations.TbStepResult := by
  refine ⟨fun s hst hclear => ?notRunning, ?merge⟩
  case notRunning =>
    rw [exec_tbStep_of_not_running hst hclear]
    cases s.tbState <;> rfl
  case merge =>
    intro s a b src₁ tgt₁ src₂ tgt₂ na nb hr _ hroom htwo hreads hftN ha hb hna hnb
    have hbody : tbStepBody s = .done (s.merged a b src₂ tgt₂ na nb).finishIfLast :=
      tbStepBody_eq_done.mpr ⟨hr, mergeOnce_of_extracts hroom hreads hftN ha hb hna hnb⟩
    refine ⟨_, exec_tbStep_of_done hbody, ?_, fun i hi => ?_, fun ⟨hsrc₂, htgt₂⟩ => ?_, fun hmore hsrc => ?_⟩
    · rw [State.finishIfLast_nodes]
      exact State.merged_read_self
    · rw [State.finishIfLast_nodes]
      exact State.merged_read_other hi
    · rw [State.finishIfLast, if_pos (State.merged_last_iff.mpr ⟨hsrc₂.ge, htgt₂⟩), htgt₂]
      rfl
    · have hsrc₂ : src₂ ≤ s.ftN := Extracts.source_le_of_two hsrc htwo ha hb
      rw [State.finishIfLast, if_neg fun hlast => ?_]
      · rfl
      · obtain ⟨hge, htgt₂⟩ := State.merged_last_iff.mp hlast
        exact hmore ⟨hsrc₂.antisymm hge, htgt₂⟩

end Sys2Proof.Machine
end

section
/-! PROOFS. What extract() takes from the queues of a running build (42_tree_builder R121, R128, R131). -/

namespace Sys2Proof.Machine

section Running

variable {s : State} {x src tgt : Nat} (h : Inv s) (hr : s.tbState = .running) (he : Extracts s x src tgt)
include h hr

theorem running_queued_pos : 0 < s.srcLen + s.tgtLen := by
  obtain ⟨-, -, -, -, -, hlen, -⟩ := running_registers h hr
  have hlens : s.srcLen + s.tgtLen = (s.ftN - s.srcHead) + (s.nodeN - s.tgtHead) := rfl
  omega

/-- Every leaf of a running build was made before every node of the target queue (42_tree_builder R131). -/
theorem running_source_before_target {i j : Nat} (hi : i ∈ List.range' s.srcHead s.srcLen)
    (hj : j ∈ List.range' s.tgtHead s.tgtLen) : i < j := by
  obtain ⟨hsrc, -, -, hftN, -⟩ := running_registers h hr
  have hlen : s.srcLen = s.ftN - s.srcHead := rfl
  rw [List.mem_range'_1] at hi hj
  omega

include he

theorem running_extract : extract s = .done (x, s.moveHeads src tgt) := by
  obtain ⟨-, -, -, hftN, htgt, -⟩ := running_registers h hr
  refine extract_of_extracts (.of_reads (fun i hi => ?_) (by omega)) he
  exact Option.isSome_iff_exists.mpr (running_reads h hr i hi)

theorem running_extracts_cases :
    (x = s.srcHead ∧ src = s.srcHead + 1 ∧ tgt = s.tgtHead ∧ 0 < s.srcLen ∧
      (s.tgtLen = 0 ∨ s.nodeWeight s.srcHead ≤ s.nodeWeight s.tgtHead)) ∨
    (x = s.tgtHead ∧ src = s.srcHead ∧ tgt = s.tgtHead + 1 ∧ 0 < s.tgtLen ∧
      (s.srcLen = 0 ∨ s.nodeWeight s.tgtHead < s.nodeWeight s.srcHead)) :=
  he.cases (running_queued_pos h hr)

theorem running_extracted_mem : x ∈ s.queued :=
  (queued_perm he (running_queued_pos h hr)).mem_iff.mpr (by simp)

theorem running_extracted_least : ∀ i ∈ s.queued, s.nodeWeight x ≤ s.nodeWeight i :=
  least_of_sorted he (running_queued_pos h hr) (source_sorted h hr) (h.queues hr).1

/-- The source queue serves exactly when its front exists and has the least weight (42_tree_builder R128). -/
theorem running_takes_source_iff :
    (0 < s.srcLen ∧ ∀ i ∈ s.queued, s.nodeWeight s.srcHead ≤ s.nodeWeight i) ↔ src = s.srcHead + 1 := by
  have hleast := running_extracted_least h hr he
  obtain ⟨rfl, rfl, -, hpos, -⟩ | ⟨-, rfl, -, hpos, hlighter⟩ := running_extracts_cases h hr he
  · exact iff_of_true ⟨hpos, hleast⟩ rfl
  · refine iff_of_false (fun ⟨hsrc, hall⟩ => ?_) (by omega)
    have := hall s.tgtHead (List.mem_append_right _ (by simpa using hpos))
    omega

/-- Of the queued nodes as light as the one taken, none was inserted before it (42_tree_builder R131). -/
theorem running_extracted_first {i : Nat} (hi : i ∈ s.queued) (hw : s.nodeWeight i ≤ s.nodeWeight x) : x ≤ i := by
  have hsorted := source_sorted h hr
  obtain ⟨rfl, -, -, hpos, -⟩ | ⟨rfl, -, -, hpos, hlighter⟩ := running_extracts_cases h hr he
  · obtain hi | hi := List.mem_append.mp hi
    · exact (List.mem_range'_1.mp hi).1
    · exact (running_source_before_target h hr (by simpa using hpos) hi).le
  · obtain hi | hi := List.mem_append.mp hi
    · exfalso
      have hsrc : s.srcHead ≤ i ∧ i < s.srcHead + s.srcLen := List.mem_range'_1.mp hi
      have hfront : s.nodeWeight s.srcHead ≤ s.nodeWeight i := by
        obtain rfl | hlt := hsrc.1.eq_or_lt
        · exact le_rfl
        · exact rel_of_pairwise_range' (R := fun i j => s.nodeWeight i ≤ s.nodeWeight j) hsorted le_rfl hlt hsrc.2
      omega
    · exact (List.mem_range'_1.mp hi).1

/-- The queues afterwards are the queued nodes without the one taken. -/
theorem running_queued_erase : (s.moveHeads src tgt).queued = s.queued.erase x := by
  have hsrcLen : (s.moveHeads src tgt).srcLen = s.ftN - src := rfl
  have htgtLen : (s.moveHeads src tgt).tgtLen = s.nodeN - tgt := rfl
  have hs : s.srcLen = s.ftN - s.srcHead := rfl
  have ht : s.tgtLen = s.nodeN - s.tgtHead := rfl
  rw [State.queued, State.queued, hsrcLen, htgtLen, State.moveHeads_srcHead, State.moveHeads_tgtHead]
  obtain ⟨rfl, rfl, rfl, hpos, -⟩ | ⟨rfl, rfl, rfl, hpos, -⟩ := running_extracts_cases h hr he
  · rw [range'_pos hpos, List.cons_append, List.erase_cons_head, hs, ht, Nat.sub_sub]
  · have hnot : s.tgtHead ∉ List.range' s.srcHead s.srcLen := fun hmem =>
      (running_source_before_target h hr hmem (by simpa using hpos)).false
    rw [List.erase_append_right _ hnot, range'_pos hpos, List.erase_cons_head, hs, ht, Nat.sub_sub]

end Running

/-- Settles O28: the invariant keeps both queues sorted, so the lighter front is the lightest node, and the source front is taken when it is that light. -/
theorem extractTakesLeastWeight : Obligations.ExtractTakesLeastWeight := by
  intro s x src tgt h hr he
  have hsource := running_takes_source_iff h hr he
  refine ⟨source_sorted h hr, (h.queues hr).1, running_extracted_mem h hr he, running_extracted_least h hr he,
    fun hpos hleast => ?_, fun hnot => ?_, running_extract h hr he⟩
  · have hsrc := hsource.mp ⟨hpos, hleast⟩
    obtain ⟨hx, -⟩ | ⟨-, hkept, -⟩ := running_extracts_cases h hr he
    · exact hx
    · omega
  · obtain ⟨-, hsrc, -⟩ | ⟨hx, -⟩ := running_extracts_cases h hr he
    · exact absurd (hsource.mpr hsrc) hnot
    · exact hx

/-- Settles O29: the node taken is the lightest, none as light was inserted before it, and the queues lose it alone. -/
theorem extractIsPriorityQueueMinimum : Obligations.ExtractIsPriorityQueueMinimum := by
  intro s x src tgt h hr he
  refine ⟨running_extracted_mem h hr he, fun i hi => ?_, running_queued_erase h hr he, running_extract h hr he⟩
  obtain hlt | heq := (running_extracted_least h hr he i hi).lt_or_eq
  · exact .inl hlt
  · exact .inr ⟨heq, running_extracted_first h hr he hi heq.ge⟩

end Sys2Proof.Machine
end

section
/-! PROOFS. The builder reads and writes its own part of the state alone, and a build from a conforming table runs FT_N - 1 merges (42_tree_builder R124, R127, R130). -/

namespace Sys2Proof.Machine

/-! ## The builder's part of a state -/

/-- A block at reset but for a Frequency Table (41_freq_table R112). -/
def tableOnly (table : List FtEntry) : State :=
  { State.resetWith Params.defaults with ftN := table.length, ft := Memory.writeList [] 0 table }

/-- What the builder reads and writes, on a block otherwise at reset: the table, the queues, node memory and the tree's registers. -/
def State.builderView (s : State) : State :=
  { tableOnly s.table with
    ftN := s.ftN, nodes := s.nodes, nodeN := s.nodeN, srcHead := s.srcHead, tgtHead := s.tgtHead, root := s.root,
    tbState := s.tbState, treeValid := s.treeValid }

@[simp] theorem State.builderView_ftN (s : State) : s.builderView.ftN = s.ftN := rfl
@[simp] theorem State.builderView_nodes (s : State) : s.builderView.nodes = s.nodes := rfl
@[simp] theorem State.builderView_tbState (s : State) : s.builderView.tbState = s.tbState := rfl
@[simp] theorem State.builderView_srcLen (s : State) : s.builderView.srcLen = s.srcLen := rfl
@[simp] theorem State.builderView_tgtLen (s : State) : s.builderView.tgtLen = s.tgtLen := rfl

@[simp] theorem tableOnly_codesValid (table : List FtEntry) : (tableOnly table).codesValid = false := rfl

theorem tableOnly_held (table : List FtEntry) : TableHeld (tableOnly table) table := Memory.readRange_writeList [] 0 table

theorem tableOnly_table (table : List FtEntry) : (tableOnly table).table = table := table_eq_of_held (tableOnly_held table)

/-- A block with nothing but a conforming table meets the invariant (41_freq_table R113). -/
theorem Inv.tableOnly {table : List FtEntry} (h : Conforming table) : Inv (tableOnly table) := by
  have hlen := h.length_le
  refine .of_idle ⟨rfl, rfl, rfl, rfl, rfl, rfl, rfl⟩ (show Params.defaults.wf by decide) ?lengths ?memory ?errors ?table ?output
  case lengths => exact ⟨hlen, Nat.zero_le _, Nat.zero_le _, Nat.zero_le _, Nat.zero_le _⟩
  case memory =>
    exact ⟨Memory.form_writeList Memory.form_nil (by omega), Memory.form_nil, Memory.form_nil, Memory.form_nil, Memory.form_nil,
      Memory.form_nil, Memory.form_nil⟩
  case errors => exact (by decide : ErrorForm (State.resetWith Params.defaults))
  case table => rw [TableForm, tableOnly_table]; exact ⟨tableOnly_held table, h⟩
  case output => exact fun i hi => absurd hi (Nat.not_lt_zero i)

theorem State.builderView_table {s : State} (h : TableHeld s s.table) : s.builderView.table = s.table := by
  have hlen : s.table.length = s.ftN := Memory.readRange_length h
  refine table_eq_of_held ?_
  rw [TableHeld, State.builderView_ftN, ← hlen]
  exact tableOnly_held s.table

/-- TB_INIT overwrites all the builder's part but the table, so that a build starts from the table alone (42_tree_builder R122). -/
theorem State.startBuild_builderView {s : State} {first : FtEntry} {rest : List FtEntry} (h : TableHeld s (first :: rest)) :
    (s.startBuild first rest).builderView = (tableOnly (first :: rest)).startBuild first rest := by
  have hn : s.ftN = (tableOnly (first :: rest)).ftN := (Memory.readRange_length h).symm
  have htable : (s.startBuild first rest).table = first :: rest := by
    obtain ⟨_, _, _, _, _, _, _, ht⟩ := builderOnly_startBuild s first rest
    rw [ht]
    exact table_eq_of_held h
  rw [State.builderView, htable]
  by_cases hone : s.ftN = 1
  · rw [State.startBuild_of_one hone, State.startBuild_of_one (hn ▸ hone)]
    simp only [State.startSingle, hn, tableOnly_codesValid]
  · rw [State.startBuild, State.startBuild, if_neg hone, if_neg (hn ▸ hone)]
    simp only [State.startQueues, hn, tableOnly_codesValid]

/-! ## A merge sees the builder's part alone -/

/-- An ending with the builder's part of the state it leaves. -/
def Ending.builderView (e : Ending State) : Ending State := e.bind fun t => .done t.builderView

theorem Ending.builderView_bind {α : Type} (e : Ending α) (f : α → Ending State) :
    (e.bind f).builderView = e.bind fun a => (f a).builderView := Ending.bind_assoc ..

theorem extract_builderView (s : State) :
    extract s.builderView = (extract s).bind fun x => .done (x.1, x.2.builderView) := by
  rw [extract, extract, Ending.bind_assoc, show takesSource s.builderView = takesSource s from rfl]
  congr 1
  funext fromSource
  cases fromSource <;> rfl

theorem State.finishIfLast_builderView (s : State) : s.builderView.finishIfLast = s.finishIfLast.builderView := by
  rw [State.finishIfLast, State.finishIfLast, apply_ite State.builderView]
  rfl

theorem State.addMerged_builderView (s : State) (nd : Node) : s.builderView.addMerged nd = (s.addMerged nd).builderView := by
  rw [State.addMerged, State.addMerged, apply_ite Ending.builderView]
  exact congrArg (ite _ · _) (congrArg Ending.done (s.enqueue nd).finishIfLast_builderView)

theorem mergeOnce_builderView (s : State) : mergeOnce s.builderView = (mergeOnce s).builderView := by
  simp only [mergeOnce, Ending.builderView_bind, extract_builderView, Ending.bind_assoc, Ending.bind_done,
    State.addMerged_builderView, State.builderView_nodes]

theorem tbStepBody_builderView (s : State) : tbStepBody s.builderView = (tbStepBody s).builderView := by
  rw [tbStepBody, tbStepBody, apply_ite Ending.builderView, mergeOnce_builderView]
  rfl

theorem buildLoop_builderView (k : Nat) (s : State) : buildLoop k s.builderView = (buildLoop k s).builderView := by
  induction k generalizing s with
  | zero =>
    rw [buildLoop, buildLoop, apply_ite Ending.builderView]
    rfl
  | succ k ih =>
    rw [buildLoop, buildLoop, apply_ite Ending.builderView, tbStepBody_builderView, Ending.builderView_bind, Ending.builderView,
      Ending.bind_assoc]
    simp only [Ending.bind_done, ih]
    rfl

/-- What a merge does to the builder's part it does to the whole state. -/
theorem tbStepBody_of_builderView {s v : State} (h : tbStepBody s.builderView = .done v) :
    ∃ t, tbStepBody s = .done t ∧ v = t.builderView := by
  rw [tbStepBody_builderView] at h
  obtain ⟨t, ht, hv⟩ := Ending.bind_eq_done.mp h
  exact ⟨t, ht, (Ending.done.inj hv).symm⟩

/-! ## The merges of a build -/

/-- The merge of two nodes finishes when they were the only ones queued; else the build goes on with one node less (42_tree_builder R127). -/
theorem Takes.finishIfLast {s : State} {a b src tgt : Nat} {na nb : Node} (h : Inv s) (hr : s.tbState = .running)
    (ht : Takes s a b src tgt) :
    (s.srcLen + s.tgtLen = 2 → (s.merged a b src tgt na nb).finishIfLast.tbState = .done) ∧
    (2 < s.srcLen + s.tgtLen → (s.merged a b src tgt na nb).finishIfLast = s.merged a b src tgt na nb ∧
      (s.merged a b src tgt na nb).srcLen + (s.merged a b src tgt na nb).tgtLen + 1 = s.srcLen + s.tgtLen) := by
  obtain ⟨hsrc, -, -, -, htgt, -⟩ := running_registers h hr
  obtain ⟨-, hsrc', -, htgt', hheads⟩ := ht.heads
  have hs : s.srcLen = s.ftN - s.srcHead := rfl
  have ht' : s.tgtLen = s.nodeN - s.tgtHead := rfl
  refine ⟨fun htwo => ?_, fun hmore => ⟨if_neg fun hlast => ?_, ?_⟩⟩
  · rw [State.finishIfLast, if_pos (State.merged_last_iff.mpr (by omega))]
    rfl
  · have := State.merged_last_iff.mp hlast
    omega
  · simp only [State.srcLen, State.tgtLen, State.merged_ftN, State.merged_srcHead, State.merged_nodeN, State.merged_tgtHead]
    omega

/-- A build with m merges still to do, in a state whose builder's part meets the invariant (42_tree_builder R127). -/
def MergesLeft : Nat → State → Prop
  | 0, s => Inv s.builderView ∧ s.tbState = .done
  | m + 1, s => Inv s.builderView ∧ s.tbState = .running ∧ s.srcLen + s.tgtLen = m + 2

theorem MergesLeft.tbStepBody {m : Nat} {s : State} (h : MergesLeft (m + 1) s) :
    s.tbState = .running ∧ ∃ t, tbStepBody s = .done t ∧ MergesLeft m t := by
  obtain ⟨hinv, hr, hlen⟩ := h
  obtain ⟨_, _, _, _, _, _, _, _, -, -, -, -, hmerge⟩ := merge_facts hinv hr
  have hstep := tbStepBody_eq_done (s := s.builderView).mpr ⟨hr, hmerge⟩
  obtain ⟨a, b, src, tgt, na, nb, htakes, -, -, hv⟩ := mergeOnce_takes hinv hr hmerge
  obtain ⟨hlast, hmore⟩ := htakes.finishIfLast (na := na) (nb := nb) hinv hr
  rw [hv] at hstep
  obtain ⟨t, ht, hview⟩ := tbStepBody_of_builderView hstep
  have hinv' : Inv t.builderView := hview ▸ hinv.tbStepBody hstep
  refine ⟨hr, t, ht, ?_⟩
  cases m with
  | zero => exact ⟨hinv', (congrArg State.tbState hview).symm.trans (hlast hlen)⟩
  | succ m =>
    obtain ⟨hsame, hcount⟩ := hmore (by simp only [State.builderView_srcLen, State.builderView_tgtLen]; omega)
    rw [hsame] at hview
    refine ⟨hinv', (congrArg State.tbState hview).symm.trans hr, ?_⟩
    simp only [hview, State.builderView_srcLen, State.builderView_tgtLen] at hcount
    omega

/-- TB_STEPs do the merges one by one. -/
theorem MergesLeft.run {m k : Nat} {s : State} (h : MergesLeft (m + k) s) :
    ∃ t, runCommands (List.replicate k .tbStep) s = .next t ∧ MergesLeft m t := by
  induction k generalizing s with
  | zero => exact ⟨s, rfl, h⟩
  | succ k ih =>
    obtain ⟨-, u, hu, hleft⟩ := h.tbStepBody
    obtain ⟨t, ht, hm⟩ := ih hleft
    refine ⟨t, ?_, hm⟩
    rw [List.replicate_succ, runCommands, exec_tbStep_of_done hu]
    exact ht

/-- TB_BUILD's loop does them all, as the same number of TB_STEPs does (42_tree_builder R124). -/
theorem MergesLeft.buildLoop {m k : Nat} {s : State} (h : MergesLeft m s) (hk : m ≤ k) :
    ∃ t, buildLoop k s = .done t ∧ runCommands (List.replicate m .tbStep) s = .next t ∧ MergesLeft 0 t := by
  induction m generalizing k s with
  | zero =>
    obtain ⟨hinv, hdone⟩ := h
    refine ⟨s, ?_, rfl, hinv, hdone⟩
    cases k <;> simp [Machine.buildLoop, hdone]
  | succ m ih =>
    obtain ⟨hr, u, hu, hleft⟩ := h.tbStepBody
    obtain ⟨k, rfl⟩ := Nat.exists_eq_add_of_le' (Nat.one_le_of_lt hk)
    obtain ⟨t, hloop, hrun, hdone⟩ := ih hleft (Nat.le_of_succ_le_succ hk)
    refine ⟨t, ?_, ?_, hdone⟩
    · rw [Machine.buildLoop, if_pos hr, hu]
      exact hloop
    · rw [List.replicate_succ, runCommands, exec_tbStep_of_done hu]
      exact hrun

/-- TB_INIT leaves FT_N - 1 merges to do (42_tree_builder R122, R127). -/
theorem MergesLeft.startBuild {s : State} {first : FtEntry} {rest : List FtEntry} (h : TableHeld s (first :: rest))
    (hc : Conforming (first :: rest)) : MergesLeft (s.ftN - 1) (s.startBuild first rest) := by
  have hinv : Inv (s.startBuild first rest).builderView := by
    rw [State.startBuild_builderView h]
    exact (Inv.tableOnly hc).startBuild (fetchRange_eq_done.mpr (tableOnly_held _))
  have hlen : rest.length + 1 = s.ftN := Memory.readRange_length h
  by_cases hone : s.ftN = 1
  · rw [hone]
    exact ⟨hinv, by rw [State.startBuild_of_one hone]; rfl⟩
  · obtain ⟨m, hm⟩ : ∃ m, s.ftN = m + 2 := ⟨s.ftN - 2, by omega⟩
    have hqueues := State.startBuild_of_several (s := s) (first := first) (rest := rest) (by omega)
    rw [show s.ftN - 1 = m + 1 by omega]
    refine ⟨hinv, by rw [hqueues]; rfl, ?_⟩
    rw [hqueues]
    simp [State.srcLen, State.tgtLen, hm]

theorem exec_tbBuild_of_held {s t : State} {first : FtEntry} {rest : List FtEntry} (h : TableHeld s (first :: rest))
    (hloop : buildLoop s.ftN (s.startBuild first rest) = .done t) : exec .tbBuild s = .next t := by
  have hbody : tbBuildBody s = .done t := by rw [tbBuildBody, tbInitBody_of_held h]; exact hloop
  exact congrArg (settle _ s) hbody

/-- The entries of a table that is not empty. -/
theorem TableForm.exists_cons {s : State} (h : TableForm s) (hone : 1 ≤ s.ftN) :
    ∃ first rest, TableHeld s (first :: rest) ∧ Conforming (first :: rest) := by
  obtain ⟨hheld, hc⟩ := h
  have hlen : s.table.length = s.ftN := Memory.readRange_length hheld
  obtain ⟨first, rest, htable⟩ := List.exists_cons_of_length_pos (l := s.table) (by omega)
  exact ⟨first, rest, htable ▸ hheld, htable ▸ hc⟩

/-- Settles O31: TB_INIT leaves FT_N - 1 merges to do, and TB_BUILD's loop and the TB_STEPs do them alike. -/
theorem tbBuildEqualsInitAndSteps : Obligations.TbBuildEqualsInitAndSteps := by
  intro s htable hone _
  obtain ⟨first, rest, hheld, hc⟩ := htable.exists_cons hone
  have hleft := MergesLeft.startBuild hheld hc
  have hinit : ∀ k, runCommands (.tbInit :: List.replicate k .tbStep) s =
      runCommands (List.replicate k .tbStep) (s.startBuild first rest) := fun k => by
    rw [runCommands, exec_tbInit_of_held hheld]
  constructor
  · obtain ⟨t, hloop, hrun, -⟩ := hleft.buildLoop (Nat.sub_le _ 1)
    rw [hinit, hrun, exec_tbBuild_of_held hheld hloop]
  · intro k hk
    obtain ⟨m, hm⟩ : ∃ m, s.ftN - 1 = m + 1 + k := ⟨s.ftN - 2 - k, by omega⟩
    rw [hm] at hleft
    obtain ⟨t, hrun, -, hr, hlen⟩ := hleft.run
    exact ⟨t, (hinit k).trans hrun, hr, hlen.trans (by omega)⟩

end Sys2Proof.Machine
end

section
/-! PROOFS. Every node of a finished tree is reached from the root, and TB_BUILD makes such a tree (42_tree_builder R124 to R129). -/

namespace Sys2Proof.Machine

/-! ## The way from the root to a node -/

/-- A child is selected by a bit (45_encode_decode R172). -/
theorem Node.exists_child_of_mem {nd : Node} {i : Nat} (h : i ∈ nd.children) :
    ∃ b, nd.child b ≠ nilRef ∧ (nd.child b).toNat = i := by
  simp only [Node.children, List.mem_map, List.mem_filter, List.mem_cons, List.not_mem_nil, or_false, bne_iff_ne] at h
  obtain ⟨r, ⟨rfl | rfl, hne⟩, rfl⟩ := h
  · exact ⟨false, hne, rfl⟩
  · exact ⟨true, hne, rfl⟩

theorem follow_cons_of_read {nodes : Memory Node} {i : NodeRef} {nd : Node} {b : Bool} (h : Memory.read nodes i.toNat = some nd)
    (hb : nd.child b ≠ nilRef) (p : Bits) : follow nodes i (b :: p) = follow nodes (nd.child b) p := by
  rw [follow, h]
  exact if_neg hb

section Finished

variable {s : State} (h : Inv s) (hd : s.tbState = .done)
include h hd

/-- The builder's registers after a build (42_tree_builder R125). -/
theorem done_registers :
    s.srcHead = s.ftN ∧ s.tgtHead = s.nodeN ∧ s.root = nodeRef (s.nodeN - 1) ∧ s.treeValid = true ∧
    (s.ftN = 1 → s.nodeN = 2) ∧ (2 ≤ s.ftN → s.nodeN = 2 * s.ftN - 1) ∧ s.ftN < s.nodeN ∧ s.nodeN ≤ 255 := by
  obtain ⟨-, -, hbuilding, -, hdone, htv, -⟩ := h.builder
  obtain ⟨hone, -, -, -, hsingle⟩ := hbuilding (by simp [hd])
  obtain ⟨hsrc, htgt, hroot, hseveral⟩ := hdone hd
  have hmax := h.lengths.1
  exact ⟨hsrc, htgt, hroot, htv.mpr hd, hsingle, hseveral, by omega, by omega⟩

/-- Every node but the root is the child of a later one (42_tree_builder R125). -/
theorem done_parent {i : Nat} (hi : i < s.nodeN - 1) :
    ∃ j nd b, i < j ∧ j < s.nodeN ∧ Memory.read s.nodes j = some nd ∧ nd.child b ≠ nilRef ∧ (nd.child b).toNat = i := by
  obtain ⟨hsrc, -, -, -, -, -, hlt, -⟩ := done_registers h hd
  obtain ⟨-, hinternal, -, hsource, htarget⟩ := h.tree (by simp [hd])
  have hchild : i ∈ s.childIndices := by
    by_cases hleaf : i < s.ftN
    · exact List.mem_of_mem_filter (hsource ▸ List.mem_range'_1.mpr (by omega))
    · refine List.mem_of_mem_filter (htarget ▸ List.mem_range'_1.mpr ?_)
      rw [State.adoptedInternal, if_pos hd]
      omega
  obtain ⟨j, hj, hij⟩ := List.mem_flatMap.mp hchild
  rw [List.mem_range'_1] at hj
  obtain ⟨nd, hnd, -, -, -, hleft, hright, -⟩ := State.internalAt_iff.mp (hinternal j (by omega) hj.1)
  rw [hnd, Option.map_some, Option.getD_some] at hij
  obtain ⟨b, hne, rfl⟩ := Node.exists_child_of_mem hij
  refine ⟨j, nd, b, ?_, by omega, hnd, hne, rfl⟩
  cases b with
  | false => exact hleft
  | true =>
    split_ifs at hright
    · exact absurd hright hne
    · exact hright

/-- From the root a path leads to every node, and goes on from there as from the node itself (42_tree_builder R125). -/
theorem done_path {i : Nat} (hi : i < s.nodeN) :
    ∃ p : Bits, (i < s.nodeN - 1 → p ≠ []) ∧ ∀ q, follow s.nodes s.root (p ++ q) = follow s.nodes (nodeRef i) q := by
  obtain ⟨-, -, hroot, -, -, -, -, hmax⟩ := done_registers h hd
  induction hn : s.nodeN - i using Nat.strong_induction_on generalizing i with
  | _ n ih =>
    obtain hlt | rfl : i < s.nodeN - 1 ∨ i = s.nodeN - 1 := by omega
    · obtain ⟨j, nd, b, hij, hj, hnd, hne, hb⟩ := done_parent h hd hlt
      obtain ⟨p, -, hp⟩ := ih (s.nodeN - j) (by omega) hj rfl
      refine ⟨p ++ [b], by simp, fun q => ?_⟩
      have hread : Memory.read s.nodes (nodeRef j).toNat = some nd := by rwa [nodeRef_toNat (by omega)]
      have href : nd.child b = nodeRef i := by rw [← hb, nodeRef, BitVec.ofNat_toNat, BitVec.setWidth_eq]
      rw [List.append_assoc, hp, List.singleton_append, follow_cons_of_read hread hne, href]
    · exact ⟨[], fun hlt => absurd hlt (Nat.lt_irrefl _), fun q => by rw [hroot]; rfl⟩

/-- Every symbol of the table has a leaf that a path leads to (42_tree_builder R125). -/
theorem done_leadsTo {e : FtEntry} (he : e ∈ s.table) : ∃ p : Bits, LeadsTo s p e.sym := by
  obtain ⟨-, -, -, -, -, -, hlt, hmax⟩ := done_registers h hd
  obtain ⟨hleaves, -⟩ := h.tree (by simp [hd])
  obtain ⟨i, hi, rfl⟩ := List.mem_iff_getElem.mp he
  have hlen := (readRange_table h.table).1
  have hread : Memory.read s.nodes i = some (leafNode s.table[i]) := by
    rw [hleaves i (by omega), List.getElem?_eq_getElem hi, Option.map_some]
  obtain ⟨p, hne, hp⟩ := done_path h hd (i := i) (by omega)
  refine ⟨p, hne (by omega), ?_⟩
  rw [← List.append_nil p, hp, follow, nodeRef_toNat (by omega), hread]
  simp [leafNode, Node.isLeaf]

end Finished

/-! ## The tree TB_BUILD makes -/

/-- What a command that touches the builder's part alone leaves, field by field. -/
theorem BuilderOnly.eq_update {s t : State} (h : BuilderOnly s t) :
    t = { s with nodes := t.nodes, nodeN := t.nodeN, srcHead := t.srcHead, tgtHead := t.tgtHead, root := t.root,
                 tbState := t.tbState, treeValid := t.treeValid } := by
  obtain ⟨_, _, _, _, _, _, _, rfl⟩ := h
  rfl

/-- The builder keeps the table a state holds. -/
theorem BuilderOnly.table_eq {s t : State} (h : BuilderOnly s t) (hheld : TableHeld s s.table) :
    t.table = s.table ∧ t.ftN = s.ftN ∧ TableHeld t t.table := by
  obtain ⟨_, _, _, _, _, _, _, rfl⟩ := h
  exact ⟨rfl, rfl, hheld⟩

/-- The tree of a state is that of its builder's part. -/
theorem TreeForm.of_builderView {s : State} (hheld : TableHeld s s.table) (h : TreeForm s.builderView) : TreeForm s := by
  intro hne
  obtain ⟨hleaves, hrest⟩ := h hne
  rw [State.builderView_table hheld] at hleaves
  exact ⟨hleaves, hrest⟩

/-- TB_BUILD from a conforming table finishes, and the builder's part of what it leaves meets the invariant (42_tree_builder R124, R127). -/
theorem exec_tbBuild_of_tableForm {s : State} (htable : TableForm s) (hone : 1 ≤ s.ftN) :
    ∃ t, exec .tbBuild s = .next t ∧ BuilderOnly { s with codesValid := false } t ∧ Inv t.builderView ∧ t.tbState = .done := by
  obtain ⟨first, rest, hheld, hc⟩ := htable.exists_cons hone
  obtain ⟨t, hloop, -, hinv, hdone⟩ := (MergesLeft.startBuild hheld hc).buildLoop (Nat.sub_le _ 1)
  exact ⟨t, exec_tbBuild_of_held hheld hloop, (builderOnly_startBuild s first rest).trans (builderOnly_of_buildLoop hloop), hinv, hdone⟩

/-- Settles O30: the build changes the builder's part alone, and what the invariant says of that part when the build is done is the tree of 42_tree_builder R125. -/
theorem tbBuildMakesTheTree : Obligations.TbBuildMakesTheTree := by
  intro s htable hone _
  obtain ⟨t, hexec, hframe, hinv, hdone⟩ := exec_tbBuild_of_tableForm htable hone
  obtain ⟨htab, hftN, hheld⟩ : t.table = s.table ∧ t.ftN = s.ftN ∧ TableHeld t t.table := hframe.table_eq htable.1
  have hview : t.builderView.table = s.table := (State.builderView_table hheld).trans htab
  obtain ⟨hsrc, htgt, hroot, htv, hsingle, hseveral, -⟩ :
      t.srcHead = t.ftN ∧ t.tgtHead = t.nodeN ∧ t.root = nodeRef (t.nodeN - 1) ∧ t.treeValid = true ∧
      (t.ftN = 1 → t.nodeN = 2) ∧ (2 ≤ t.ftN → t.nodeN = 2 * t.ftN - 1) ∧ t.ftN < t.nodeN ∧ t.nodeN ≤ 255 :=
    done_registers (s := t.builderView) hinv hdone
  rw [hftN] at hsrc hsingle hseveral
  refine ⟨t, hexec, ?frame, fun h1 => ⟨hsingle h1, ?rootOne⟩, fun h2 => ⟨hseveral h2, ?rootTwo⟩, ?weight,
    .of_builderView hheld hinv.tree, fun e he => done_leadsTo hinv hdone (hview ▸ he)⟩
  case frame =>
    have hupdate : t = { s with nodes := t.nodes, nodeN := t.nodeN, srcHead := t.srcHead, tgtHead := t.tgtHead, root := t.root,
                                tbState := t.tbState, treeValid := t.treeValid, codesValid := false } := hframe.eq_update
    rw [hsrc, htgt, hdone, htv] at hupdate
    exact hupdate
  case rootOne => rw [hroot, hsingle h1]; rfl
  case rootTwo => rw [hroot, hseveral h2, Nat.sub_sub]; rfl
  case weight => exact (hinv.weights.2 hdone).trans (congrArg totalWeight hview)

end Sys2Proof.Machine
end

section
/-! PROOFS. The tree, and the code table made from it, depend on the Frequency Table alone (42_tree_builder R130, 43_code_table R140). -/

namespace Sys2Proof.Machine

/-! ## A build raises no error once it has begun -/

theorem Ending.bind_ne_raised {α β : Type} {e : Ending α} {f : α → Ending β} {c : ErrCode} {w : Word} (he : e ≠ .raised c w)
    (hf : ∀ a, f a ≠ .raised c w) : e.bind f ≠ .raised c w := by
  rw [Ne, Ending.bind_eq_raised]
  rintro (h | ⟨a, -, h⟩)
  · exact he h
  · exact hf a h

variable {c : ErrCode} {w : Word}

theorem takesSource_ne_raised (s : State) : takesSource s ≠ .raised c w := by
  unfold takesSource
  split_ifs
  · exact nofun
  · exact nofun
  · exact Ending.bind_ne_raised fetch_ne_raised fun _ => Ending.bind_ne_raised fetch_ne_raised nofun

theorem extract_ne_raised (s : State) : extract s ≠ .raised c w := by
  refine Ending.bind_ne_raised (takesSource_ne_raised s) fun fromSource => ?_
  split_ifs <;> exact nofun

theorem State.addMerged_ne_raised (s : State) (nd : Node) : s.addMerged nd ≠ .raised c w := by
  unfold State.addMerged
  split_ifs <;> exact nofun

theorem mergeOnce_ne_raised (s : State) : mergeOnce s ≠ .raised c w :=
  Ending.bind_ne_raised (extract_ne_raised s) fun _ => Ending.bind_ne_raised (extract_ne_raised _) fun _ =>
    Ending.bind_ne_raised fetch_ne_raised fun _ => Ending.bind_ne_raised fetch_ne_raised fun _ => State.addMerged_ne_raised _ _

theorem tbStepBody_ne_raised {s : State} (hr : s.tbState = .running) : tbStepBody s ≠ .raised c w := by
  rw [tbStepBody, if_pos hr]
  exact mergeOnce_ne_raised s

theorem buildLoop_ne_raised (k : Nat) (s : State) : buildLoop k s ≠ .raised c w := by
  induction k generalizing s with
  | zero => unfold buildLoop; split_ifs <;> exact nofun
  | succ k ih =>
    unfold buildLoop
    split_ifs with hr
    · exact Ending.bind_ne_raised (tbStepBody_ne_raised hr) ih
    · exact nofun

/-- TB_BUILD on a table that is not empty goes on only when its loop finishes (42_tree_builder R124). -/
theorem buildLoop_of_exec_tbBuild {s t : State} {first : FtEntry} {rest : List FtEntry} (hheld : TableHeld s (first :: rest))
    (h : exec .tbBuild s = .next t) : buildLoop s.ftN (s.startBuild first rest) = .done t := by
  have hbody : tbBuildBody s = buildLoop s.ftN (s.startBuild first rest) := by
    rw [tbBuildBody, tbInitBody_of_held hheld, Ending.bind_done]
  obtain hdone | ⟨c, w, hraised, -⟩ := settle_eq_next.mp h
  · exact hbody ▸ hdone
  · exact absurd (hbody ▸ hraised) (buildLoop_ne_raised _ _)

/-! ## A build that ends has a tree -/

theorem buildLoop_not_running {k : Nat} {s t : State} (h : buildLoop k s = .done t) : t.tbState ≠ .running := by
  induction k generalizing s with
  | zero =>
    unfold buildLoop at h
    split_ifs at h with hr
    exact Ending.done.inj h ▸ hr
  | succ k ih =>
    unfold buildLoop at h
    split_ifs at h with hr
    · obtain ⟨u, -, hloop⟩ := Ending.bind_eq_done.mp h
      exact ih hloop
    · exact Ending.done.inj h ▸ hr

/-- A build is running or has its tree (42_tree_builder R122, R123). -/
def RunningOrTree (s : State) : Prop := s.tbState = .running ∨ s.treeValid = true

theorem RunningOrTree.startBuild (s : State) (first : FtEntry) (rest : List FtEntry) :
    RunningOrTree (s.startBuild first rest) := by
  unfold State.startBuild
  split_ifs
  · exact .inr rfl
  · exact .inl rfl

theorem RunningOrTree.tbStepBody {s t : State} (h : tbStepBody s = .done t) : RunningOrTree t := by
  obtain ⟨hr, hm⟩ := tbStepBody_eq_done.mp h
  obtain ⟨a, b, src, tgt, na, nb, -, -, -, rfl⟩ := mergeOnce_eq_done hm
  unfold State.finishIfLast
  split_ifs
  · exact .inr rfl
  · exact .inl hr

theorem treeValid_of_buildLoop {k : Nat} {s t : State} {first : FtEntry} {rest : List FtEntry}
    (h : buildLoop k (s.startBuild first rest) = .done t) : t.treeValid = true :=
  (buildLoop_induction (P := RunningOrTree) (fun _ _ _ => RunningOrTree.tbStepBody) (.startBuild s first rest) h).resolve_left
    (buildLoop_not_running h)

/-! ## CT_GEN on a tree -/

theorem visit_ne_raised (nodes : Memory Node) (k : Nat) (i : NodeRef) (p : Bits) : visit nodes k i p ≠ .raised c w := by
  induction k generalizing i p with
  | zero => exact nofun
  | succ k ih =>
    refine Ending.bind_ne_raised fetch_ne_raised fun nd => ?_
    have hchild : ∀ (r : NodeRef) (q : Bits),
        (if r = nilRef then Ending.done [] else visit nodes k r q) ≠ .raised c w := fun r q => by
      split_ifs
      · exact nofun
      · exact ih r q
    by_cases hleaf : nd.isLeaf = true
    · rw [if_pos hleaf]
      exact nofun
    · rw [if_neg hleaf]
      exact Ending.bind_ne_raised (hchild _ _) fun _ => Ending.bind_ne_raised (hchild _ _) nofun

/-- With a tree, CT_GEN goes on only with the code table of its leaves (43_code_table R140). -/
theorem leafPaths_of_exec_ctGen {s t : State} (htree : s.treeValid = true) (h : exec .ctGen s = .next t) :
    ∃ leaves, leafPaths s.nodes s.root = .done leaves ∧ t.codes = codeTableOf leaves := by
  obtain hdone | ⟨c, w, hraised, -⟩ := settle_eq_next.mp h
  · obtain ⟨-, leaves, hleaves, rfl⟩ := ctGenBody_eq_done.mp hdone
    exact ⟨leaves, hleaves, rfl⟩
  · rw [ctGenBody, if_pos htree] at hraised
    exact absurd hraised (Ending.bind_ne_raised (visit_ne_raised s.nodes 128 s.root []) nofun)

/-- Two builds from one table leave the same builder's part (42_tree_builder R130). -/
theorem builderView_eq_of_table {s s' t t' : State} {first : FtEntry} {rest : List FtEntry} (hheld : TableHeld s (first :: rest))
    (hheld' : TableHeld s' (first :: rest)) (hloop : buildLoop s.ftN (s.startBuild first rest) = .done t)
    (hloop' : buildLoop s'.ftN (s'.startBuild first rest) = .done t') : t.builderView = t'.builderView := by
  have hn : s.ftN = s'.ftN := (Memory.readRange_length hheld).symm.trans (Memory.readRange_length hheld')
  refine Ending.done.inj ?_
  calc Ending.done t.builderView
      = (buildLoop s.ftN (s.startBuild first rest)).builderView := by rw [hloop]; rfl
    _ = buildLoop s.ftN ((tableOnly (first :: rest)).startBuild first rest) := by
        rw [← buildLoop_builderView, State.startBuild_builderView hheld]
    _ = (buildLoop s'.ftN (s'.startBuild first rest)).builderView := by
        rw [← buildLoop_builderView, State.startBuild_builderView hheld', hn]
    _ = Ending.done t'.builderView := by rw [hloop']; rfl

/-- Settles O32: both builds leave the same builder's part, which holds the tree, and CT_GEN reads nothing but the tree. -/
theorem treeDependsOnTableOnly : Obligations.TreeDependsOnTableOnly := by
  intro s s' t t' table hne hheld hheld' h h'
  obtain ⟨first, rest, rfl⟩ := List.exists_cons_of_ne_nil hne
  have hloop := buildLoop_of_exec_tbBuild hheld h
  have hloop' := buildLoop_of_exec_tbBuild hheld' h'
  have hview := builderView_eq_of_table hheld hheld' hloop hloop'
  have hnodes : t.nodes = t'.nodes := (congrArg State.nodes hview :)
  have hroot : t.root = t'.root := (congrArg State.root hview :)
  refine ⟨hnodes, hroot, (congrArg State.nodeN hview :), (congrArg State.srcHead hview :), (congrArg State.tgtHead hview :),
    fun u u' hu hu' => ?_⟩
  obtain ⟨leaves, hleaves, hcodes⟩ := leafPaths_of_exec_ctGen (treeValid_of_buildLoop hloop) hu
  obtain ⟨leaves', hleaves', hcodes'⟩ := leafPaths_of_exec_ctGen (treeValid_of_buildLoop hloop') hu'
  rw [← hnodes, ← hroot, hleaves] at hleaves'
  rw [hcodes, hcodes', Ending.done.inj hleaves']

end Sys2Proof.Machine
end

section
/-! PROOFS. The way from the root of a finished tree: where a path leads, how long it is, and that a node made later has no longer one (42_tree_builder R125, R126, 43_code_table R143, R144). -/

namespace Sys2Proof.Machine

/-! ## The nodes of a finished tree -/

theorem Node.not_isLeaf_of_left {nd : Node} (h : nd.left ≠ nilRef) : ¬ nd.isLeaf = true :=
  fun hleaf => h (nd.child_of_isLeaf hleaf false)

/-- The bit selects at node j the child i (45_encode_decode R172). -/
def ChildOf (s : State) (j : Nat) (b : Bool) (i : Nat) : Prop :=
  ∃ nd, Memory.read s.nodes j = some nd ∧ nd.child b ≠ nilRef ∧ (nd.child b).toNat = i

theorem ChildOf.mem {s : State} {j i : Nat} {b : Bool} (hc : ChildOf s j b i) :
    i ∈ ((Memory.read s.nodes j).map Node.children).getD [] := by
  obtain ⟨nd, hread, hne, rfl⟩ := hc
  rw [hread]
  refine List.mem_map_of_mem (List.mem_filter.mpr ⟨?_, by simpa using hne⟩)
  cases b <;> simp [Node.child]

section Finished

variable {s : State} (h : Inv s) (hd : s.tbState = .done)
include h hd

theorem done_ftN_pos : 1 ≤ s.ftN := by
  obtain ⟨-, -, hbuilding, -⟩ := h.builder
  exact (hbuilding (by simp [hd])).1

/-- The leaves of a finished tree are the table's entries in order (42_tree_builder R122). -/
theorem done_leaf {i : Nat} (hi : i < s.ftN) : ∃ e, s.table[i]? = some e ∧ Memory.read s.nodes i = some (leafNode e) := by
  obtain ⟨hleaves, -⟩ := h.tree (by simp [hd])
  have hlen := (readRange_table h.table).1
  have hentry := List.getElem?_eq_getElem (l := s.table) (i := i) (by omega)
  exact ⟨_, hentry, by rw [hleaves i hi, hentry]; rfl⟩

/-- The nodes above the leaves have a left child, a right child unless the table has one entry, and were made after both (42_tree_builder R125, R126). -/
theorem done_internal {i : Nat} (hi : s.ftN ≤ i) (hlt : i < s.nodeN) :
    ∃ nd, Memory.read s.nodes i = some nd ∧ ¬ nd.isLeaf = true ∧ (s.ftN = 1 → nd.right = nilRef) ∧
      ∀ b, nd.child b ≠ nilRef → (nd.child b).toNat < i := by
  obtain ⟨-, hinternal, -⟩ := h.tree (by simp [hd])
  obtain ⟨-, -, -, -, -, -, -, hmax⟩ := done_registers h hd
  obtain ⟨nd, hnd, -, -, -, hleft, hright, -⟩ := State.internalAt_iff.mp (hinternal i hlt hi)
  refine ⟨nd, hnd, Node.not_isLeaf_of_left fun hnil => ?_, fun hone => by rwa [if_pos hone] at hright, fun b hb => ?_⟩
  · rw [hnil] at hleft
    exact absurd hleft (by simp; omega)
  · cases b with
    | false => exact hleft
    | true =>
      split_ifs at hright
      · exact absurd hright hb
      · exact hright

/-- A node with a child is none of the leaves, and was made after the child (42_tree_builder R125). -/
theorem ChildOf.made_after {i j : Nat} {b : Bool} (hc : ChildOf s j b i) (hj : j < s.nodeN) : s.ftN ≤ j ∧ i < j := by
  obtain ⟨nd, hnd, hne, rfl⟩ := hc
  by_cases hlow : j < s.ftN
  · obtain ⟨e, -, hread⟩ := done_leaf h hd hlow
    obtain rfl := Option.some.inj (hnd.symm.trans hread)
    exact absurd ((leafNode e).child_of_isLeaf rfl b) hne
  · obtain ⟨nd', hread, -, -, hbelow⟩ := done_internal h hd (by omega) hj
    obtain rfl := Option.some.inj (hnd.symm.trans hread)
    exact ⟨by omega, hbelow b hne⟩

/-- Nodes of one kind are adopted in the order they were made: each queue gives its nodes out in FIFO order (42_tree_builder R120, R123). -/
theorem ChildOf.parent_le {i j i' j' : Nat} {b b' : Bool} (hi : ChildOf s i' b i) (hj : ChildOf s j' b' j) (hi' : i' < s.nodeN)
    (hj' : j' < s.nodeN) (hij : i ≤ j) (hkind : i < s.ftN ↔ j < s.ftN) : i' ≤ j' := by
  by_contra hlt
  obtain ⟨-, -, -, hsource, htarget⟩ := h.tree (by simp [hd])
  have hordered : s.childIndices.Pairwise fun x y => (x < s.ftN ↔ y < s.ftN) → x < y := by
    have hs := List.pairwise_filter.mp (hsource ▸ List.pairwise_lt_range')
    have ht := List.pairwise_filter.mp (htarget ▸ List.pairwise_lt_range')
    refine (hs.and ht).imp fun ⟨hs, ht⟩ hiff => ?_
    simp only [decide_eq_true_eq] at hs ht
    omega
  obtain ⟨-, hblocks⟩ := List.pairwise_flatMap.mp hordered
  obtain ⟨hinner, -⟩ := hj.made_after h hd hj'
  have hji := rel_of_pairwise_range' hblocks hinner (Nat.lt_of_not_le hlt) (by omega) j hj.mem i hi.mem hkind.symm
  omega

end Finished

/-! ## Paths from the root -/

/-- The bit string leads from the root to the node with this index. -/
inductive Reaches (s : State) : Bits → Nat → Prop
  /-- The empty path stays at the root. -/
  | root : Reaches s [] s.root.toNat
  /-- One more bit goes on to the child it selects. -/
  | child {p : Bits} {i j : Nat} {b : Bool} (hp : Reaches s p j) (hc : ChildOf s j b i) : Reaches s (p ++ [b]) i

/-- Where follow goes from a node, there the path to the node leads with those bits added. -/
theorem Reaches.of_follow {s : State} {p q : Bits} {r : NodeRef} {x : Node} (hp : Reaches s p r.toNat)
    (hf : follow s.nodes r q = some x) : ∃ i, Reaches s (p ++ q) i ∧ Memory.read s.nodes i = some x := by
  induction q generalizing p r with
  | nil => exact ⟨r.toNat, by rwa [List.append_nil], hf⟩
  | cons b q ih =>
    obtain ⟨nd, hread, hb, hq⟩ := follow_cons hf
    obtain ⟨i, hi, hx⟩ := ih (hp.child ⟨nd, hread, hb, rfl⟩) hq
    exact ⟨i, by simpa using hi, hx⟩

section Finished

variable {s : State} (h : Inv s) (hd : s.tbState = .done)
include h hd

theorem done_root_toNat : s.root.toNat = s.nodeN - 1 := by
  obtain ⟨-, -, hroot, -, -, -, -, hmax⟩ := done_registers h hd
  rw [hroot, nodeRef_toNat (by omega)]

/-- Each bit of a path goes to a node made earlier, so a path is no longer than the number of nodes above its end (43_code_table R143). -/
theorem Reaches.length_add_le {p : Bits} {i : Nat} (hp : Reaches s p i) : p.length + max i (s.ftN - 1) ≤ s.nodeN - 1 := by
  obtain ⟨-, -, -, -, -, -, hlt, -⟩ := done_registers h hd
  induction hp with
  | root =>
    rw [done_root_toNat h hd, List.length_nil]
    omega
  | child _ hc ih =>
    have := hc.made_after h hd (by omega)
    rw [List.length_append, List.length_singleton]
    omega

theorem Reaches.lt_nodeN {p : Bits} {i : Nat} (hp : Reaches s p i) : i < s.nodeN := by
  obtain ⟨-, -, -, -, -, -, hlt, -⟩ := done_registers h hd
  have := hp.length_add_le h hd
  omega

/-- Of two nodes of one kind the one made later has no longer path: its parent is no earlier than the other's (43_code_table R144). -/
theorem Reaches.length_le {p q : Bits} {i j : Nat} (hp : Reaches s p i) (hq : Reaches s q j) (hij : i ≤ j)
    (hkind : i < s.ftN ↔ j < s.ftN) : q.length ≤ p.length := by
  induction hp generalizing q j with
  | root =>
    have := hq.length_add_le h hd
    rw [done_root_toNat h hd] at hij
    omega
  | child hp hc ih =>
    cases hq with
    | root => exact Nat.zero_le _
    | child hq hc' =>
      have hlt := hp.lt_nodeN h hd
      have hlt' := hq.lt_nodeN h hd
      obtain ⟨hinner, -⟩ := hc.made_after h hd hlt
      obtain ⟨hinner', -⟩ := hc'.made_after h hd hlt'
      simpa using ih hq (hc.parent_le h hd hc' hlt hlt' hij hkind) (by omega)

/-! ## The paths to the leaves -/

/-- A path that leads to a symbol ends at the leaf of the symbol's table entry (42_tree_builder R122). -/
theorem LeadsTo.exists_entry {p : Bits} {c : Symbol} (hp : LeadsTo s p c) :
    ∃ i e, Reaches s p i ∧ i < s.ftN ∧ s.table[i]? = some e ∧ e.sym = c := by
  obtain ⟨x, hx, hleaf⟩ := (Option.any_eq_true _ _).mp hp.2
  simp only [Bool.and_eq_true, beq_iff_eq] at hleaf
  obtain ⟨i, hi, hread⟩ := Reaches.of_follow .root hx
  rw [List.nil_append] at hi
  have hlow : i < s.ftN := by
    by_contra hge
    obtain ⟨nd, hnd, hinner, -⟩ := done_internal h hd (Nat.le_of_not_lt hge) (hi.lt_nodeN h hd)
    obtain rfl := Option.some.inj (hnd.symm.trans hread)
    exact hinner hleaf.1
  obtain ⟨e, he, hnd⟩ := done_leaf h hd hlow
  obtain rfl := Option.some.inj (hnd.symm.trans hread)
  exact ⟨i, e, hi, hlow, he, hleaf.2⟩

theorem exists_leadsTo_iff {c : Symbol} : (∃ p, LeadsTo s p c) ↔ ∃ d ∈ s.table, d.sym = c := by
  constructor
  · rintro ⟨p, hp⟩
    obtain ⟨i, e, -, -, he, hc⟩ := hp.exists_entry h hd
    exact ⟨e, List.mem_of_getElem? he, hc⟩
  · rintro ⟨d, hmem, rfl⟩
    exact done_leadsTo h hd hmem

/-- A leaf's path has one bit for the single symbol, and at most FT_N - 1 bits otherwise (43_code_table R143). -/
theorem LeadsTo.length_le {p : Bits} {c : Symbol} (hp : LeadsTo s p c) :
    p.length ≤ 127 ∧ (s.ftN = 1 → p.length ≤ 1) ∧ (2 ≤ s.ftN → p.length ≤ s.ftN - 1) := by
  obtain ⟨i, -, hi, -⟩ := hp.exists_entry h hd
  have hone := done_ftN_pos h hd
  have hbound := hi.length_add_le h hd
  obtain ⟨-, -, -, -, hsingle, hseveral, -⟩ := done_registers h hd
  have hmax := h.lengths.1
  omega

/-- The single symbol's path goes left (43_code_table R141). -/
theorem LeadsTo.eq_of_single {p : Bits} {c : Symbol} (hone : s.ftN = 1) (hp : LeadsTo s p c) : p = [false] := by
  obtain ⟨-, hshort, -⟩ := hp.length_le h hd
  obtain ⟨hne, hleads⟩ := hp
  obtain ⟨b, q, rfl⟩ := List.exists_cons_of_ne_nil hne
  obtain rfl : q = [] := List.eq_nil_of_length_eq_zero (by simpa using hshort hone)
  obtain ⟨x, hx, -⟩ := (Option.any_eq_true _ _).mp hleads
  obtain ⟨nd, hread, hb, -⟩ := follow_cons hx
  obtain ⟨-, -, -, -, -, -, hlt, -⟩ := done_registers h hd
  rw [done_root_toNat h hd] at hread
  obtain ⟨nd', hnd', -, hright, -⟩ := done_internal h hd (i := s.nodeN - 1) (by omega) (by omega)
  obtain rfl := Option.some.inj (hnd'.symm.trans hread)
  cases b with
  | false => rfl
  | true => exact absurd (hright hone) hb

end Finished

/-! ## Paths to a leaf -/

/-- From a node the bit string leads to the leaf of a symbol. -/
abbrev LeafAt (nodes : Memory Node) (r : NodeRef) (p : Bits) (c : Symbol) : Prop :=
  (follow nodes r p).any (fun nd => nd.isLeaf && nd.sym == c) = true

theorem leadsTo_iff {s : State} {p : Bits} {c : Symbol} : LeadsTo s p c ↔ p ≠ [] ∧ LeafAt s.nodes s.root p c := Iff.rfl

theorem leafAt_nil {nodes : Memory Node} {r : NodeRef} {nd : Node} (hread : Memory.read nodes r.toNat = some nd) (c : Symbol) :
    LeafAt nodes r [] c ↔ nd.isLeaf = true ∧ nd.sym = c := by
  simp [LeafAt, follow, hread]

theorem leafAt_cons {nodes : Memory Node} {r : NodeRef} {nd : Node} (hread : Memory.read nodes r.toNat = some nd) (b : Bool)
    (p : Bits) (c : Symbol) : LeafAt nodes r (b :: p) c ↔ nd.child b ≠ nilRef ∧ LeafAt nodes (nd.child b) p c := by
  by_cases hb : nd.child b = nilRef
  · simp [LeafAt, follow, hread, hb]
  · simp [LeafAt, follow_cons_of_read hread hb, hb]

/-- At a leaf only the empty path ends at one (45_encode_decode R172). -/
theorem leafAt_of_isLeaf {nodes : Memory Node} {r : NodeRef} {nd : Node} (hread : Memory.read nodes r.toNat = some nd)
    (hleaf : nd.isLeaf = true) (p : Bits) (c : Symbol) : LeafAt nodes r p c ↔ p = [] ∧ nd.sym = c := by
  cases p with
  | nil => simp [leafAt_nil hread, hleaf]
  | cons b p => simp [leafAt_cons hread, nd.child_of_isLeaf hleaf b]

theorem LeafAt.exists_read {nodes : Memory Node} {r : NodeRef} {p : Bits} {c : Symbol} (hp : LeafAt nodes r p c) :
    ∃ nd, Memory.read nodes r.toNat = some nd := by
  obtain ⟨x, hx, -⟩ := (Option.any_eq_true _ _).mp hp
  obtain ⟨nd, hread, -⟩ := follow_start hx
  exact ⟨nd, hread⟩

/-- A path to a leaf goes no further, so no path to another symbol begins with it (43_code_table R142). -/
theorem LeafAt.eq_of_prefix {nodes : Memory Node} {r : NodeRef} {p q : Bits} {c d : Symbol} (hp : LeafAt nodes r p c)
    (hq : LeafAt nodes r q d) (hpq : p <+: q) : c = d := by
  obtain ⟨nd, hread⟩ := hp.exists_read
  induction p generalizing r q nd with
  | nil =>
    obtain ⟨hleaf, rfl⟩ := (leafAt_nil hread c).mp hp
    exact ((leafAt_of_isLeaf hread hleaf q d).mp hq).2
  | cons b p ih =>
    obtain ⟨q, rfl, hrest⟩ := List.cons_prefix_iff.mp hpq
    have hp' := ((leafAt_cons hread b p c).mp hp).2
    obtain ⟨nd', hread'⟩ := hp'.exists_read
    exact ih hp' ((leafAt_cons hread b q d).mp hq).2 hrest nd' hread'

end Sys2Proof.Machine
end

section
/-! PROOFS. CT_GEN: what visit lists, the table made from it, and the codes a state with CODES_VALID = 1 holds (43_code_table R140 to R144). -/

namespace Sys2Proof.Machine

/-! ## The leaves visit lists -/

/-- What visit does with the child a bit selects: an absent one is skipped (43_code_table R140). -/
def visitChild (nodes : Memory Node) (k : Nat) (nd : Node) (p : Bits) (b : Bool) : Ending (List (Symbol × Bits)) :=
  if nd.child b = nilRef then .done [] else visit nodes k (nd.child b) (p ++ [b])

section Visit

variable {nodes : Memory Node} {k : Nat} {r : NodeRef} {nd : Node} (hread : Memory.read nodes r.toNat = some nd) (p : Bits)
include hread

theorem visit_of_leaf (hleaf : nd.isLeaf = true) : visit nodes (k + 1) r p = .done [(nd.sym, p)] := by
  rw [visit, fetch_of_read hread, Ending.bind_done, if_pos hleaf]

theorem visit_of_inner (hinner : ¬ nd.isLeaf = true) :
    visit nodes (k + 1) r p =
      (visitChild nodes k nd p false).bind fun ls => (visitChild nodes k nd p true).bind fun rs => .done (ls ++ rs) := by
  rw [visit, fetch_of_read hread, Ending.bind_done, if_neg hinner]
  rfl

end Visit

/-- visit lists a symbol with a path exactly when the path goes on from p to a leaf of the symbol (43_code_table R140). -/
theorem mem_visit {nodes : Memory Node} {k : Nat} {r : NodeRef} {p : Bits} {l : List (Symbol × Bits)}
    (hv : visit nodes k r p = .done l) (c : Symbol) (q : Bits) : (c, q) ∈ l ↔ ∃ t, q = p ++ t ∧ LeafAt nodes r t c := by
  induction k generalizing r p l with
  | zero => cases hv
  | succ k ih =>
    obtain ⟨nd, hread, -⟩ := Ending.bind_eq_done.mp hv
    rw [fetch_eq_done] at hread
    by_cases hleaf : nd.isLeaf = true
    · rw [visit_of_leaf hread p hleaf] at hv
      cases hv
      simp [leafAt_of_isLeaf hread hleaf, and_comm, eq_comm]
    · rw [visit_of_inner hread p hleaf] at hv
      obtain ⟨ls, hls, hv⟩ := Ending.bind_eq_done.mp hv
      obtain ⟨rs, hrs, hv⟩ := Ending.bind_eq_done.mp hv
      cases hv
      have hchild : ∀ {b m}, visitChild nodes k nd p b = .done m →
          ((c, q) ∈ m ↔ ∃ t, q = p ++ b :: t ∧ LeafAt nodes r (b :: t) c) := fun {b m} hm => by
        simp only [leafAt_cons hread]
        unfold visitChild at hm
        split_ifs at hm with hb
        · cases hm
          simp [hb]
        · simp [ih hm, hb]
      rw [List.mem_append, hchild hls, hchild hrs]
      constructor
      · rintro (⟨t, ht⟩ | ⟨t, ht⟩)
        · exact ⟨false :: t, ht⟩
        · exact ⟨true :: t, ht⟩
      · rintro ⟨_ | ⟨_ | _, t⟩, ht⟩
        · exact absurd ((leafAt_nil hread c).mp ht.2).1 hleaf
        · exact .inl ⟨t, ht⟩
        · exact .inr ⟨t, ht⟩

section Finished

variable {s : State} (h : Inv s) (hd : s.tbState = .done)
include h hd

/-- visit ends within as many levels as there are nodes above the leaves, and one more (43_code_table R143; log 12). -/
theorem done_visit {k : Nat} {r : NodeRef} (hr : r.toNat < s.nodeN) (hk : r.toNat + 1 - s.ftN < k) (p : Bits) :
    ∃ l, visit s.nodes k r p = .done l := by
  induction k generalizing r p with
  | zero => omega
  | succ k ih =>
    by_cases hlow : r.toNat < s.ftN
    · obtain ⟨e, -, hread⟩ := done_leaf h hd hlow
      exact ⟨_, visit_of_leaf hread p rfl⟩
    · obtain ⟨nd, hread, hinner, -, hbelow⟩ := done_internal h hd (by omega) hr
      have hchild : ∀ b, ∃ m, visitChild s.nodes k nd p b = .done m := fun b => by
        unfold visitChild
        split_ifs with hb
        · exact ⟨_, rfl⟩
        · have := hbelow b hb
          exact ih (by omega) (by omega) _
      obtain ⟨ls, hls⟩ := hchild false
      obtain ⟨rs, hrs⟩ := hchild true
      exact ⟨ls ++ rs, by rw [visit_of_inner hread p hinner, hls, hrs, Ending.bind_done, Ending.bind_done]⟩

theorem done_leafPaths : ∃ leaves, leafPaths s.nodes s.root = .done leaves := by
  obtain ⟨-, -, -, -, hsingle, hseveral, hlt, -⟩ := done_registers h hd
  have hroot := done_root_toNat h hd
  have hone := done_ftN_pos h hd
  have hmax := h.lengths.1
  exact done_visit h hd (by omega) (by omega) []

/-- The leaves CT_GEN finds, with their paths (43_code_table R140). -/
theorem mem_leafPaths {leaves : List (Symbol × Bits)} (hl : leafPaths s.nodes s.root = .done leaves) {c : Symbol} {p : Bits} :
    (c, p) ∈ leaves ↔ LeadsTo s p c := by
  have hne : LeafAt s.nodes s.root p c → p ≠ [] := by
    rintro hp rfl
    obtain ⟨-, -, -, -, -, -, hlt, -⟩ := done_registers h hd
    have hroot := done_root_toNat h hd
    obtain ⟨nd, hread, hinner, -⟩ := done_internal h hd (i := s.root.toNat) (by omega) (by omega)
    exact hinner ((leafAt_nil hread c).mp hp).1
  rw [mem_visit hl, leadsTo_iff]
  simpa using hne

end Finished

/-! ## The table made from the leaves -/

theorem codeTableOf_concat (leaves : List (Symbol × Bits)) (l : Symbol × Bits) :
    codeTableOf (leaves ++ [l]) = Memory.write (codeTableOf leaves) l.1.toNat (entryOfPath l.2) := by
  simp [codeTableOf]

/-- An entry is that of a leaf of its symbol, or absent when there is none (43_code_table R140). -/
theorem codeTableOf_cases (leaves : List (Symbol × Bits)) (c : Symbol) :
    (∃ p, (c, p) ∈ leaves ∧ Memory.read (codeTableOf leaves) c.toNat = some (entryOfPath p)) ∨
    ((∀ p, (c, p) ∉ leaves) ∧ Memory.read (codeTableOf leaves) c.toNat = some absentEntry) := by
  induction leaves using List.reverseRecOn with
  | nil => exact .inr ⟨by simp, by simp [codeTableOf, c.isLt]⟩
  | append_singleton leaves l ih =>
    obtain ⟨d, q⟩ := l
    rw [codeTableOf_concat, Memory.read_write]
    by_cases hcd : c = d
    · exact .inl ⟨q, by simp [hcd], by rw [if_pos (congrArg _ hcd)]⟩
    · rw [if_neg fun heq => hcd (BitVec.eq_of_toNat_eq heq)]
      simpa [hcd] using ih

/-! ## A code table that belongs to the tree -/

/-- The code table is the one the tree's leaves give (43_code_table R140). -/
def CodesOfTree (s : State) (codes : Memory CodeEntry) : Prop :=
  ∃ leaves, leafPaths s.nodes s.root = .done leaves ∧ codes = codeTableOf leaves

theorem Inv.codesOfTree {s : State} (h : Inv s) (hv : s.codesValid = true) : s.tbState = .done ∧ CodesOfTree s s.codes := by
  obtain ⟨-, -, -, -, -, htree, hcodes⟩ := h.builder
  obtain ⟨leaves, hleaves, htable⟩ := Ending.bind_eq_done.mp (h.codes hv)
  exact ⟨htree.mp (hcodes hv), leaves, hleaves, (Ending.done.inj htable).symm⟩

theorem CodesOfTree.exists_read {s : State} {codes : Memory CodeEntry} (hc : CodesOfTree s codes) (c : Symbol) :
    ∃ e, Memory.read codes c.toNat = some e := by
  obtain ⟨leaves, -, rfl⟩ := hc
  obtain ⟨p, -, hentry⟩ | ⟨-, hentry⟩ := codeTableOf_cases leaves c
  · exact ⟨_, hentry⟩
  · exact ⟨_, hentry⟩

section Codes

variable {s : State} {codes : Memory CodeEntry} (h : Inv s) (hd : s.tbState = .done) (hc : CodesOfTree s codes) {c : Symbol}
  {e : CodeEntry} (hread : Memory.read codes c.toNat = some e)
include h hd hc hread

/-- An entry spells a path to its symbol's leaf, or is absent when there is no leaf (43_code_table R140). -/
theorem CodesOfTree.cases :
    (∃ p, LeadsTo s p c ∧ e = entryOfPath p) ∨ ((∀ p, ¬ LeadsTo s p c) ∧ e = absentEntry) := by
  obtain ⟨leaves, hleaves, rfl⟩ := hc
  have := codeTableOf_cases leaves c
  simpa only [mem_leafPaths h hd hleaves, hread, Option.some.injEq] using this

/-- The entry of a symbol is valid exactly when the table has it (43_code_table R143). -/
theorem CodesOfTree.valid_iff : e.valid = true ↔ ∃ d ∈ s.table, d.sym = c := by
  rw [← exists_leadsTo_iff h hd]
  obtain ⟨p, hp, rfl⟩ | ⟨hnone, rfl⟩ := hc.cases h hd hread
  · exact iff_of_true rfl ⟨p, hp⟩
  · exact iff_of_false (by simp [absentEntry]) (by simpa using hnone)

/-- A valid entry's code leads to its symbol's leaf (43_code_table R140). -/
theorem CodesOfTree.leadsTo (hv : e.valid = true) : LeadsTo s e.bits c := by
  obtain ⟨p, hp, rfl⟩ | ⟨-, rfl⟩ := hc.cases h hd hread
  · rwa [entryOfPath_bits (hp.length_le h hd).1]
  · cases hv

/-- CODE is zero beyond LEN (43_code_table R140). -/
theorem CodesOfTree.zero_beyond {j : Nat} (hj : e.len.toNat ≤ j) : e.code.getMsbD j = false := by
  obtain ⟨p, hp, rfl⟩ | ⟨-, rfl⟩ := hc.cases h hd hread
  · have hshort := (hp.length_le h hd).1
    rw [← CodeEntry.bits_length, entryOfPath_bits hshort] at hj
    show (codeOfPath p).getMsbD j = false
    rw [codeOfPath_getMsbD (by omega)]
    simp [hj]
  · simp [absentEntry]

theorem CodesOfTree.eq_absent (hv : e.valid = false) : e = absentEntry := by
  obtain ⟨p, -, rfl⟩ | ⟨-, rfl⟩ := hc.cases h hd hread
  · cases hv
  · rfl

end Codes

/-! ## CT_GEN as a command -/

theorem exec_ctGen_without_tree {s : State} (htree : s.treeValid = false) (hclear : s.errCode = 0#8) :
    exec .ctGen s = .next { s with errCode := 0x09#8, errOp := 0x30#8, errInfo := 0#32 } := by
  rw [show exec .ctGen s = settle 0x30#8 s (ctGenBody s) from rfl, ctGenBody, if_neg (by simp [htree]), settle_raised,
    State.raiseError_of_clear hclear]
  rfl

theorem exec_ctGen_of_leafPaths {s : State} {leaves : List (Symbol × Bits)} (htree : s.treeValid = true)
    (hl : leafPaths s.nodes s.root = .done leaves) : exec .ctGen s = .next (s.putCodes (codeTableOf leaves)) :=
  congrArg (settle _ s) (ctGenBody_eq_done.mpr ⟨htree, leaves, hl, rfl⟩)

/-- Settles O33: visit ends because every child was made before its parent, it lists exactly the paths to the leaves, and the table made from them holds each symbol's path or nothing. -/
theorem ctGenMakesTheCodes : Obligations.CtGenMakesTheCodes := by
  refine ⟨fun s => exec_ctGen_without_tree, fun s h htree => ?_⟩
  have hd : s.tbState = .done := by
    obtain ⟨-, -, -, -, -, htv, -⟩ := h.builder
    exact htv.mp htree
  obtain ⟨leaves, hleaves⟩ := done_leafPaths h hd
  have hc : CodesOfTree s (codeTableOf leaves) := ⟨leaves, hleaves, rfl⟩
  refine ⟨_, exec_ctGen_of_leafPaths htree hleaves, rfl, fun c => ?_⟩
  obtain ⟨e, hread⟩ := hc.exists_read c
  refine ⟨e, hread, hc.valid_iff h hd hread, fun hv => ?_, hc.eq_absent h hd hread⟩
  have hleads := hc.leadsTo h hd hread hv
  have hpos := List.length_pos_iff.mpr hleads.1
  obtain ⟨hshort, -, hseveral⟩ := hleads.length_le h hd
  rw [CodeEntry.bits_length] at hpos hshort hseveral
  exact ⟨hleads, hpos, hshort, fun j => hc.zero_beyond h hd hread, fun hone => hleads.eq_of_single h hd hone, hseveral⟩

/-- Settles O34: each code leads from the root to its symbol's leaf, and no path to a leaf goes on to another. -/
theorem codesArePrefixFree : Obligations.CodesArePrefixFree := by
  intro s c d e f h hv hne he hf hev hfv hprefix
  obtain ⟨hd, hc⟩ := h.codesOfTree hv
  have hleads := hc.leadsTo h hd he hev
  have hleads' := hc.leadsTo h hd hf hfv
  exact hne (LeafAt.eq_of_prefix hleads.2 hleads'.2 hprefix)

/-- The code of a table's entry leads to the leaf of the same index (42_tree_builder R122, 43_code_table R140). -/
theorem CodesOfTree.reaches {s : State} {codes : Memory CodeEntry} (h : Inv s) (hd : s.tbState = .done) (hc : CodesOfTree s codes)
    {i : Nat} {x : FtEntry} {e : CodeEntry} (hi : s.table[i]? = some x) (he : Memory.read codes x.sym.toNat = some e) :
    Reaches s e.bits i ∧ i < s.ftN := by
  have hv := (hc.valid_iff h hd he).mpr ⟨x, List.mem_of_getElem? hi, rfl⟩
  obtain ⟨j, y, hreaches, hlow, hj, hsym⟩ := (hc.leadsTo h hd he hv).exists_entry h hd
  obtain ⟨-, -, -, hnodup, -⟩ := h.table
  have hlen := (readRange_table h.table).1
  obtain rfl : j = i := (List.getElem?_inj (by simpa [hlen] using hlow) hnodup).mp (by simp [hi, hj, hsym])
  exact ⟨hreaches, hlow⟩

/-- Settles O35: the heavier entry comes later in the sorted table, so its leaf was made later and its path is no longer. -/
theorem heavierSymbolsHaveNoLongerCodes : Obligations.HeavierSymbolsHaveNoLongerCodes := by
  intro s x y e f h hv hx hy hlt he hf
  obtain ⟨hd, hc⟩ := h.codesOfTree hv
  obtain ⟨i, hi⟩ := List.mem_iff_getElem?.mp hx
  obtain ⟨j, hj⟩ := List.mem_iff_getElem?.mp hy
  obtain ⟨hreaches, hlow⟩ := hc.reaches h hd hi he
  obtain ⟨hreaches', hlow'⟩ := hc.reaches h hd hj hf
  have hji : j ≤ i := by
    by_contra hij
    obtain ⟨hi', rfl⟩ := List.getElem?_eq_some_iff.mp hi
    obtain ⟨hj', rfl⟩ := List.getElem?_eq_some_iff.mp hj
    obtain ⟨-, -, hsorted, -⟩ := h.table
    exact BitVec.not_le.mpr hlt (List.pairwise_iff_getElem.mp hsorted i j hi' hj' (by omega))
  have hlen := hreaches'.length_le h hd hreaches hji (by omega)
  rwa [CodeEntry.bits_length, CodeEntry.bits_length] at hlen

end Sys2Proof.Machine
end

section
/-! PROOFS. Pack and Unpack as functions: a packing is its bit string behind a marker, and Unpack takes off what Pack puts on (44_bitstream R150, R152, R154 to R156). -/

namespace Sys2Proof.Machine

/-! ## The marker -/

/-- The bytes are the bit string behind a marker: fewer than eight zeros, a one, then the bits (44_bitstream R150). -/
def Marked (bs : List Byte) (b : Bits) : Prop := ∃ k < 8, expandAll bs = List.replicate k false ++ true :: b

/-- The first one in a bit string is in one place, so a marker is read in one way. -/
theorem marker_injective {j k : Nat} {b c : Bits}
    (h : List.replicate j false ++ true :: b = List.replicate k false ++ true :: c) : j = k ∧ b = c := by
  induction j generalizing k with
  | zero => cases k <;> simp_all [List.replicate_succ]
  | succ j ih =>
    cases k with
    | zero => simp [List.replicate_succ] at h
    | succ k =>
      obtain ⟨rfl, rfl⟩ := ih (by simpa [List.replicate_succ] using h)
      exact ⟨rfl, rfl⟩

theorem Marked.unique {bs : List Byte} {b c : Bits} (hb : Marked bs b) (hc : Marked bs c) : b = c := by
  obtain ⟨j, -, hj⟩ := hb
  obtain ⟨k, -, hk⟩ := hc
  exact (marker_injective (hj.symm.trans hk)).2

theorem not_marked_zero (vs : List Byte) (b : Bits) : ¬ Marked (0x00#8 :: vs) b := by
  rintro ⟨k, hk, h⟩
  have hone : (expand 0x00#8 ++ expandAll vs)[k]? = some true := by rw [← expandAll_cons, h]; simp
  have hzero : (expand 0x00#8)[k]? = some false := by interval_cases k <;> rfl
  rw [List.getElem?_append_left hk, hzero] at hone
  cases hone

/-- A non-zero byte holds a marker, which its leading zeros find (44_bitstream R152). -/
theorem marked_drop {v : Byte} (hv : v ≠ 0x00#8) (vs : List Byte) :
    Marked (v :: vs) ((expandAll (v :: vs)).drop (leadingZeros v + 1)) := by
  obtain ⟨hlt, hexpand⟩ := expand_of_ne_zero hv
  refine ⟨leadingZeros v, hlt, ?_⟩
  rw [expandAll_cons, List.drop_append_of_le_length (by simpa using hlt)]
  calc expand v ++ expandAll vs
    _ = (List.replicate (leadingZeros v) false ++ [true] ++ (expand v).drop (leadingZeros v + 1)) ++ expandAll vs := by
      rw [← hexpand]
    _ = List.replicate (leadingZeros v) false ++ true :: ((expand v).drop (leadingZeros v + 1) ++ expandAll vs) := by simp

/-! ## Unpack and Pack by the marker -/

theorem unpackBytes_cons {v : Byte} (hv : v ≠ 0x00#8) (vs : List Byte) :
    unpackBytes (v :: vs) = some ((expandAll (v :: vs)).drop (leadingZeros v + 1)) := if_neg hv

theorem unpackBytes_eq_some_iff {bs : List Byte} {b : Bits} : unpackBytes bs = some b ↔ Marked bs b := by
  cases bs with
  | nil => simp [unpackBytes, Marked]
  | cons v vs =>
    by_cases hv : v = 0x00#8
    · subst hv
      exact iff_of_false nofun (not_marked_zero vs b)
    · rw [unpackBytes_cons hv, Option.some.injEq]
      exact ⟨fun h => h ▸ marked_drop hv vs, (marked_drop hv vs).unique⟩

/-- Unpack fails on no bytes and on a first byte of zeros alone (44_bitstream R152). -/
theorem exists_unpackBytes_iff {bs : List Byte} : (∃ b, unpackBytes bs = some b) ↔ ∃ v vs, bs = v :: vs ∧ v ≠ 0x00#8 := by
  cases bs <;> simp [unpackBytes]

/-- The bits of a packing (44_bitstream R150). -/
theorem expandAll_packBits (b : Bits) :
    expandAll (packBits b) = List.replicate (padding b.length - 1) false ++ [true] ++ b :=
  expandAll_groupBytes (n := packedLength b.length) (by simp [← padded_length]; omega)

theorem marked_packBits (b : Bits) : Marked (packBits b) b := by
  have := padding_pos b.length
  exact ⟨padding b.length - 1, by omega, by simp [expandAll_packBits]⟩

/-- Whole bytes leave one choice for the number of zeros. -/
theorem packBits_eq_iff {b : Bits} {bs : List Byte} : packBits b = bs ↔ Marked bs b := by
  constructor
  · rintro rfl
    exact marked_packBits b
  · rintro ⟨k, hk, h⟩
    have hlen := congrArg List.length h
    rw [expandAll_length, List.length_append, List.length_replicate, List.length_cons] at hlen
    have hpad : padding b.length - 1 = k := by unfold padding; omega
    refine expandAll_injective ?_
    rw [expandAll_packBits, hpad, h, List.append_assoc, List.singleton_append]

theorem unpackBytes_eq_some_iff_packBits {bs : List Byte} {b : Bits} : unpackBytes bs = some b ↔ packBits b = bs :=
  unpackBytes_eq_some_iff.trans packBits_eq_iff.symm

theorem unpackBytes_packBits (b : Bits) : unpackBytes (packBits b) = some b :=
  unpackBytes_eq_some_iff.mpr (marked_packBits b)

theorem packBits_injective {b c : Bits} (h : packBits b = packBits c) : b = c :=
  (marked_packBits b).unique (h ▸ marked_packBits c)

/-! ## The packing -/

/-- Settles O36: the groups of eight expand to the padded bits, whose number is a multiple of eight. -/
theorem packLayout : Obligations.PackLayout := fun b => ⟨packBits_length b, expandAll_packBits b⟩

/-- Settles O37: the padding of whole bytes is seven zeros and a one, a byte of its own. -/
theorem byteBoundaryPadding : Obligations.ByteBoundaryPadding := by
  intro b hwhole
  obtain ⟨bs, rfl, hlen⟩ := exists_expandAll (b.length / 8) b (by omega)
  exact ⟨bs, packBits_eq_iff.mpr ⟨7, by decide, rfl⟩, hlen, rfl⟩

/-- Settles O38: Pack and Unpack are one relation read in two directions. -/
theorem packImage : Obligations.PackImage := by
  refine ⟨fun b c => packBits_injective, fun bs => ?_, fun bs b => unpackBytes_eq_some_iff_packBits⟩
  simp only [← unpackBytes_eq_some_iff_packBits, exists_unpackBytes_iff]

end Sys2Proof.Machine
end

section
/-! PROOFS. PACK and UNPACK as commands: their results and their errors, and one after the other (44_bitstream R151, R153, R154). -/

namespace Sys2Proof.Machine

/-! ## A command that raises -/

/-- A command that raises with no error recorded records its own and changes nothing else (60_exceptions R202, R204). -/
theorem settle_raised_of_clear {s : State} (hclear : s.errCode = 0#8) (op : BitVec 8) (c : ErrCode) (w : Word) :
    settle op s (.raised c w) = .next { s with errCode := c.code, errOp := op, errInfo := w } := by
  rw [settle_raised, State.raiseError_of_clear hclear]

/-! ## PACK -/

theorem exec_pack_eq_settle (s : State) : exec .pack s = settle 0x40#8 s (packBody s) := rfl

theorem exec_pack_of_readRange {s : State} {b : Bits} (hb : Memory.readRange s.bits 0 s.bitLen = .ok b)
    (hcap : packedLength s.bitLen ≤ s.cfg.byteCap) : exec .pack s = .next (s.putBytes (packBits b)) := by
  rw [exec_pack_eq_settle, packBody_eq_done.mpr ⟨hcap, b, fetchRange_eq_done.mpr hb, rfl⟩, settle_done]

theorem packBody_of_overflow {s : State} (h : s.cfg.byteCap < packedLength s.bitLen) :
    packBody s = .raised .byteOverflow (info (packedLength s.bitLen)) := if_pos h

/-- PACK makes floor(BIT_LEN/8) + 1 bytes (44_bitstream R150). -/
theorem packBits_length_of_readRange {s : State} {b : Bits} (hb : Memory.readRange s.bits 0 s.bitLen = .ok b) :
    (packBits b).length = packedLength s.bitLen := by
  rw [packBits_length, Memory.readRange_length hb]

/-- Settles O39: PACK checks the number of bytes first, and its one update is the packing. -/
theorem packResult : Obligations.PackResult := by
  refine ⟨fun s b hb hcap => ?fits, fun s hover hclear => ?overflow⟩
  case fits =>
    have hlen := packBits_length_of_readRange hb
    refine ⟨_, exec_pack_of_readRange hb hcap, ?_, Memory.readRange_writeList .., fun i hi => ?_⟩
    · exact congrArg (fun n => { s with bytes := Memory.writeList s.bytes 0 (packBits b), byteLen := n }) hlen
    · refine Memory.read_writeList_outside s.bytes (.inr ?_)
      rwa [hlen, Nat.zero_add]
  case overflow =>
    rw [exec_pack_eq_settle, packBody_of_overflow hover, settle_raised_of_clear hclear]
    rfl

/-! ## UNPACK -/

theorem exec_unpack_eq_settle (s : State) : exec .unpack s = settle 0x41#8 s (unpackBody s) := rfl

theorem exec_unpack_of_unpack {s : State} {bs : List Byte} {b : Bits} (hbs : Memory.readRange s.bytes 0 s.byteLen = .ok bs)
    (hb : unpackBytes bs = some b) (hfit : b.length ≤ s.cfg.bitCap) : exec .unpack s = .next (s.putBits b) := by
  rw [exec_unpack_eq_settle, unpackBody_eq_done.mpr ⟨b, unpackedBits_of_unpack hbs hb hfit, rfl⟩, settle_done]

theorem exec_unpack_of_raised {s : State} {c : ErrCode} {w : Word} (hclear : s.errCode = 0#8) (h : unpackedBits s = .raised c w) :
    exec .unpack s = .next { s with errCode := c.code, errOp := 0x41#8, errInfo := w } := by
  rw [exec_unpack_eq_settle, unpackBody, h, Ending.bind_raised, settle_raised_of_clear hclear]

/-- No bytes, or a first byte of zeros alone, hold no marker (44_bitstream R153). -/
theorem unpackedBits_of_no_marker {s : State} (h : s.byteLen = 0 ∨ Memory.read s.bytes 0 = some 0x00#8) :
    unpackedBits s = .raised .noMarker (info 0) := by
  by_cases hlen : s.byteLen = 0
  · exact if_pos hlen
  · have hzero := h.resolve_left hlen
    rw [unpackedBits, if_neg hlen, fetch_of_read hzero, Ending.bind_done, if_pos rfl]

/-- The length check comes before any byte but the first is read (44_bitstream R153; log 22). -/
theorem unpackedBits_of_overflow {s : State} {v : Byte} (hlen : s.byteLen ≠ 0) (hread : Memory.read s.bytes 0 = some v)
    (hv : v ≠ 0x00#8) (hover : s.cfg.bitCap < unpackedLength s.byteLen v) :
    unpackedBits s = .raised .bitOverflow (info (unpackedLength s.byteLen v)) := by
  rw [unpackedBits, if_neg hlen, fetch_of_read hread, Ending.bind_done, if_neg hv, if_pos hover]

theorem expand_getElem (v : Byte) {j : Nat} (hj : j < (expand v).length) : (expand v)[j] = v.getLsbD (7 - j) := by
  rw [expand_length] at hj
  interval_cases j <;> rfl

/-- A byte's leading zeros end at its first one (44_bitstream R152, R153). -/
theorem leadingZeros_of_first_one {v : Byte} {k : Nat} (hk : k < 8) (hone : v.getLsbD (7 - k) = true)
    (hzero : ∀ j < k, v.getLsbD (7 - j) = false) : leadingZeros v = k := by
  have hlt : k < (expand v).length := by rwa [expand_length]
  have hfirst : (expand v).findIdx (fun b => !!b) = k :=
    (List.findIdx_eq hlt).mpr ⟨by simp [expand_getElem, hone], fun j hj => by simp [expand_getElem, hzero j hj]⟩
  rw [leadingZeros, List.takeWhile_eq_take_findIdx_not, hfirst, List.length_take, expand_length, Nat.min_eq_left hk.le]

/-- Settles O40, by the checks in order: the marker, the length, and then the bits behind the marker. -/
theorem unpackResult : Obligations.UnpackResult := by
  refine ⟨fun s bs b hbs hb hfit => ?fits, fun s hclear hnone => ?noMarker,
    fun s v k hclear hlen hread hk hone hzero hover => ?overflow⟩
  case fits =>
    refine ⟨_, exec_unpack_of_unpack hbs hb hfit, rfl, Memory.readRange_writeList .., fun i hi => ?_⟩
    exact Memory.read_writeList_outside s.bits (.inr (by omega))
  case noMarker => exact exec_unpack_of_raised hclear (unpackedBits_of_no_marker hnone)
  case overflow =>
    have hv : v ≠ 0x00#8 := by
      rintro rfl
      simp at hone
    obtain rfl := leadingZeros_of_first_one hk hone hzero
    exact exec_unpack_of_raised hclear (unpackedBits_of_overflow hlen hread hv hover)

/-! ## PACK and then UNPACK -/

/-- Writing back what was read leaves every element as it was. -/
theorem Memory.read_writeList_of_readRange {α : Type} {m : Memory α} {a n : Nat} {vs : List α}
    (h : Memory.readRange m a n = .ok vs) (c : Nat) : Memory.read (Memory.writeList m a vs) c = Memory.read m c := by
  obtain ⟨rfl, hread⟩ := (Memory.readRange_eq_ok_iff m a n vs).mp h
  rw [Memory.read_writeList]
  split_ifs with hin
  · rw [← hread (c - a) (by omega), Nat.add_sub_cancel' hin.1]
  · rfl

/-- UNPACK takes from the bytes PACK left the bits PACK took (44_bitstream R154). -/
theorem runCommands_pack_unpack {s : State} {b : Bits} (hb : Memory.readRange s.bits 0 s.bitLen = .ok b)
    (hbits : s.bitLen ≤ s.cfg.bitCap) (hbytes : packedLength s.bitLen ≤ s.cfg.byteCap) :
    runCommands [.pack, .unpack] s = .next ((s.putBytes (packBits b)).putBits b) := by
  have hunpack : exec .unpack (s.putBytes (packBits b)) = .next ((s.putBytes (packBits b)).putBits b) :=
    exec_unpack_of_unpack (Memory.readRange_writeList ..) (unpackBytes_packBits b) (by rwa [Memory.readRange_length hb])
  simp only [runCommands, exec_pack_of_readRange hb hbytes, hunpack]

/-- Settles O41: Unpack undoes Pack, so UNPACK writes back the bits that PACK read. -/
theorem paddingDescribesItself : Obligations.PaddingDescribesItself := by
  refine ⟨unpackBytes_packBits, fun s b hb hbits hbytes => ?_⟩
  exact ⟨_, runCommands_pack_unpack hb hbits hbytes, rfl, Memory.readRange_length hb, Memory.readRange_writeList ..,
    Memory.read_writeList_of_readRange hb⟩

end Sys2Proof.Machine
end

section
/-! PROOFS. ENC_BITS and ENCODE: EncodeBits symbol by symbol, the results and the errors of the two commands (45_encode_decode R170, R171, R174). -/

namespace Sys2Proof.Machine

/-! ## Parts of a range -/

/-- A range that reads ok reads its first element and then the rest. -/
theorem Memory.exists_cons_of_readRange {α : Type} {m : Memory α} {a n : Nat} {vs : List α}
    (h : Memory.readRange m a (n + 1) = .ok vs) :
    ∃ v ws, vs = v :: ws ∧ Memory.read m a = some v ∧ Memory.readRange m (a + 1) n = .ok ws := by
  unfold Memory.readRange at h
  split at h
  · cases h
  · split at h
    · cases h
      exact ⟨_, _, rfl, ‹_›, ‹_›⟩
    · cases h

/-- A range that reads a concatenation reads both parts, one after the other. -/
theorem Memory.readRange_of_append {α : Type} {m : Memory α} {a n : Nat} {vs ws : List α}
    (h : Memory.readRange m a n = .ok (vs ++ ws)) :
    Memory.readRange m a vs.length = .ok vs ∧ Memory.readRange m (a + vs.length) ws.length = .ok ws := by
  obtain ⟨hlen, hread⟩ := (Memory.readRange_eq_ok_iff m a n _).mp h
  rw [List.length_append] at hlen
  constructor
  · refine (Memory.readRange_eq_ok_iff ..).mpr ⟨rfl, fun i hi => ?_⟩
    rw [hread i (by omega), List.getElem?_append_left hi]
  · refine (Memory.readRange_eq_ok_iff ..).mpr ⟨rfl, fun i hi => ?_⟩
    rw [Nat.add_assoc, hread (vs.length + i) (by omega), List.getElem?_append_right (by omega), Nat.add_sub_cancel_left]

/-! ## EncodeBits, symbol by symbol -/

section Symbol

variable {s : State} {left j : Nat} {c : Byte} (hc : Memory.read s.symIn j = some c) (out : Bits)
include hc

theorem encodeFrom_of_badSymbol (hbad : 0x80#8 ≤ c) : encodeFrom s (left + 1) j out = .raised .badSymbol (info j) := by
  rw [encodeFrom, fetch_of_read hc, Ending.bind_done, if_pos hbad]

variable {e : CodeEntry} (hsym : c < 0x80#8) (he : Memory.read s.codes c.toNat = some e)
include hsym he

theorem encodeFrom_of_noCode (hv : e.valid = false) : encodeFrom s (left + 1) j out = .raised .noCode (info j) := by
  rw [encodeFrom, fetch_of_read hc, Ending.bind_done, if_neg (BitVec.not_le.mpr hsym), fetch_of_read he, Ending.bind_done,
    if_neg (by simp [hv])]

/-- A symbol with a code is encoded if the code still fits BIT_CAP (45_encode_decode R170). -/
theorem encodeFrom_of_valid (hv : e.valid = true) :
    encodeFrom s (left + 1) j out =
      if s.cfg.bitCap < out.length + e.len.toNat then .raised .bitOverflow (info j)
      else encodeFrom s left (j + 1) (out ++ e.bits) := by
  rw [encodeFrom, fetch_of_read hc, Ending.bind_done, if_neg (BitVec.not_le.mpr hsym), fetch_of_read he, Ending.bind_done,
    if_pos hv, List.length_append, CodeEntry.bits_length]

end Symbol

/-- EncodeBits gets to the symbol at j when those before it have codes that fit (45_encode_decode R170). -/
theorem encodeBits_reaches {s : State} {j : Nat} {cs : List Byte} (hj : j < s.symInLen)
    (hr : Memory.readRange s.symIn 0 j = .ok cs) (he : Encodable s cs) (hfit : (s.codeStream cs).length ≤ s.cfg.bitCap) :
    ∃ left, encodeBits s = encodeFrom s (left + 1) j (s.codeStream cs) := by
  refine ⟨s.symInLen - (j + 1), ?_⟩
  rw [encodeBits, encodeFrom_append hr hj.le he (by simpa using hfit), Nat.zero_add, List.nil_append,
    show s.symInLen - (j + 1) + 1 = s.symInLen - j by omega]

/-! ## ENC_BITS -/

theorem exec_encBits_of_encodable {s : State} {cs : List Byte} (hv : s.codesValid = true)
    (hr : Memory.readRange s.symIn 0 s.symInLen = .ok cs) (he : Encodable s cs)
    (hfit : (s.codeStream cs).length ≤ s.cfg.bitCap) : exec .encBits s = .next (s.putBits (s.codeStream cs)) :=
  congrArg (settle _ s) (encBitsBody_eq_done.mpr ⟨hv, _, encodeBits_of_encodable hr he hfit, rfl⟩)

/-- Settles O42: EncodeBits yields the concatenated codes, and ENC_BITS's one update is to put them in BITS. -/
theorem encBitsResult : Obligations.EncBitsResult := by
  intro s cs hv hr he hfit
  refine ⟨_, exec_encBits_of_encodable hv hr he hfit, rfl, Memory.readRange_writeList .., fun i hi => ?_⟩
  exact Memory.read_writeList_outside s.bits (.inr (by omega))

/-! ## The errors of ENC_BITS and ENCODE -/

/-- Both commands check CODES_VALID and run EncodeBits, and differ in what they do with its bits (45_encode_decode R171, R174). -/
theorem exec_encoding_eq_settle {i : Instr} (hi : i = .encBits ∨ i = .encode) (s : State) :
    ∃ finish : Bits → Ending State, exec i s = settle i.opcode s
      (if s.codesValid then (encodeBits s).bind finish else .raised .noCodes (info 0)) := by
  obtain rfl | rfl := hi
  · exact ⟨_, rfl⟩
  · exact ⟨_, rfl⟩

section Errors

variable {i : Instr} {s : State} (hi : i = .encBits ∨ i = .encode) (hclear : s.errCode = 0#8)
include hi hclear

theorem exec_encoding_without_codes (hv : s.codesValid = false) :
    exec i s = .next { s with errCode := 0x0A#8, errOp := i.opcode, errInfo := 0#32 } := by
  obtain ⟨finish, hexec⟩ := exec_encoding_eq_settle hi s
  rw [hexec, if_neg (by simp [hv]), settle_raised_of_clear hclear]
  rfl

/-- An error of EncodeBits is the error of both commands, each under its own opcode (45_encode_decode R171, R174). -/
theorem exec_encoding_of_raised {c : ErrCode} {w : Word} (hv : s.codesValid = true) (h : encodeBits s = .raised c w) :
    exec i s = .next { s with errCode := c.code, errOp := i.opcode, errInfo := w } := by
  obtain ⟨finish, hexec⟩ := exec_encoding_eq_settle hi s
  rw [hexec, if_pos hv, h, Ending.bind_raised, settle_raised_of_clear hclear]

end Errors

/-- Settles O43: both commands check CODES_VALID first, EncodeBits gets to the symbol at j, and its checks of that symbol come in order. -/
theorem encodingErrors : Obligations.EncodingErrors := by
  intro i s hi hclear
  refine ⟨exec_encoding_without_codes hi hclear, fun j cs c hv hj hr henc hfit hc => ?_⟩
  obtain ⟨left, hreach⟩ := encodeBits_reaches hj hr henc hfit
  refine ⟨fun hbad => ?badSymbol, fun e hsym he hno => ?noCode, fun e hsym he hvalid hover => ?bitOverflow⟩
  case badSymbol =>
    exact exec_encoding_of_raised hi hclear hv (hreach.trans (encodeFrom_of_badSymbol hc _ hbad))
  case noCode =>
    exact exec_encoding_of_raised hi hclear hv (hreach.trans (encodeFrom_of_noCode hc _ hsym he hno))
  case bitOverflow =>
    refine exec_encoding_of_raised (c := .bitOverflow) hi hclear hv ?_
    rw [hreach, encodeFrom_of_valid hc _ hsym he hvalid, if_pos hover]
    rfl

/-! ## ENCODE -/

section Encode

variable {s : State} {b : Bits} (hv : s.codesValid = true) (hb : encodeBits s = .done b)
include hv hb

theorem exec_encode_of_fits (hcap : packedLength b.length ≤ s.cfg.byteCap) :
    exec .encode s = .next ((s.putBits b).putBytes (packBits b)) :=
  congrArg (settle _ s) (encodeBody_eq_done.mpr ⟨hv, b, hb, hcap, rfl⟩)

/-- The pack half's error comes with ENCODE's opcode, and BITS is not written (45_encode_decode R174, 60_exceptions R204). -/
theorem exec_encode_of_overflow (hover : s.cfg.byteCap < packedLength b.length) (hclear : s.errCode = 0#8) :
    exec .encode s = .next { s with errCode := 0x0E#8, errOp := 0x52#8, errInfo := info (packedLength b.length) } := by
  have hbody : encodeBody s = .raised .byteOverflow (info (packedLength b.length)) := by
    rw [encodeBody, if_pos hv, hb, Ending.bind_done, if_pos hover]
  exact (congrArg (settle _ s) hbody).trans (settle_raised_of_clear hclear ..)

end Encode

/-- PACK after a bit string was put in BITS packs that bit string. -/
theorem exec_pack_putBits (s : State) {b : Bits} (hcap : packedLength b.length ≤ s.cfg.byteCap) :
    exec .pack (s.putBits b) = .next ((s.putBits b).putBytes (packBits b)) :=
  exec_pack_of_readRange (Memory.readRange_writeList s.bits 0 b) hcap

/-- Settles O44: both ways put the codes in BITS and their packing in BYTES, and ENCODE's check of the byte count comes before either write. -/
theorem encodeIsEncBitsThenPack : Obligations.EncodeIsEncBitsThenPack := by
  intro s cs hv hr he hfit
  have hb := encodeBits_of_encodable hr he hfit
  refine ⟨fun hcap => ?fits, exec_encode_of_overflow hv hb⟩
  have hrun : runCommands [.encBits, .pack] s =
      .next ((s.putBits (s.codeStream cs)).putBytes (packBits (s.codeStream cs))) := by
    simp only [runCommands, exec_encBits_of_encodable hv hr he hfit, exec_pack_putBits s hcap]
  refine ⟨_, exec_encode_of_fits hv hb hcap, hrun, ?_, Memory.readRange_writeList .., Memory.readRange_writeList ..⟩
  exact congrArg (fun n => { (s.putBits (s.codeStream cs)).putBytes (packBits (s.codeStream cs)) with byteLen := n })
    (packBits_length _)

end Sys2Proof.Machine
end

section
/-! PROOFS. DEC_BITS: the walk over paths to leaves and over any bits, the results and the errors (45_encode_decode R172, R173). -/

namespace Sys2Proof.Machine

/-! ## The walk over paths to leaves -/

/-- From the root a path to a leaf emits the leaf's symbol, unless SYM_OUT is full (45_encode_decode R172). -/
theorem walkFrom_leadsTo {s : State} {left j : Nat} {p : Bits} {c : Symbol} (hp : LeadsTo s p c) (hleft : p.length ≤ left)
    (hb : Memory.readRange s.bits j p.length = .ok p) (out : List Byte) :
    walkFrom s left j s.root out =
      if out.length = s.cfg.symCap then .raised .symOverflow (info (j + p.length - 1))
      else walkFrom s (left - p.length) (j + p.length) s.root (out ++ [symByte c]) := by
  obtain ⟨hne, hleads⟩ := hp
  obtain ⟨x, hx, hleaf⟩ := (Option.any_eq_true _ _).mp hleads
  simp only [Bool.and_eq_true, beq_iff_eq] at hleaf
  obtain ⟨hleaf, rfl⟩ := hleaf
  exact walkFrom_path hne hleft hb hx hleaf

/-- The walk passes over paths to leaves with their symbols emitted, and what follows them is still to do. -/
theorem walkFrom_paths {s : State} {left j : Nat} {paths : List (Symbol × Bits)} {rest : Bits} {out : List Byte}
    (hr : Memory.readRange s.bits j left = .ok (paths.flatMap Prod.snd ++ rest)) (hp : ∀ x ∈ paths, LeadsTo s x.2 x.1)
    (hroom : out.length + paths.length ≤ s.cfg.symCap) :
    walkFrom s left j s.root out =
      walkFrom s rest.length (j + (paths.flatMap Prod.snd).length) s.root (out ++ paths.map fun x => symByte x.1) := by
  induction paths generalizing left j out with
  | nil =>
    obtain rfl := Memory.readRange_length hr
    simp
  | cons x paths ih =>
    rw [List.flatMap_cons, List.append_assoc] at hr
    obtain ⟨hfirst, hrest⟩ := Memory.readRange_of_append hr
    have hlen := Memory.readRange_length hr
    rw [List.length_append] at hlen
    rw [List.length_cons] at hroom
    rw [walkFrom_leadsTo (hp x (List.mem_cons_self ..)) (by omega) hfirst, if_neg (by omega), ← hlen, Nat.add_sub_cancel_left,
      ih hrest (fun y hy => hp y (List.mem_cons_of_mem _ hy)) (by rw [List.length_append, List.length_singleton]; omega)]
    simp [Nat.add_assoc]

theorem walkBits_paths {s : State} {paths : List (Symbol × Bits)} {rest : Bits}
    (hr : Memory.readRange s.bits 0 s.bitLen = .ok (paths.flatMap Prod.snd ++ rest)) (hp : ∀ x ∈ paths, LeadsTo s x.2 x.1)
    (hroom : paths.length ≤ s.cfg.symCap) :
    walkBits s = walkFrom s rest.length (paths.flatMap Prod.snd).length s.root (paths.map fun x => symByte x.1) ∧
      Memory.readRange s.bits (paths.flatMap Prod.snd).length rest.length = .ok rest := by
  have hrest := (Memory.readRange_of_append hr).2
  rw [Nat.zero_add] at hrest
  refine ⟨?_, hrest⟩
  rw [walkBits, walkFrom_paths hr hp (by simpa using hroom), Nat.zero_add, List.nil_append]

/-! ## The walk in a finished tree -/

theorem Inv.done_of_treeValid {s : State} (h : Inv s) (htree : s.treeValid = true) : s.tbState = .done := by
  obtain ⟨-, -, -, -, -, htv, -⟩ := h.builder
  exact htv.mp htree

section Finished

variable {s : State} (h : Inv s) (hd : s.tbState = .done)
include h hd

theorem done_root_internal : s.ftN ≤ s.root.toNat ∧ s.root.toNat < s.nodeN := by
  obtain ⟨-, -, -, -, -, -, hlt, -⟩ := done_registers h hd
  rw [done_root_toNat h hd]
  omega

/-- No path leads back to the root, nor to a node that looks like it: the two would share a child, and a node has one parent (42_tree_builder R125). -/
theorem Reaches.read_root_ne {p : Bits} {i : Nat} {x : Node} (hi : Reaches s p i) (hp : p ≠ [])
    (hx : Memory.read s.nodes i = some x) : Memory.read s.nodes s.root.toNat ≠ some x := by
  intro hroot
  obtain ⟨hlow, hhigh⟩ := done_root_internal h hd
  obtain ⟨nd, hnd, hinner, -⟩ := done_internal h hd hlow hhigh
  obtain rfl := Option.some.inj (hnd.symm.trans hroot)
  obtain ⟨b, hb⟩ : ∃ b, nd.child b ≠ nilRef := by
    by_contra hnone
    push Not at hnone
    exact hinner (by simp [Node.isLeaf, show nd.left = nilRef from hnone false, show nd.right = nilRef from hnone true])
  have hle : s.root.toNat ≤ i :=
    ChildOf.parent_le h hd ⟨nd, hroot, hb, rfl⟩ ⟨nd, hx, hb, rfl⟩ hhigh (hi.lt_nodeN h hd) le_rfl Iff.rfl
  have hpos := List.length_pos_iff.mpr hp
  have hbound := hi.length_add_le h hd
  rw [done_root_toNat h hd] at hle
  omega

/-- Paths to leaves and a rest that stops inside the tree decode to the leaves' symbols, and DEC_PARTIAL says whether there is a rest (45_encode_decode R172, R173). -/
theorem walkBits_of_paths {paths : List (Symbol × Bits)} {tail : Bits}
    (hr : Memory.readRange s.bits 0 s.bitLen = .ok (paths.flatMap Prod.snd ++ tail)) (hp : ∀ x ∈ paths, LeadsTo s x.2 x.1)
    (hinside : LeadsInside s tail) (hroom : paths.length ≤ s.cfg.symCap) :
    walkBits s = .done (paths.map fun x => symByte x.1, decide (tail ≠ [])) := by
  obtain ⟨hwalk, hrest⟩ := walkBits_paths hr hp hroom
  obtain ⟨x, hx, hinner⟩ := (Option.any_eq_true _ _).mp hinside
  obtain ⟨last, hlast, hread, hempty⟩ :=
    walkFrom_inside (out := paths.map fun x => symByte x.1) rfl hrest hx (by simpa using hinner)
  have hpartial : (last != s.root) = decide (tail ≠ []) := by
    by_cases ht : tail = []
    · simp [ht, hempty ht]
    · obtain ⟨i, hi, hxi⟩ := Reaches.of_follow .root hx
      have hne : last ≠ s.root := fun heq => hi.read_root_ne h hd (by simpa using ht) hxi (heq ▸ hread)
      simp [ht, hne]
  rw [hwalk, hlast, hpartial]

/-- With two symbols or more an internal node has both children (42_tree_builder R125). -/
theorem done_children (htwo : 2 ≤ s.ftN) {i : Nat} (hi : s.ftN ≤ i) (hlt : i < s.nodeN) :
    ∃ nd, Memory.read s.nodes i = some nd ∧ ∀ b, nd.child b ≠ nilRef ∧ (nd.child b).toNat < i := by
  obtain ⟨-, hinternal, -⟩ := h.tree (by simp [hd])
  obtain ⟨-, -, -, -, -, -, -, hmax⟩ := done_registers h hd
  obtain ⟨nd, hnd, -, -, -, hleft, hright, -⟩ := State.internalAt_iff.mp (hinternal i hlt hi)
  rw [if_neg (by omega)] at hright
  have hbelow : ∀ b, (nd.child b).toNat < i := Bool.forall_bool.mpr ⟨hleft, hright⟩
  refine ⟨nd, hnd, fun b => ⟨fun hnil => ?_, hbelow b⟩⟩
  have := hnil ▸ hbelow b
  simp at this
  omega

/-- With two symbols or more the walk goes on over any bits while SYM_OUT has room for a symbol a bit, and emits no more than that (45_encode_decode R172). -/
theorem walkFrom_completes (htwo : 2 ≤ s.ftN) {left j : Nat} {b : Bits} {node : NodeRef} {out : List Byte}
    (hr : Memory.readRange s.bits j left = .ok b) (hnode : s.ftN ≤ node.toNat ∧ node.toNat < s.nodeN)
    (hroom : out.length + left ≤ s.cfg.symCap) :
    ∃ r p, walkFrom s left j node out = .done (r, p) ∧ r.length ≤ out.length + left := by
  induction left generalizing j b node out with
  | zero => exact ⟨out, _, rfl, le_rfl⟩
  | succ left ih =>
    obtain ⟨v, ws, -, hv, hws⟩ := Memory.exists_cons_of_readRange hr
    obtain ⟨nd, hnd, hchildren⟩ := done_children h hd htwo hnode.1 hnode.2
    obtain ⟨hpresent, hbelow⟩ := hchildren v
    rw [walkFrom_succ hv hnd, if_neg hpresent]
    by_cases hlow : (nd.child v).toNat < s.ftN
    · obtain ⟨e, -, hleaf⟩ := done_leaf h hd hlow
      obtain ⟨r, p, hwalk, hlen⟩ := ih (out := out ++ [symByte e.sym]) hws (done_root_internal h hd)
        (by rw [List.length_append, List.length_singleton]; omega)
      rw [List.length_append, List.length_singleton] at hlen
      rw [fetch_of_read hleaf, Ending.bind_done, if_pos (show (leafNode e).isLeaf = true from rfl), if_neg (by omega)]
      exact ⟨r, p, hwalk, by omega⟩
    · have hinternal := And.intro (Nat.le_of_not_lt hlow) (hbelow.trans hnode.2)
      obtain ⟨cd, hcd, hinner, -⟩ := done_internal h hd hinternal.1 hinternal.2
      obtain ⟨r, p, hwalk, hlen⟩ := ih (out := out) hws hinternal (by omega)
      rw [fetch_of_read hcd, Ending.bind_done, if_neg hinner]
      exact ⟨r, p, hwalk, by omega⟩

/-- The single symbol's leaf is left of the root, and right of it is nothing (42_tree_builder R122, 43_code_table R141). -/
theorem done_single (hone : s.ftN = 1) :
    (∃ c, LeadsTo s [false] c) ∧ ∃ nd, Memory.read s.nodes s.root.toNat = some nd ∧ nd.child true = nilRef := by
  constructor
  · obtain ⟨e, he, -⟩ := done_leaf h hd (i := 0) (by omega)
    obtain ⟨p, hp⟩ := done_leadsTo h hd (List.mem_of_getElem? he)
    exact ⟨e.sym, hp.eq_of_single h hd hone ▸ hp⟩
  · obtain ⟨hlow, hhigh⟩ := done_root_internal h hd
    obtain ⟨nd, hnd, -, hright, -⟩ := done_internal h hd hlow hhigh
    exact ⟨nd, hnd, hright hone⟩

end Finished

/-! ## DEC_BITS -/

theorem exec_decBits_of_done {s : State} {out : List Byte} {p : Bool} (htree : s.treeValid = true) (h : walkBits s = .done (out, p)) :
    exec .decBits s = .next (s.putSymbols out p) :=
  congrArg (settle _ s) (decBitsBody_eq_done.mpr ⟨htree, out, p, h, rfl⟩)

theorem exec_decBits_of_raised {s : State} {c : ErrCode} {w : Word} (hclear : s.errCode = 0#8) (h : decBitsBody s = .raised c w) :
    exec .decBits s = .next { s with errCode := c.code, errOp := 0x51#8, errInfo := w } :=
  (congrArg (settle _ s) h).trans (settle_raised_of_clear hclear ..)

theorem decBitsBody_of_raised {s : State} {c : ErrCode} {w : Word} (htree : s.treeValid = true) (h : walkBits s = .raised c w) :
    decBitsBody s = .raised c w := by
  rw [decBitsBody, if_pos htree, h, Ending.bind_raised]

/-- Settles O45: the walk emits a symbol a path and stops inside the tree, and it stops at the root only when no rest is left. -/
theorem decBitsResult : Obligations.DecBitsResult := by
  intro s out tail h htree hr hp hinside hroom
  have hwalk := walkBits_of_paths h (h.done_of_treeValid htree) hr hp hinside hroom
  refine ⟨_, exec_decBits_of_done htree hwalk, ?_, Memory.readRange_writeList .., fun i hi => ?_⟩
  · simp [State.putSymbols]
  · exact Memory.read_writeList_outside s.symOut (.inr (by simpa using hi))

/-- Settles O46: a step from an internal node always finds a child, and no bit emits more than one symbol. -/
theorem decBitsCompletesOnAnyBits : Obligations.DecBitsCompletesOnAnyBits := by
  intro s b h htree htwo hr hroom
  have hd := h.done_of_treeValid htree
  obtain ⟨out, p, hwalk, hlen⟩ :=
    walkFrom_completes h hd htwo (out := []) hr (done_root_internal h hd) (by simpa using hroom)
  exact ⟨_, exec_decBits_of_done htree hwalk, rfl, by simpa using hlen, rfl⟩

/-- Settles O47: the walk passes over the paths before the failing step, which is a bit to an absent child or a path to one leaf more than SYM_OUT holds. -/
theorem decBitsErrors : Obligations.DecBitsErrors := by
  refine ⟨fun s htree hclear => ?noTree, fun s j rest h htree hclear hone hroom hr => ?decodeNil,
    fun s out p rest c h htree hclear hr hp hlast hfull => ?symOverflow⟩
  case noTree => exact exec_decBits_of_raised hclear (if_neg (by simp [htree]))
  case decodeNil =>
    obtain ⟨⟨c, hc⟩, nd, hnd, hnil⟩ := done_single h (h.done_of_treeValid htree) hone
    have hflat : (List.replicate j (c, [false])).flatMap Prod.snd = List.replicate j false := by
      rw [List.flatMap_replicate, List.flatten_replicate_singleton]
    rw [← hflat, List.append_assoc] at hr
    obtain ⟨hwalk, hrest⟩ := walkBits_paths hr (fun x hx => List.eq_of_mem_replicate hx ▸ hc) (by simpa using hroom)
    rw [hflat, List.length_replicate] at hwalk hrest
    obtain ⟨v, ws, hv, hread, -⟩ := Memory.exists_cons_of_readRange hrest
    cases hv
    refine exec_decBits_of_raised hclear (decBitsBody_of_raised (c := .decodeNil) htree ?_)
    rw [hwalk]
    exact (walkFrom_succ hread hnd).trans (if_pos hnil)
  case symOverflow =>
    rw [List.append_assoc] at hr
    obtain ⟨hwalk, hrest⟩ := walkBits_paths hr hp hfull.le
    refine exec_decBits_of_raised hclear (decBitsBody_of_raised (c := .symOverflow) htree ?_)
    have hlen : (out.map fun x => symByte x.1).length = s.cfg.symCap := by rw [List.length_map, hfull]
    rw [hwalk, walkFrom_leadsTo hlast (by simp) (Memory.readRange_of_append hrest).1, if_pos hlen]
    rfl

end Sys2Proof.Machine
end

section
/-! PROOFS. DECODE: it is UNPACK and then DEC_BITS, in its result and in its errors (45_encode_decode R175). -/

namespace Sys2Proof.Machine

/-! ## The two halves -/

theorem decodeBody_eq_bind (s : State) : decodeBody s = (unpackBody s).bind decBitsBody := by
  rw [unpackBody, Ending.bind_assoc]
  rfl

/-- A packed bit string of paths to leaves and a rest inside the tree passes both halves (45_encode_decode R175). -/
theorem decode_halves_of_paths {s : State} {paths : List (Symbol × Bits)} {tail : Bits} (h : Inv s) (htree : s.treeValid = true)
    (hbs : Memory.readRange s.bytes 0 s.byteLen = .ok (packBits (paths.flatMap Prod.snd ++ tail)))
    (hfit : (paths.flatMap Prod.snd ++ tail).length ≤ s.cfg.bitCap) (hp : ∀ x ∈ paths, LeadsTo s x.2 x.1)
    (hinside : LeadsInside s tail) (hroom : paths.length ≤ s.cfg.symCap) :
    unpackedBits s = .done (paths.flatMap Prod.snd ++ tail) ∧
      walkBits (s.putBits (paths.flatMap Prod.snd ++ tail)) =
        .done (paths.map fun x => symByte x.1, decide (tail ≠ [])) :=
  ⟨unpackedBits_of_unpack hbs (unpackBytes_packBits _) hfit,
    walkBits_of_paths (h.putBits hfit) (h.done_of_treeValid htree) (Memory.readRange_writeList ..) hp hinside hroom⟩

theorem exec_decode_of_halves {s : State} {b : Bits} {out : List Byte} {p : Bool} (htree : s.treeValid = true)
    (hb : unpackedBits s = .done b) (hwalk : walkBits (s.putBits b) = .done (out, p)) :
    exec .decode s = .next ((s.putBits b).putSymbols out p) :=
  congrArg (settle _ s) (decodeBody_eq_done.mpr ⟨htree, b, hb, out, p, hwalk, rfl⟩)

theorem runCommands_unpack_decBits {s : State} {b : Bits} {out : List Byte} {p : Bool} (htree : s.treeValid = true)
    (hb : unpackedBits s = .done b) (hwalk : walkBits (s.putBits b) = .done (out, p)) :
    runCommands [.unpack, .decBits] s = .next ((s.putBits b).putSymbols out p) := by
  have hunpack : exec .unpack s = .next (s.putBits b) :=
    congrArg (settle _ s) (unpackBody_eq_done.mpr ⟨b, hb, rfl⟩)
  simp only [runCommands, hunpack, exec_decBits_of_done (s := s.putBits b) htree hwalk]

/-- Settles O48: Unpack gives back what was packed, the walk runs on it, and both ways write the same two results. -/
theorem decodeIsUnpackThenDecBits : Obligations.DecodeIsUnpackThenDecBits := by
  rintro s _ out tail h htree hbs rfl hfit hp hinside hroom
  obtain ⟨hb, hwalk⟩ := decode_halves_of_paths h htree hbs hfit hp hinside hroom
  refine ⟨_, exec_decode_of_halves htree hb hwalk, runCommands_unpack_decBits htree hb hwalk, ?_,
    Memory.readRange_writeList .., Memory.readRange_writeList ..⟩
  simp [State.putSymbols, State.putBits]

/-! ## The errors -/

/-- From a state without an error, whether one is recorded tells whether the command's body finished or raised it (60_exceptions R200, R202). -/
theorem settle_cases_of_clear {op : BitVec 8} {s t : State} {e : Ending State} (hclear : s.errCode = 0#8)
    (hdone : ∀ u, e = .done u → u.errCode = s.errCode) (h : settle op s e = .next t) :
    (t.errCode = 0#8 → e = .done t) ∧ (t.errCode ≠ 0#8 → ∃ c, e = .raised c t.errInfo ∧ t.errCode = c.code) := by
  obtain hbody | ⟨c, w, hbody, rfl⟩ := settle_eq_next.mp h
  · exact ⟨fun _ => hbody, fun hne => absurd ((hdone t hbody).trans hclear) hne⟩
  · rw [State.raiseError_of_clear hclear]
    exact ⟨fun h0 => absurd h0 c.code_ne_zero, fun _ => ⟨c, hbody, rfl⟩⟩

theorem exec_unpack_cases {s t : State} (hclear : s.errCode = 0#8) (h : exec .unpack s = .next t) :
    (t.errCode = 0#8 → unpackBody s = .done t) ∧
      (t.errCode ≠ 0#8 → ∃ c, unpackBody s = .raised c t.errInfo ∧ t.errCode = c.code) := by
  refine settle_cases_of_clear hclear (fun u hu => ?_) h
  obtain ⟨b, -, rfl⟩ := unpackBody_eq_done.mp hu
  rfl

theorem exec_decBits_cases {s t : State} (hclear : s.errCode = 0#8) (h : exec .decBits s = .next t) :
    (t.errCode = 0#8 → decBitsBody s = .done t) ∧
      (t.errCode ≠ 0#8 → ∃ c, decBitsBody s = .raised c t.errInfo ∧ t.errCode = c.code) := by
  refine settle_cases_of_clear hclear (fun u hu => ?_) h
  obtain ⟨-, out, p, -, rfl⟩ := decBitsBody_eq_done.mp hu
  rfl

theorem exec_decode_of_raised {s : State} {c : ErrCode} {w : Word} (hclear : s.errCode = 0#8) (h : decodeBody s = .raised c w) :
    exec .decode s = .next { s with errCode := c.code, errOp := 0x53#8, errInfo := w } :=
  (congrArg (settle _ s) h).trans (settle_raised_of_clear hclear ..)

/-- Settles O49: DECODE's body is UNPACK's and then DEC_BITS's, so it raises what the first half raises, and else what the second does. -/
theorem decodeErrorOrder : Obligations.DecodeErrorOrder := by
  refine fun s hclear => ⟨fun u hu hraised => ?unpack, fun u v hu hclear' hv hraised => ?decBits⟩
  case unpack =>
    obtain ⟨c, hbody, hcode⟩ := (exec_unpack_cases hclear hu).2 hraised
    rw [hcode]
    exact exec_decode_of_raised hclear (by rw [decodeBody_eq_bind, hbody, Ending.bind_raised])
  case decBits =>
    obtain ⟨c, hbody, hcode⟩ := (exec_decBits_cases hclear' hv).2 hraised
    rw [hcode]
    exact exec_decode_of_raised hclear
      (by rw [decodeBody_eq_bind, (exec_unpack_cases hclear hu).1 hclear', Ending.bind_done, hbody])

end Sys2Proof.Machine
end

section
/-! PROOFS. The round trip: a stream's symbols have codes in the tree built from its table, ENCODE fails only for want of room, and DECODE takes ENCODE's bytes back to the stream (45_encode_decode R176). -/

namespace Sys2Proof.Machine

/-! ## Build the tree and the codes -/

/-- The root is no leaf, so a stream may end there (45_encode_decode R172). -/
theorem done_leadsInside_nil {s : State} (h : Inv s) (hd : s.tbState = .done) : LeadsInside s [] := by
  obtain ⟨hlow, hhigh⟩ := done_root_internal h hd
  obtain ⟨nd, hnd, hinner, -⟩ := done_internal h hd hlow hhigh
  simp [LeadsInside, follow, hnd, hinner]

/-- From a table that is not empty TB_BUILD and CT_GEN make the tree and its codes, and leave the table and the input alone (42_tree_builder R124, 43_code_table R140). -/
theorem runCommands_tbBuild_ctGen {s : State} (h : Inv s) (hone : 1 ≤ s.ftN) :
    ∃ t, runCommands [.tbBuild, .ctGen] s = .next t ∧ Inv t ∧ t.codesValid = true ∧ t.table = s.table ∧
      t.symIn = s.symIn ∧ t.symInLen = s.symInLen ∧ t.errCode = s.errCode := by
  obtain ⟨u, hbuild, hframe, -, hdone⟩ := exec_tbBuild_of_tableForm h.table hone
  have hu := exec_keeps_inv hbuild h
  obtain ⟨-, -, -, htree, -⟩ := done_registers hu hdone
  obtain ⟨leaves, hleaves⟩ := done_leafPaths hu hdone
  refine ⟨u.putCodes (codeTableOf leaves), ?_, hu.putCodes htree hleaves, rfl, ?_⟩
  · simp only [runCommands, hbuild, exec_ctGen_of_leafPaths htree hleaves]
  · obtain ⟨_, _, _, _, _, _, _, rfl⟩ := hframe
    exact ⟨rfl, rfl, rfl, rfl⟩

/-! ## The codes of a stream -/

theorem symByte_toNat (c : Symbol) : (symByte c).toNat = c.toNat :=
  BitVec.toNat_setWidth_of_le (by decide)

theorem symByte_lt (c : Symbol) : symByte c < 0x80#8 := by
  rw [BitVec.lt_def, symByte_toNat]
  exact c.isLt

/-- The symbols of a stream with the paths that their codes are. -/
def State.codePaths (s : State) (text : List Symbol) : List (Symbol × Bits) := text.map fun c => (c, s.codeBits (symByte c))

@[simp] theorem State.codePaths_length (s : State) (text : List Symbol) : (s.codePaths text).length = text.length :=
  List.length_map ..

@[simp] theorem State.codePaths_symbols (s : State) (text : List Symbol) :
    ((s.codePaths text).map fun x => symByte x.1) = text.map symByte := List.map_map ..

@[simp] theorem State.codePaths_bits (s : State) (text : List Symbol) :
    (s.codePaths text).flatMap Prod.snd = s.codeStream (text.map symByte) := by
  rw [State.codePaths, State.codeStream, List.flatMap_map, List.flatMap_map]

section Stream

variable {s : State} (h : Inv s) (hv : s.codesValid = true)
include h hv

/-- A symbol of the table has a valid code, which leads from the root to its leaf (43_code_table R140). -/
theorem Inv.valid_code {c : Symbol} (hc : ∃ e ∈ s.table, e.sym = c) :
    (Memory.read s.codes (symByte c).toNat).any CodeEntry.valid = true ∧ LeadsTo s (s.codeBits (symByte c)) c := by
  obtain ⟨hd, hcodes⟩ := h.codesOfTree hv
  obtain ⟨e, hread⟩ := hcodes.exists_read c
  have hvalid := (hcodes.valid_iff h hd hread).mpr hc
  rw [State.codeBits, symByte_toNat, hread]
  exact ⟨hvalid, hcodes.leadsTo h hd hread hvalid⟩

variable {text : List Symbol} (htext : ∀ c ∈ text, ∃ e ∈ s.table, e.sym = c)
include htext

theorem Inv.encodable_text : Encodable s (text.map symByte) :=
  List.forall_mem_map.mpr fun c hc => ⟨symByte_lt c, (h.valid_code hv (htext c hc)).1⟩

theorem Inv.leadsTo_of_mem_codePaths : ∀ x ∈ s.codePaths text, LeadsTo s x.2 x.1 :=
  List.forall_mem_map.mpr fun c hc => (h.valid_code hv (htext c hc)).2

/-- From the packing of a stream's codes DECODE takes the stream (45_encode_decode R176). -/
theorem Inv.exec_decode_text (hroom : text.length ≤ s.cfg.symCap)
    (hfit : (s.codeStream (text.map symByte)).length ≤ s.cfg.bitCap)
    (hbs : Memory.readRange s.bytes 0 s.byteLen = .ok (packBits (s.codeStream (text.map symByte)))) :
    exec .decode s = .next ((s.putBits (s.codeStream (text.map symByte))).putSymbols (text.map symByte) false) := by
  obtain ⟨hd, -⟩ := h.codesOfTree hv
  obtain ⟨-, -, -, htree, -⟩ := done_registers h hd
  obtain ⟨hunpack, hwalk⟩ := decode_halves_of_paths (paths := s.codePaths text) (tail := []) h htree (by simpa using hbs)
    (by simpa using hfit) (h.leadsTo_of_mem_codePaths hv htext) (done_leadsInside_nil h hd) (by simpa using hroom)
  simp only [State.codePaths_bits, State.codePaths_symbols, List.append_nil] at hunpack hwalk
  exact exec_decode_of_halves htree hunpack hwalk

end Stream

/-! ## ENCODE on a stream with codes -/

/-- With a code for every symbol EncodeBits can fail only for want of room in BITS (45_encode_decode R170). -/
theorem encodeFrom_cases_of_encodable {s : State} {left j : Nat} {cs : List Byte} {out : Bits}
    (hr : Memory.readRange s.symIn j left = .ok cs) (he : Encodable s cs) :
    encodeFrom s left j out = .done (out ++ s.codeStream cs) ∨ ∃ i, encodeFrom s left j out = .raised .bitOverflow (info i) := by
  induction left generalizing j cs out with
  | zero =>
    cases hr
    exact .inl (by simp [encodeFrom])
  | succ left ih =>
    obtain ⟨c, ds, rfl, hc, hds⟩ := Memory.exists_cons_of_readRange hr
    obtain ⟨⟨hsym, hcode⟩, hrest⟩ := List.forall_mem_cons.mp he
    obtain ⟨e, hread, hvalid⟩ := (Option.any_eq_true _ _).mp hcode
    have hbits : s.codeBits c = e.bits := by simp [State.codeBits, hread]
    rw [encodeFrom_of_valid hc out hsym hread hvalid, State.codeStream_cons, hbits, ← List.append_assoc]
    split_ifs
    · exact .inr ⟨j, rfl⟩
    · exact ih hds hrest

/-- With a code for every symbol ENCODE writes the codes and their packing, or fails with BIT_OVERFLOW or BYTE_OVERFLOW (45_encode_decode R174, R176). -/
theorem exec_encode_cases_of_encodable {s : State} {cs : List Byte} (hclear : s.errCode = 0#8) (hv : s.codesValid = true)
    (hr : Memory.readRange s.symIn 0 s.symInLen = .ok cs) (he : Encodable s cs) :
    ((s.codeStream cs).length ≤ s.cfg.bitCap ∧
      exec .encode s = .next ((s.putBits (s.codeStream cs)).putBytes (packBits (s.codeStream cs)))) ∨
    ∃ u, exec .encode s = .next u ∧ (u.errCode = 0x0D#8 ∨ u.errCode = 0x0E#8) := by
  obtain hb | ⟨i, hraised⟩ := encodeFrom_cases_of_encodable (out := []) hr he
  · by_cases hcap : packedLength (s.codeStream cs).length ≤ s.cfg.byteCap
    · exact .inl ⟨encodeBits_fits hb, exec_encode_of_fits hv hb hcap⟩
    · exact .inr ⟨_, exec_encode_of_overflow hv hb (Nat.lt_of_not_le hcap) hclear, .inr rfl⟩
  · exact .inr ⟨_, exec_encoding_of_raised (.inr rfl) hclear hv hraised, .inl rfl⟩

/-- Settles O50: every symbol of the stream is in the table, so it has a code that leads to its leaf; the walk over the codes emits the symbols one by one. -/
theorem encodeDecodeRoundTrip : Obligations.EncodeDecodeRoundTrip := by
  intro s text h hclear hne hlen hr htext _
  have hone : 1 ≤ s.ftN := by
    obtain ⟨e, he, -⟩ := htext _ (List.head_mem hne)
    exact (readRange_table h.table).1 ▸ List.length_pos_of_mem he
  obtain ⟨t, hrun, ht, hv, htable, hsymIn, hsymInLen, herr⟩ := runCommands_tbBuild_ctGen h hone
  rw [← htable] at htext
  rw [← hsymIn, ← hsymInLen] at hr
  rw [← herr] at hclear
  have hroom : text.length ≤ t.cfg.symCap := by
    obtain ⟨-, hin, -⟩ := ht.lengths
    rwa [← hlen, ← hsymInLen]
  obtain ⟨hfit, hencode⟩ | ⟨u, hencode, hover⟩ :=
    exec_encode_cases_of_encodable hclear hv hr (ht.encodable_text hv htext)
  · have hdecode := (exec_keeps_inv hencode ht).exec_decode_text hv htext hroom hfit (Memory.readRange_writeList ..)
    refine ⟨t, _, hrun, hclear, hencode, fun _ => ?_, fun hraised => absurd hclear hraised⟩
    exact ⟨_, hdecode, hclear, Memory.readRange_writeList .., rfl⟩
  · refine ⟨t, u, hrun, hclear, hencode, fun h0 => ?_, fun _ => hover⟩
    rw [h0] at hover
    exact absurd hover (by decide)

end Sys2Proof.Machine
end

section
/-! PROOFS. The recorded error: a command that raises one changes nothing else, and while it stands no other command runs and no step overwrites it (60_exceptions R202 to R208). -/

namespace Sys2Proof.Machine

/-! ## What leaves the error registers alone -/

/-- t has ERR.CODE, ERR.OP and ERR_INFO of s (10_state R25, R26). -/
def SameError (s t : State) : Prop := t.errCode = s.errCode ∧ t.errOp = s.errOp ∧ t.errInfo = s.errInfo

theorem SameError.refl (s : State) : SameError s s := ⟨rfl, rfl, rfl⟩

theorem SameError.of_builderOnly {s t : State} (h : BuilderOnly s t) : SameError s t := by
  obtain ⟨_, _, _, _, _, _, _, rfl⟩ := h
  exact .refl s

/-- A finished command other than SRESET and CLRERR leaves the error registers alone (60_exceptions R208). -/
theorem Finished.sameError {i : Instr} {s t : State} (hf : Finished s i t) (hsreset : i ≠ .sreset) (hclrerr : i ≠ .clrerr) :
    SameError s t := by
  cases hf with
  | sreset => exact absurd rfl hsreset
  | clrerr => exact absurd rfl hclrerr
  | tbInit => exact SameError.of_builderOnly (s := { s with codesValid := false }) (builderOnly_startBuild s _ _)
  | tbStep hbody => exact .of_builderOnly (builderOnly_of_tbStepBody hbody)
  | tbBuild _ hloop =>
    exact SameError.of_builderOnly (s := { s with codesValid := false })
      ((builderOnly_startBuild s _ _).trans (builderOnly_of_buildLoop hloop))
  | _ => exact ⟨rfl, rfl, rfl⟩

/-- No bus write reaches the error registers (20_memory R52). -/
theorem SameError.writeLocation {s t : State} {v : Word} {l : Location} (h : s.writeLocation v l = some t) : SameError s t := by
  obtain ⟨r, -, hr⟩ | ⟨k, -, rfl⟩ | ⟨k, -, rfl⟩ | ⟨k, -, rfl⟩ := State.writeLocation_eq_some h
  · obtain ⟨-, rfl⟩ | ⟨-, -, rfl⟩ | ⟨-, -, rfl⟩ | ⟨-, -, rfl⟩ := State.writeReg_eq_some hr <;> exact ⟨rfl, rfl, rfl⟩
  all_goals simp [SameError]

theorem SameError.readStatus (s : State) : SameError s s.readStatus := by
  unfold State.readStatus; split_ifs <;> exact .refl s

theorem SameError.hostPoll (s : State) : SameError s (hostPoll s) := by
  unfold Machine.hostPoll; split_ifs <;> exact .readStatus s

/-! ## All or nothing -/

/-- A finished command records no error: it keeps the registers, or it clears them. -/
theorem Finished.errCode_of_clear {i : Instr} {s t : State} (hf : Finished s i t) (hclear : s.errCode = 0#8) :
    t.errCode = 0#8 := by
  by_cases hi : i = .sreset ∨ i = .clrerr
  · obtain rfl | rfl := hi <;> cases hf <;> rfl
  · obtain ⟨hsreset, hclrerr⟩ := not_or.mp hi
    exact (hf.sameError hsreset hclrerr).1.trans hclear

/-- Settles O6: a command that goes on with an error recorded has not finished, so it has only raised that error, from a state without one. -/
theorem errorsAreAllOrNothing : Obligations.ErrorsAreAllOrNothing := by
  intro i s t h hclear hraised
  obtain hf | ⟨c, w, -, rfl⟩ := exec_cases h
  · exact absurd (hf.errCode_of_clear hclear) hraised
  · exact ⟨c, w, State.raiseError_of_clear hclear c i.opcode w⟩

/-! ## The gate -/

/-- With an error recorded the gate holds every opcode but those of NOP, SRESET and CLRERR (60_exceptions R205). -/
theorem State.gated_of_recorded {s : State} (herr : s.errCode ≠ 0#8) {op : BitVec 8} (hop : ungated op = false) :
    s.gated op = true := by
  simp [State.gated, State.errFlag_eq, herr, hop]

theorem ungated_eq_false_iff {op : BitVec 8} : ungated op = false ↔ op.toNat ∉ [0x00, 0x01, 0x02] := by
  simp [ungated, BitVec.toNat_eq, and_assoc]

/-- With an error recorded a CMD write that the gate holds, or whose word is no command, only makes BUSY rise (60_exceptions R205, R207). -/
theorem step_of_held {s : State} {w : Word} {rest : List HostAction} (hp : s.pending = cmdWrite s.cfg w :: rest)
    (hb : s.busy = false) (herr : s.errCode ≠ 0#8) (hheld : ungated (opcodeField w) = false ∨ ∃ r, decode w = .error r) :
    step s = .next (s.atCommand rest) := by
  rw [step_cmdWrite hp hb]
  obtain ⟨-, h⟩ | ⟨-, -, h⟩ | ⟨hgate, i, hd, -⟩ := issue_cases w ((s.takeAction rest).respond writeOk)
  · exact h
  · exact h.trans (congrArg _ (State.raiseError_of_recorded (s := s.atCommand rest) herr ..))
  · obtain hop | ⟨r, hr⟩ := hheld
    · exact absurd (State.gated_of_recorded (s := (s.takeAction rest).respond writeOk) herr hop) (by simp [hgate])
    · cases hr.symm.trans hd

/-- CMD is the one location that has no value to read (10_state R21). -/
theorem State.readLocation_eq_none_iff {s : State} {l : Location} : s.readLocation l = none ↔ l = .reg .cmd := by
  cases l with
  | reg r => cases r <;> simp [State.readLocation, State.readReg]
  | _ => simp [State.readLocation]

/-- How a read is answered depends on the parameters alone (20_memory R50 to R53). -/
theorem State.readResponse_status_congr {s t : State} (hcfg : s.cfg = t.cfg) (addr size : Nat) :
    (s.readResponse addr size).status = (t.readResponse addr size).status := by
  unfold State.readResponse
  rw [hcfg]
  cases offsetOf t.cfg addr with
  | none => rfl
  | some a =>
    dsimp only
    cases wordAligned a size with
    | false => rfl
    | true =>
      cases locate t.cfg a with
      | none => rfl
      | some l =>
        by_cases hcmd : l = .reg .cmd
        · rw [hcmd]; rfl
        · obtain ⟨v, hv⟩ := Option.ne_none_iff_exists'.mp (mt (State.readLocation_eq_none_iff (s := s)).mp hcmd)
          obtain ⟨w, hw⟩ := Option.ne_none_iff_exists'.mp (mt (State.readLocation_eq_none_iff (s := t)).mp hcmd)
          simp [hv, hw, readOk]

theorem State.writeReg_clearError (s : State) (v : Word) (r : Reg) :
    (s.writeReg v r).map State.clearError = s.clearError.writeReg v r := by
  cases r with
  | symInLen | bitLen | byteLen => exact apply_ite (Option.map State.clearError) ..
  | _ => rfl

theorem State.setSymIn_clearError (s : State) (m : Memory Byte) : (s.setSymIn m).clearError = s.clearError.setSymIn m := rfl

theorem State.setBits_clearError (s : State) (m : Memory Bool) : (s.setBits m).clearError = s.clearError.setBits m := rfl

theorem State.setBytes_clearError (s : State) (m : Memory Byte) : (s.setBytes m).clearError = s.clearError.setBytes m := rfl

/-- No write reads or writes the error registers, so it commutes with clearing them. -/
theorem State.writeLocation_clearError (s : State) (v : Word) (l : Location) :
    (s.writeLocation v l).map State.clearError = s.clearError.writeLocation v l := by
  cases l with
  | reg r => exact s.writeReg_clearError v r
  | symIn k => exact congrArg some (s.setSymIn_clearError _)
  | bits k => exact congrArg some (s.setBits_clearError _)
  | bytes k => exact congrArg some (s.setBytes_clearError _)
  | ftWord | nodeWord | codeWord | symOut => rfl

/-- Settles O7: the gate holds every other opcode; how a read is answered depends on the parameters alone, and a write commutes with clearing the error. -/
theorem errorGateIgnoresCommands : Obligations.ErrorGateIgnoresCommands := by
  refine ⟨fun s w rest hp hb herr hop => ?_, fun s => State.readResponse_status_congr rfl, fun s l v => s.writeLocation_clearError v l⟩
  rw [← opcodeField_toNat, ← ungated_eq_false_iff] at hop
  exact step_of_held hp hb herr (.inl hop)

/-! ## The first error -/

/-- With an error recorded a command other than SRESET and CLRERR leaves it alone, whether it finishes or raises another (60_exceptions R207). -/
theorem exec_sameError {i : Instr} {s t : State} (h : exec i s = .next t) (herr : s.errCode ≠ 0#8) (hsreset : i ≠ .sreset)
    (hclrerr : i ≠ .clrerr) : SameError s t := by
  obtain hf | ⟨c, w, -, rfl⟩ := exec_cases h
  · exact hf.sameError hsreset hclrerr
  · rw [State.raiseError_of_recorded herr]
    exact .refl s

/-- With an error recorded an issued word other than those of SRESET and CLRERR leaves it alone (60_exceptions R207, R208). -/
theorem issue_sameError {w : Word} {s t : State} (h : issue w s = .next t) (herr : s.errCode ≠ 0#8) (hsreset : w ≠ encode .sreset)
    (hclrerr : w ≠ encode .clrerr) : SameError s t := by
  obtain ⟨-, hi⟩ | ⟨-, -, hi⟩ | ⟨-, i, hd, hi⟩ := issue_cases w s <;> rw [hi] at h
  · cases h; exact .refl s
  · rw [State.raiseError_of_recorded (s := s.beginCommand) herr] at h
    cases h; exact .refl s
  · have hw := (encode_of_decode hd).2
    exact exec_sameError (s := s.beginCommand) h herr (fun hi => hsreset (hi ▸ hw)) fun hi => hclrerr (hi ▸ hw)

/-- Settles O8, by the kinds of step: no access reaches the error registers, and a command that is not SRESET or CLRERR keeps a recorded error. -/
theorem firstErrorIsKept : Obligations.FirstErrorIsKept := by
  refine ⟨fun s t a rest hp herr hstep hreset hsreset hclrerr => ?_,
    fun s w rest r hp hb herr hd => step_of_held hp hb herr (.inr ⟨r, hd⟩)⟩
  change SameError s t
  obtain ⟨hnil, -⟩ | ⟨_, rest', hp', hact⟩ := step_cases hstep
  · cases hp.symm.trans hnil
  cases hp.symm.trans hp'
  obtain ⟨ha, -⟩ | ⟨-, rfl⟩ | ⟨-, -, rfl⟩ | ⟨-, w, rfl, hissue⟩ | ⟨-, _, v, _, l, u, -, -, -, -, hwrite, rfl⟩ | ⟨-, r, rfl⟩ := hact
  · exact absurd ha hreset
  · exact SameError.hostPoll (s.takeAction rest)
  · exact SameError.readStatus (s.takeAction rest)
  · exact issue_sameError (s := (s.takeAction rest).respond writeOk) hissue herr (fun hw => hsreset (congrArg _ hw))
      fun hw => hclrerr (congrArg _ hw)
  · exact SameError.writeLocation (s := s.takeAction rest) (t := u) hwrite
  · exact .refl s

end Sys2Proof.Machine
end

section
/-! PROOFS. The accesses that answer BUSERR, and that they reach no state (20_memory R51 to R54, 60_exceptions R209). -/

namespace Sys2Proof.Machine

/-! ## The map backwards -/

/-- The map names a location at an aligned offset exactly when the location is mapped and stands there (20_memory R53). -/
theorem locate_eq_some_iff {p : Params} {a : Nat} (ha : a % 4 = 0) {l : Location} :
    locate p a = some l ↔ l.Mapped p ∧ a = l.offset := by
  constructor
  · revert l
    rw [locate]
    repeat'
      refine iteInduction (motive := fun o : Option Location => ∀ {l}, o = some l → l.Mapped p ∧ a = l.offset)
        (fun _ => ?_) (fun _ => ?_)
    case refine_1 =>
      intro l hl
      obtain ⟨r, hr, rfl⟩ := Option.map_eq_some_iff.mp hl
      exact ⟨trivial, regAt_eq_some hr⟩
    all_goals rintro _ ⟨⟩
    all_goals simp only [Location.Mapped, Location.offset]
    all_goals omega
  · rintro ⟨hl, rfl⟩
    exact locate_offset hl

/-! ## Reads -/

/-- A read of another size, at an unaligned or unmapped offset or of CMD answers BUSERR (20_memory R51 to R53). -/
theorem State.readResponse_err {s : State} {a size : Nat} (ha : a < 0x100000)
    (h : size ≠ 4 ∨ a % 4 ≠ 0 ∨ locate s.cfg a = none ∨ a = Reg.cmd.offset) : s.readResponse (s.cfg.base + a) size = readErr := by
  simp only [State.readResponse, offsetOf_base ha]
  by_cases hal : wordAligned a size = true
  · obtain ⟨rfl, hmod⟩ := wordAligned_iff.mp hal
    have hnone : (locate s.cfg a).bind s.readLocation = none := by
      obtain h | h | h | rfl := h
      · exact absurd rfl h
      · exact absurd hmod h
      · rw [h]; rfl
      · rw [locate_eq_reg.mpr rfl]; rfl
    simp only [hal, if_true, hnone]
  · exact if_neg hal

/-! ## Writes -/

/-- A step whose action is a write while BUSY = 0. -/
theorem step_busWrite {s : State} {addr size : Nat} {v : Word} {rest : List HostAction}
    (hp : s.pending = .write addr size v :: rest) (hb : s.busy = false) : step s = busWrite (s.takeAction rest) addr size v := by
  have hb' : (s.takeAction rest).busy = false := hb
  simp only [step, hp, act, hostWrite, hb', Bool.false_eq_true, if_false]

/-- Away from CMD a write that lands nowhere answers BUSERR (20_memory R52). -/
theorem writeAt_err {s : State} {a : Nat} {v : Word} (hcmd : a ≠ Reg.cmd.offset)
    (hnone : ∀ l t, locate s.cfg a = some l → s.writeLocation v l ≠ some t) : writeAt s a v = .next (s.respond writeErr) := by
  unfold writeAt
  split
  · exact absurd (locate_eq_reg.mp ‹_›) hcmd
  · split
    · exact absurd ‹_› (hnone _ _ ‹_›)
    · rfl
  · rfl

/-- Where a write lands: ARG, a length register with its value in range, or the SYM_IN, BITS or BYTES window (20_memory R53, R54). -/
theorem offset_of_writeLocation {s t : State} {v : Word} {l : Location} (hl : l.Mapped s.cfg) (h : s.writeLocation v l = some t) :
    l.offset = 0x008 ∨ (l.offset = 0x034 ∧ v.toNat ≤ s.cfg.symCap) ∨ (l.offset = 0x03C ∧ v.toNat ≤ s.cfg.bitCap) ∨
    (l.offset = 0x040 ∧ v.toNat ≤ s.cfg.byteCap) ∨ (0x10000 ≤ l.offset ∧ l.offset < 0x20000) ∨ 0x30000 ≤ l.offset := by
  obtain ⟨r, rfl, hr⟩ | ⟨k, rfl, -⟩ | ⟨k, rfl, -⟩ | ⟨k, rfl, -⟩ := State.writeLocation_eq_some h
  · obtain ⟨rfl, -⟩ | ⟨rfl, hv, -⟩ | ⟨rfl, hv, -⟩ | ⟨rfl, hv, -⟩ := State.writeReg_eq_some hr <;>
      simp [Location.offset, Reg.offset, *]
  all_goals simp only [Location.Mapped, Location.offset] at *; omega

/-- Settles O10: such a read finds no value, and such a write lands nowhere, so each only adds its BUSERR to the host's record. -/
theorem busErrorChangesNothing : Obligations.BusErrorChangesNothing := by
  refine ⟨fun s a size rest ha hp hb h => ?_, fun s a size v rest ha hp hb h => ?_⟩
  · rw [step_read hp hb]
    exact congrArg _ (congrArg _ (State.readResponse_err (s := s.takeAction rest) ha h))
  · rw [step_busWrite hp hb, busWrite, State.takeAction_cfg, offsetOf_base ha]
    by_cases hal : wordAligned a size = true
    · obtain ⟨rfl, hmod⟩ := wordAligned_iff.mp hal
      simp only [List.mem_cons, List.not_mem_nil, or_false] at h
      simp only [hal, if_true]
      refine writeAt_err ?_ fun l t hl hw => ?_
      · rintro rfl
        rw [locate_eq_reg.mpr rfl, Reg.offset] at h
        simp at h
      · have hsome : locate s.cfg a ≠ none := hl.trans_ne nofun
        obtain ⟨hmapped, rfl⟩ := (locate_eq_some_iff hmod).mp hl
        have hlands := offset_of_writeLocation hmapped hw
        simp only [hsome, false_or, State.takeAction_cfg] at h hlands
        omega
    · simp only [hal]
      rfl

end Sys2Proof.Machine
end

section
/-! PROOFS. Hardware reset: the values it leaves, that they meet the invariant, and what the commands do right after it (70_reset R230, R231). -/

namespace Sys2Proof.Machine

/-! ## The reset state -/

/-- Settles O55: after reset the builder is idle, the registers are at zero and no memory lists an element. -/
theorem resetSatisfiesInv : Obligations.ResetSatisfiesInv := by
  refine ⟨by decide, fun p hp => inv_of_registers_reset ?idle hp ?memory ⟨rfl, rfl, rfl⟩ ⟨rfl, rfl, rfl, rfl, rfl⟩⟩
  case idle => exact ⟨rfl, rfl, rfl, rfl, rfl, rfl, rfl⟩
  case memory =>
    exact ⟨Memory.form_nil, Memory.form_nil, Memory.form_nil, Memory.form_nil, Memory.form_nil, Memory.form_nil, Memory.form_nil⟩

theorem step_hwReset {s : State} {rest : List HostAction} (hp : s.pending = .hwReset :: rest) :
    step s = .next (s.takeAction rest).hardwareReset := by
  simp only [step, hp, act]

/-- Settles O19: the step leaves the reset state but for the run, and FT_N = 0 puts every FT window word past the table. -/
theorem hardwareResetValues : Obligations.HardwareResetValues := by
  intro s rest hp
  refine ⟨_, step_hwReset hp, rfl, rfl, rfl, rfl, rfl, rfl, rfl, rfl, rfl, rfl, rfl, rfl, rfl, rfl, rfl, rfl, ?status, rfl, rfl, rfl, rfl,
    ?ftWindow, ?memories⟩
  case status => exact (by decide : statusOf false false false false false = 0#32)
  case ftWindow => exact fun i => State.readFtWord_above (Nat.zero_le i)
  case memories => exact fun i => ⟨rfl, rfl, rfl, rfl, rfl, rfl⟩

/-! ## TB_BUILD without a table -/

theorem tbInitBody_of_empty {s : State} (h : TableHeld s []) : tbInitBody s = .raised .emptyAlphabet (info 0) := by
  rw [tbInitBody, fetchTable, fetchRange_eq_done.mpr h, Ending.bind_done]

/-- TB_BUILD raises what its TB_INIT half raises (42_tree_builder R124). -/
theorem tbBuildBody_of_empty {s : State} (h : TableHeld s []) : tbBuildBody s = .raised .emptyAlphabet (info 0) := by
  rw [tbBuildBody, tbInitBody_of_empty h, Ending.bind_raised]

/-! ## Right after reset -/

/-- The packing of the empty string is the marker byte (44_bitstream R150). -/
theorem packBits_nil : packBits [] = [0x01#8] := rfl

/-- Settles O20: at reset the table is empty, no build runs, there is no tree and there are no codes, and BIT_LEN is 0. -/
theorem commandsAfterReset : Obligations.CommandsAfterReset := by
  intro p hp
  have hclear : (State.resetWith p).errCode = 0#8 := rfl
  have hempty : TableHeld (State.resetWith p) [] := rfl
  refine ⟨?tbBuild, exec_tbInit_of_empty hempty hclear, exec_tbStep_of_not_running nofun hclear, exec_ctGen_without_tree rfl hclear,
    decBitsErrors.1 _ rfl hclear, exec_encoding_without_codes (.inl rfl) hclear rfl, exec_encoding_without_codes (.inr rfl) hclear rfl,
    ?pack⟩
  case tbBuild => exact (congrArg (settle _ _) (tbBuildBody_of_empty hempty)).trans (settle_raised_of_clear hclear ..)
  case pack =>
    obtain ⟨-, -, -, -, hcap, -⟩ := hp
    have hfits : packedLength 0 ≤ p.byteCap := Nat.le_trans (by decide) hcap
    rw [exec_pack_of_readRange (s := State.resetWith p) (b := []) rfl hfits, packBits_nil]
    rfl

end Sys2Proof.Machine
end

section
/-! PROOFS. The host's accesses while BUSY = 1 (70_reset R240, R241). -/

namespace Sys2Proof.Machine

/-- While BUSY = 1 the one read that goes on is that of STATUS (70_reset R241). -/
theorem step_read_of_busy {s : State} {addr size : Nat} {rest : List HostAction} (hb : s.busy = true)
    (hp : s.pending = .read addr size :: rest) :
    step s = if addr = regAddr s.cfg .status ∧ size = 4 then .next (s.takeAction rest).readStatus else .fault .busyAccess := by
  have hact : step s = hostRead (s.takeAction rest) addr size := by simp only [step, hp, act]
  exact hact.trans (if_pos hb)

theorem step_write_of_busy {s : State} {addr size : Nat} {v : Word} {rest : List HostAction} (hb : s.busy = true)
    (hp : s.pending = .write addr size v :: rest) : step s = .fault .busyAccess := by
  have hact : step s = hostWrite (s.takeAction rest) addr size v := by simp only [step, hp, act]
  exact hact.trans (if_pos hb)

theorem step_readStatus_of_busy {s : State} {rest : List HostAction} (hb : s.busy = true)
    (hp : s.pending = .read (regAddr s.cfg .status) 4 :: rest) : step s = .next (s.takeAction rest).readStatus := by
  rw [step_read_of_busy hb hp, if_pos ⟨rfl, rfl⟩]

/-- STATUS while BUSY = 1 has bit 0 set and bits 31:5 zero, whatever bits 4:1 are (70_reset R241; log 4). -/
theorem State.busyStatusWord_fields (s : State) : s.busyStatusWord.getLsbD 0 = true ∧ s.busyStatusWord >>> 5 = 0#32 := by
  rw [State.busyStatusWord]
  generalize Config.statusBits s.draws = free
  revert free
  decide

/-- Settles O17, by whether polls of the free duration remain at a STATUS read, and by the kind of any other access. -/
theorem busyProtocol : Obligations.BusyProtocol := by
  refine ⟨fun s rest hb hp => ⟨fun hpolls => ?running, fun hpolls => ?ended⟩, fun s addr size rest hb hp hother => ?read,
    fun s addr size v rest => step_write_of_busy⟩
  case running =>
    obtain ⟨hbusy, hhigh⟩ := (s.takeAction rest).busyStatusWord_fields
    refine ⟨_, hbusy, hhigh, ?_⟩
    rw [step_readStatus_of_busy hb hp, State.readStatus_running (s := s.takeAction rest) hb hpolls]
    rfl
  case ended =>
    obtain ⟨hbusy, herr, htree, hcodes, hpartial, hhigh⟩ := (s.takeAction rest).endBusy.statusWord_fields
    refine ⟨_, hbusy, herr, htree, hcodes, hpartial, hhigh, ?_⟩
    rw [step_readStatus_of_busy hb hp, State.readStatus_ended (s := s.takeAction rest) (.inr hpolls)]
    rfl
  case read => rw [step_read_of_busy hb hp, if_neg hother]

end Sys2Proof.Machine
end

section
/-! PROOFS. What a complete tree survives: every step but a hardware reset and the commands that withdraw or rebuild it (70_reset R245). -/

namespace Sys2Proof.Machine

/-- t has TREE_VALID, node memory and ROOT of s (10_state R33, R34, R43). -/
def SameTree (s t : State) : Prop := t.treeValid = s.treeValid ∧ t.nodes = s.nodes ∧ t.root = s.root

theorem SameTree.refl (s : State) : SameTree s s := ⟨rfl, rfl, rfl⟩

theorem SameTree.raiseError (s : State) (c : ErrCode) (op : BitVec 8) (w : Word) : SameTree s (s.raiseError c op w) :=
  ⟨State.raiseError_treeValid .., State.raiseError_nodes .., State.raiseError_root ..⟩

/-- No bus write reaches the tree (20_memory R52). -/
theorem SameTree.writeLocation {s t : State} {v : Word} {l : Location} (h : s.writeLocation v l = some t) : SameTree s t := by
  obtain ⟨r, -, hr⟩ | ⟨k, -, rfl⟩ | ⟨k, -, rfl⟩ | ⟨k, -, rfl⟩ := State.writeLocation_eq_some h
  · obtain ⟨-, rfl⟩ | ⟨-, -, rfl⟩ | ⟨-, -, rfl⟩ | ⟨-, -, rfl⟩ := State.writeReg_eq_some hr <;> exact ⟨rfl, rfl, rfl⟩
  all_goals simp [SameTree]

theorem SameTree.readStatus (s : State) : SameTree s s.readStatus := by
  unfold State.readStatus; split_ifs <;> exact .refl s

theorem SameTree.hostPoll (s : State) : SameTree s (hostPoll s) := by
  unfold Machine.hostPoll; split_ifs <;> exact .readStatus s

/-- The command is none of those that withdraw or rebuild a complete tree (70_reset R245). -/
def KeepsTree (i : Instr) : Prop :=
  i ≠ .ftClear ∧ (∀ sym, i ≠ .ftAppend sym) ∧ i ≠ .tbInit ∧ i ≠ .tbBuild ∧ i ≠ .sreset

/-- TB_STEP finishes only in a running build, and every other command left has its own part of the state (42_tree_builder R123). -/
theorem Finished.sameTree {i : Instr} {s t : State} (hf : Finished s i t) (hdone : s.tbState ≠ .running) (hi : KeepsTree i) :
    SameTree s t := by
  obtain ⟨hclear, happend, hinit, hbuild, hreset⟩ := hi
  cases hf with
  | ftClear => exact absurd rfl hclear
  | ftAppend => exact absurd rfl (happend _)
  | tbInit => exact absurd rfl hinit
  | tbBuild => exact absurd rfl hbuild
  | sreset => exact absurd rfl hreset
  | tbStep hbody => exact absurd (tbStepBody_eq_done.mp hbody).1 hdone
  | _ => exact .refl s

theorem exec_sameTree {i : Instr} {s t : State} (h : exec i s = .next t) (hdone : s.tbState ≠ .running) (hi : KeepsTree i) :
    SameTree s t := by
  obtain hf | ⟨c, w, -, rfl⟩ := exec_cases h
  · exact hf.sameTree hdone hi
  · exact .raiseError ..

theorem issue_sameTree {w : Word} {s t : State} (h : issue w s = .next t) (hdone : s.tbState ≠ .running)
    (hw : ∀ i : Instr, i.WellFormed → w = encode i → KeepsTree i) : SameTree s t := by
  obtain ⟨-, hissue⟩ | ⟨-, -, hissue⟩ | ⟨-, i, hd, hissue⟩ := issue_cases w s <;> rw [hissue] at h
  · cases h; exact .refl s
  · cases h; exact .raiseError s.beginCommand ..
  · obtain ⟨hwf, hword⟩ := encode_of_decode hd
    exact exec_sameTree (s := s.beginCommand) h hdone (hw i hwf hword)

/-- Settles O53, by the kinds of step: no access reaches the tree, and with TREE_VALID = 1 no build runs, so that a TB_STEP is an error. -/
theorem treePersists : Obligations.TreePersists := by
  intro s t a rest hbuilder htree hp hstep hreset hcmd
  suffices SameTree s t from this.imp_left (·.trans htree)
  obtain ⟨-, -, -, -, -, htv, -⟩ := hbuilder
  have hdone : s.tbState ≠ .running := by simp [htv.mp htree]
  obtain ⟨hnil, -⟩ | ⟨_, rest', hp', hact⟩ := step_cases hstep
  · cases hp.symm.trans hnil
  cases hp.symm.trans hp'
  obtain ⟨ha, -⟩ | ⟨-, rfl⟩ | ⟨-, -, rfl⟩ | ⟨-, w, rfl, hissue⟩ | ⟨-, _, v, _, l, u, -, -, -, -, hwrite, rfl⟩ | ⟨-, r, rfl⟩ := hact
  · exact absurd ha hreset
  · exact SameTree.hostPoll (s.takeAction rest)
  · exact SameTree.readStatus (s.takeAction rest)
  · exact issue_sameTree (s := (s.takeAction rest).respond writeOk) hissue hdone fun i hwf hw => hcmd i hwf (congrArg _ hw)
  · exact SameTree.writeLocation (s := s.takeAction rest) (t := u) hwrite
  · exact .refl s

end Sys2Proof.Machine
end

section
/-! PROOFS. Why a step stops: only an access during BUSY and an input element never written, since the block writes what it reads of its own memories (20_memory R71, 70_reset R241; log 12). -/

namespace Sys2Proof.Machine

/-- The fault names an element of SYM_IN, BITS or BYTES below its length register that was never written (20_memory R71). -/
def UnwrittenInput (s : State) (f : Fault) : Prop :=
  ∃ i, (f = .unwrittenRead .symIn i ∧ i < s.symInLen ∧ Memory.read s.symIn i = none) ∨
    (f = .unwrittenRead .bits i ∧ i < s.bitLen ∧ Memory.read s.bits i = none) ∨
    (f = .unwrittenRead .bytes i ∧ i < s.byteLen ∧ Memory.read s.bytes i = none)

/-! ## The table and the builder -/

theorem fetchTable_of_tableForm {s : State} (h : TableForm s) : fetchTable s = .done s.table := fetchRange_eq_done.mpr h.1

theorem appendChecked_ne_stuck (s : State) (e : FtEntry) (table : List FtEntry) (f : Fault) : appendChecked s e table ≠ .stuck f := by
  unfold appendChecked
  split
  · nofun
  · split_ifs <;> nofun

theorem ftAppendBody_ne_stuck {s : State} (h : TableForm s) (sym : Nat) (f : Fault) : ftAppendBody sym s ≠ .stuck f := by
  rw [ftAppendBody, fetchTable_of_tableForm h]
  split_ifs
  · nofun
  · nofun
  · exact appendChecked_ne_stuck s _ _ f

/-- From a table in form TB_INIT and TB_BUILD go on: with entries they finish, without one they raise EMPTY_ALPHABET (42_tree_builder R122, R127). -/
theorem exec_build_ne_fault {i : Instr} (hi : i = .tbInit ∨ i = .tbBuild) {s : State} (h : TableForm s) (f : Fault) :
    exec i s ≠ .fault f := by
  by_cases hone : 1 ≤ s.ftN
  · obtain ⟨first, rest, hheld, -⟩ := h.exists_cons hone
    obtain ⟨t, hbuild, -⟩ := exec_tbBuild_of_tableForm h hone
    obtain rfl | rfl := hi
    · simp [exec_tbInit_of_held hheld]
    · simp [hbuild]
  · have hempty : TableHeld s [] := by rw [TableHeld, show s.ftN = 0 by omega, Memory.readRange_zero]
    obtain rfl | rfl := hi
    · exact fun hfault => by cases (tbInitBody_of_empty hempty).symm.trans (settle_eq_fault.mp hfault)
    · exact fun hfault => by cases (tbBuildBody_of_empty hempty).symm.trans (settle_eq_fault.mp hfault)

/-- Every node a merge reads is below NODE_N and so written, and NODE_N names a slot (42_tree_builder R127). -/
theorem tbStepBody_ne_stuck {s : State} (h : Inv s) (f : Fault) : tbStepBody s ≠ .stuck f := by
  unfold tbStepBody
  split_ifs with hr
  · obtain ⟨_, _, _, _, _, _, _, _, -, -, -, -, hmerge⟩ := merge_facts h hr
    simp [hmerge]
  · nofun

/-! ## The code table and EncodeBits -/

/-- A path of a finished tree is short enough for visit (43_code_table R143; log 12). -/
theorem ctGenBody_ne_stuck {s : State} (h : Inv s) (f : Fault) : ctGenBody s ≠ .stuck f := by
  unfold ctGenBody
  split_ifs with htree
  · obtain ⟨leaves, hleaves⟩ := done_leafPaths h (h.done_of_treeValid htree)
    simp [hleaves]
  · nofun

/-- With CODES_VALID = 1 every symbol has an entry, so EncodeBits stops only for want of a symbol (43_code_table R140, 45_encode_decode R170). -/
theorem encodeBits_stuck {s : State} {f : Fault} (h : Inv s) (hv : s.codesValid = true) (hf : encodeBits s = .stuck f) :
    UnwrittenInput s f := by
  obtain ⟨k, -, hk, hread, rfl⟩ | ⟨c, hc, hread, -⟩ := encodeFrom_stuck hf
  · exact ⟨k, .inl ⟨rfl, by omega, hread⟩⟩
  · obtain ⟨e, he⟩ := (h.codesOfTree hv).2.exists_read (symOperand c)
    rw [symOperand, BitVec.toNat_ofNat, Nat.mod_eq_of_lt hc, hread] at he
    cases he

theorem encBitsBody_stuck {s : State} {f : Fault} (h : Inv s) (hf : encBitsBody s = .stuck f) : UnwrittenInput s f := by
  unfold encBitsBody at hf
  split_ifs at hf with hv
  obtain hf | ⟨b, -, hf⟩ := Ending.bind_eq_stuck.mp hf
  · exact encodeBits_stuck h hv hf
  · cases hf

theorem encodeBody_stuck {s : State} {f : Fault} (h : Inv s) (hf : encodeBody s = .stuck f) : UnwrittenInput s f := by
  unfold encodeBody at hf
  split_ifs at hf with hv
  obtain hf | ⟨b, -, hf⟩ := Ending.bind_eq_stuck.mp hf
  · exact encodeBits_stuck h hv hf
  · split_ifs at hf

/-! ## The bit stream -/

theorem packBody_stuck {s : State} {f : Fault} (hf : packBody s = .stuck f) : UnwrittenInput s f := by
  unfold packBody at hf
  split_ifs at hf
  obtain hf | ⟨b, -, hf⟩ := Ending.bind_eq_stuck.mp hf
  · obtain ⟨i, hi, hread, rfl⟩ := fetchRange_eq_stuck hf
    exact ⟨i, .inr (.inl ⟨rfl, hi, hread⟩)⟩
  · cases hf

theorem unpackBody_stuck {s : State} {f : Fault} (hf : unpackBody s = .stuck f) : UnwrittenInput s f := by
  obtain hf | ⟨b, -, hf⟩ := Ending.bind_eq_stuck.mp hf
  · unfold unpackedBits at hf
    split_ifs at hf with hlen
    obtain hf | ⟨first, -, hf⟩ := Ending.bind_eq_stuck.mp hf
    · obtain ⟨hread, rfl⟩ := fetch_eq_stuck.mp hf
      exact ⟨0, .inr (.inr ⟨rfl, by omega, hread⟩)⟩
    · split_ifs at hf
      obtain hf | ⟨bs, -, hf⟩ := Ending.bind_eq_stuck.mp hf
      · obtain ⟨i, hi, hread, rfl⟩ := fetchRange_eq_stuck hf
        exact ⟨i, .inr (.inr ⟨rfl, hi, hread⟩)⟩
      · split at hf <;> cases hf
  · cases hf

/-! ## The walk -/

section Finished

variable {s : State} (h : Inv s) (hd : s.tbState = .done)
include h hd

theorem done_reads {i : Nat} (hi : i < s.nodeN) : ∃ nd, Memory.read s.nodes i = some nd := by
  by_cases hlow : i < s.ftN
  · obtain ⟨e, -, hread⟩ := done_leaf h hd hlow
    exact ⟨_, hread⟩
  · obtain ⟨nd, hread, -⟩ := done_internal h hd (Nat.le_of_not_lt hlow) hi
    exact ⟨nd, hread⟩

/-- From an internal node every child present is a written node, so the walk stops only for want of a bit (45_encode_decode R172). -/
theorem walkFrom_stuck {left j : Nat} {node : NodeRef} {out : List Byte} {f : Fault}
    (hnode : s.ftN ≤ node.toNat ∧ node.toNat < s.nodeN) (hf : walkFrom s left j node out = .stuck f) :
    ∃ k < j + left, Memory.read s.bits k = none ∧ f = .unwrittenRead .bits k := by
  induction left generalizing j node out with
  | zero => cases hf
  | succ left ih =>
    obtain ⟨nd, hnd, -, -, hbelow⟩ := done_internal h hd hnode.1 hnode.2
    cases hbit : Memory.read s.bits j with
    | none =>
      rw [walkFrom, fetch_eq_stuck.mpr ⟨hbit, rfl⟩, Ending.bind_stuck] at hf
      exact ⟨j, by omega, hbit, (Ending.stuck.inj hf).symm⟩
    | some b =>
      rw [walkFrom_succ hbit hnd] at hf
      by_cases hnil : nd.child b = nilRef
      · rw [if_pos hnil] at hf
        cases hf
      obtain ⟨cd, hcd⟩ := done_reads h hd ((hbelow b hnil).trans hnode.2)
      rw [if_neg hnil, fetch_of_read hcd, Ending.bind_done] at hf
      have hnext : ∃ (next : NodeRef) (emitted : List Byte), (s.ftN ≤ next.toNat ∧ next.toNat < s.nodeN) ∧
          walkFrom s left (j + 1) next emitted = .stuck f := by
        split_ifs at hf with hleaf hfull
        · exact ⟨_, _, done_root_internal h hd, hf⟩
        · refine ⟨_, _, ⟨?_, (hbelow b hnil).trans hnode.2⟩, hf⟩
          by_contra hlow
          obtain ⟨e, -, hread⟩ := done_leaf h hd (Nat.lt_of_not_le hlow)
          obtain rfl := Option.some.inj (hcd.symm.trans hread)
          exact hleaf rfl
      obtain ⟨next, emitted, hinternal, hwalk⟩ := hnext
      obtain ⟨k, hk, hunwritten⟩ := ih hinternal hwalk
      exact ⟨k, by omega, hunwritten⟩

end Finished

theorem decBitsBody_stuck {s : State} {f : Fault} (h : Inv s) (hf : decBitsBody s = .stuck f) :
    ∃ k < s.bitLen, Memory.read s.bits k = none ∧ f = .unwrittenRead .bits k := by
  unfold decBitsBody at hf
  split_ifs at hf with htree
  have hd := h.done_of_treeValid htree
  obtain hf | ⟨r, -, hf⟩ := Ending.bind_eq_stuck.mp hf
  · simpa using walkFrom_stuck h hd (done_root_internal h hd) hf
  · cases hf

/-- DECODE's walk reads the bits its unpack half has just written, so only that half can stop (45_encode_decode R175). -/
theorem decodeBody_stuck {s : State} {f : Fault} (h : Inv s) (hf : decodeBody s = .stuck f) : UnwrittenInput s f := by
  rw [decodeBody_eq_bind] at hf
  obtain hf | ⟨u, hu, hf⟩ := Ending.bind_eq_stuck.mp hf
  · exact unpackBody_stuck hf
  · obtain ⟨b, hb, rfl⟩ := unpackBody_eq_done.mp hu
    obtain ⟨k, hk, hread, -⟩ := decBitsBody_stuck (h.putBits (unpackedBits_fits hb)) hf
    have hwritten := ((Memory.readRange_eq_ok_iff ..).mp (Memory.readRange_writeList s.bits 0 b)).2 k hk
    rw [Nat.zero_add] at hwritten
    exact absurd (List.getElem?_eq_none_iff.mp (hwritten.symm.trans hread)) (Nat.not_le.mpr hk)

/-! ## Commands and steps -/

/-- With the invariant a command stops only at an input never written (20_memory R71). -/
theorem exec_fault {i : Instr} {s : State} {f : Fault} (h : Inv s) (hf : exec i s = .fault f) : UnwrittenInput s f := by
  cases i with
  | nop | sreset | clrerr | ftClear => cases hf
  | ftAppend sym => exact absurd (settle_eq_fault.mp hf) (ftAppendBody_ne_stuck h.table sym f)
  | tbInit => exact absurd hf (exec_build_ne_fault (.inl rfl) h.table f)
  | tbStep => exact absurd (settle_eq_fault.mp hf) (tbStepBody_ne_stuck h f)
  | tbBuild => exact absurd hf (exec_build_ne_fault (.inr rfl) h.table f)
  | ctGen => exact absurd (settle_eq_fault.mp hf) (ctGenBody_ne_stuck h f)
  | pack => exact packBody_stuck (settle_eq_fault.mp hf)
  | unpack => exact unpackBody_stuck (settle_eq_fault.mp hf)
  | encBits => exact encBitsBody_stuck h (settle_eq_fault.mp hf)
  | decBits =>
    obtain ⟨k, hk, hread, rfl⟩ := decBitsBody_stuck h (settle_eq_fault.mp hf)
    exact ⟨k, .inr (.inl ⟨rfl, hk, hread⟩)⟩
  | encode => exact encodeBody_stuck h (settle_eq_fault.mp hf)
  | decode => exact decodeBody_stuck h (settle_eq_fault.mp hf)

/-- While BUSY = 0 a step stops only in the command that a CMD write runs (20_memory R52, 30_encoding R87). -/
theorem step_fault_of_idle {s : State} {f : Fault} (hb : s.busy = false) (hf : step s = .fault f) :
    ∃ i rest, exec i (s.atCommand rest) = .fault f := by
  cases hp : s.pending with
  | nil => simp [step, hp] at hf
  | cons a rest =>
    cases a with
    | hwReset => simp [step_hwReset hp] at hf
    | poll => simp [step_poll hp] at hf
    | read addr size => simp [step_read hp hb] at hf
    | write addr size v =>
      rw [step_busWrite hp hb] at hf
      obtain ⟨-, -, hw⟩ | ⟨_, _, _, -, -, -, -, -, hw⟩ | ⟨_, hw⟩ := busWrite_cases (s.takeAction rest) addr size v <;> rw [hw] at hf
      · obtain ⟨-, hi⟩ | ⟨-, -, hi⟩ | ⟨-, i, -, hi⟩ := issue_cases v ((s.takeAction rest).respond writeOk) <;> rw [hi] at hf
        · cases hf
        · cases hf
        · exact ⟨i, rest, hf⟩
      · cases hf
      · cases hf

/-- While BUSY = 1 a step stops only at an access, and not at a STATUS read (70_reset R240, R241). -/
theorem step_fault_of_busy {s : State} {f : Fault} (hb : s.busy = true) (hf : step s = .fault f) :
    f = .busyAccess ∧ s.pending.head? ≠ some (.read (regAddr s.cfg .status) 4) := by
  constructor
  · obtain hbusy | ⟨_, _, _, -, hidle, -⟩ := step_fault_cases hf
    · exact hbusy
    · cases hb.symm.trans hidle
  · intro hhead
    obtain ⟨rest, hp⟩ := List.head?_eq_some_iff.mp hhead
    cases (step_readStatus_of_busy hb hp).symm.trans hf

/-- Settles O57: while BUSY = 1 only an access faults, and while it is 0 only a command does, which reads nothing unwritten but the host's inputs. -/
theorem onlyHostMistakesFault : Obligations.OnlyHostMistakesFault := by
  intro s f h hf
  cases hb : s.busy with
  | true =>
    obtain ⟨hfault, hhead⟩ := step_fault_of_busy hb hf
    exact .inl ⟨hfault, hb, hhead⟩
  | false =>
    obtain ⟨i, rest, hexec⟩ := step_fault_of_idle hb hf
    exact .inr (exec_fault (s := s.atCommand rest) ((h.takeAction rest).respond writeOk).beginCommand hexec)

end Sys2Proof.Machine
end
